-- ==== Sys2Proof/Word.lean ====
section
/-! DEFINITION. The bit-vector types of the Spartacus core: bytes, 32-bit words and the 3-bit FLAGS value. -/

namespace Sys2Proof

/-- One byte of memory, 0..255 (20_memory.md R62; 00_scope.md R7 "memory unit"). -/
abbrev Byte := BitVec 8

/-- The width of a register, of I, IVR, VMR and of an immediate (00_scope.md R7 `XLEN`, 30_encoding.md R119). -/
abbrev Word := BitVec 32

/-- A FLAGS value or a condition mask: bit 2 Zero, bit 1 Lower, bit 0 Higher (10_state.md R28, 30_encoding.md R120). -/
abbrev FlagBits := BitVec 3

end Sys2Proof
end

