-- ==== Sys2Proof/Syntax.lean ====
section
/-! DEFINITION. The instructions of the Spartacus core as data: one constructor of `Instr` for each of the 48 rows of
spec/opcode_table.json (30_encoding.md R125). -/

namespace Sys2Proof

/-- The 16 general registers, in the order of their ids (10_state.md R21). -/
inductive Reg where
  | A | B | C | D | E | F | G | S
  | A2 | B2 | C2 | D2 | E2 | F2 | G2 | S2
  deriving DecidableEq, Repr

/-- A decoded instruction. An operand slot holds either a register or an immediate (30_encoding.md R114); `s` is the
source, `d` the destination, `m` the 3-bit condition mask (R120), `w` the 4-bit width field (R121), `#` an immediate
(R119). The name of a constructor is the mnemonic followed by its operand kinds. -/
inductive Instr where
  /-- 0x10 `MOV $s $d` (41_alu.md R181) -/
  | movReg (s d : Reg)
  /-- 0x11 `ADD $s $d` (R182) -/
  | addReg (s d : Reg)
  /-- 0x12 `SUB $s $d` (R183) -/
  | subReg (s d : Reg)
  /-- 0x13 `AND $s $d` (R184) -/
  | andReg (s d : Reg)
  /-- 0x14 `OR $s $d` (R185) -/
  | orReg (s d : Reg)
  /-- 0x15 `XOR $s $d` (R186) -/
  | xorReg (s d : Reg)
  /-- 0x16 `SHL $s $d` (R187) -/
  | shlReg (s d : Reg)
  /-- 0x17 `SHR $s $d` (R188) -/
  | shrReg (s d : Reg)
  /-- 0x18 `CMP $s $d` (R190) -/
  | cmpReg (s d : Reg)
  /-- 0x19 `MUL $s $d` (R191) -/
  | mulReg (s d : Reg)
  /-- 0x1A `DIV $s $d` (R192) -/
  | divReg (s d : Reg)
  /-- 0x20 `MOV #imm $d` (R181) -/
  | movImm (imm : Word) (d : Reg)
  /-- 0x21 `ADD #imm $d` (R182) -/
  | addImm (imm : Word) (d : Reg)
  /-- 0x22 `SUB #imm $d` (R183) -/
  | subImm (imm : Word) (d : Reg)
  /-- 0x23 `AND #imm $d` (R184) -/
  | andImm (imm : Word) (d : Reg)
  /-- 0x24 `OR #imm $d` (R185) -/
  | orImm (imm : Word) (d : Reg)
  /-- 0x25 `XOR #imm $d` (R186) -/
  | xorImm (imm : Word) (d : Reg)
  /-- 0x26 `SHL #imm $d` (R187) -/
  | shlImm (imm : Word) (d : Reg)
  /-- 0x27 `SHR #imm $d` (R188) -/
  | shrImm (imm : Word) (d : Reg)
  /-- 0x28 `CMP #imm $d` (R190) -/
  | cmpImm (imm : Word) (d : Reg)
  /-- 0x29 `MUL #imm $d` (R191) -/
  | mulImm (imm : Word) (d : Reg)
  /-- 0x2A `DIV #imm $d` (R192) -/
  | divImm (imm : Word) (d : Reg)
  /-- 0x30 `NOT $r` (R189) -/
  | notReg (r : Reg)
  /-- 0x31 `CALL $r` (42_control.md R210) -/
  | callReg (r : Reg)
  /-- 0x32 `PUSH $r` (R212) -/
  | pushReg (r : Reg)
  /-- 0x33 `POP $r` (R213) -/
  | popReg (r : Reg)
  /-- 0x34 `INT $r` (43_system.md R231) -/
  | intReg (r : Reg)
  /-- 0x35 `SIVR $r` (R237) -/
  | sivrReg (r : Reg)
  /-- 0x41 `CALL #imm` (42_control.md R210) -/
  | callImm (imm : Word)
  /-- 0x42 `PUSH #imm` (R212) -/
  | pushImm (imm : Word)
  /-- 0x44 `INT #imm` (43_system.md R231) -/
  | intImm (imm : Word)
  /-- 0x50 `JMP <m> $r` (42_control.md R215) -/
  | jmpReg (m : FlagBits) (r : Reg)
  /-- 0x51 `JMPR <m> $r` (R216) -/
  | jmprReg (m : FlagBits) (r : Reg)
  /-- 0x52 `SFSTOR <m> $r` (43_system.md R236) -/
  | sfstorReg (m : FlagBits) (r : Reg)
  /-- 0x60 `JMP <m> #imm` (42_control.md R215) -/
  | jmpImm (m : FlagBits) (imm : Word)
  /-- 0x61 `JMPR <m> #imm` (R216) -/
  | jmprImm (m : FlagBits) (imm : Word)
  /-- 0x62 `SFSTOR <m> #imm` (43_system.md R236) -/
  | sfstorImm (m : FlagBits) (imm : Word)
  /-- 0x70 `MEMR [w] $s $d`, address in `s` (44_memory_access.md R260) -/
  | memrRegReg (w : BitVec 4) (s d : Reg)
  /-- 0x71 `MEMW [w] $s $d`, value in `s`, address in `d` (R261) -/
  | memwRegReg (w : BitVec 4) (s d : Reg)
  /-- 0x80 `MEMR [w] #addr $d` (R260) -/
  | memrImmReg (w : BitVec 4) (addr : Word) (d : Reg)
  /-- 0x81 `MEMW [w] #val $d`, address in `d` (R261) -/
  | memwImmReg (w : BitVec 4) (val : Word) (d : Reg)
  /-- 0x91 `MEMW [w] $s #addr` (R261) -/
  | memwRegImm (w : BitVec 4) (s : Reg) (addr : Word)
  /-- 0xA1 `MEMW [w] #val #addr` (R261) -/
  | memwImmImm (w : BitVec 4) (val addr : Word)
  /-- 0xF0 `RET` (42_control.md R211) -/
  | ret
  /-- 0xF1 `HIRET` (43_system.md R233) -/
  | hiret
  /-- 0xF2 `ACTI` (R234) -/
  | acti
  /-- 0xF3 `DACTI` (R235) -/
  | dacti
  /-- 0xFF `NOP` (R238) -/
  | nop
  deriving DecidableEq, Repr

end Sys2Proof
end

