-- ==== Sys2Proof/WellFormed.lean ====
section
/-! DEFINITION. Which instructions an encoding can stand for. -/

namespace Sys2Proof

/-- A legal value of the 4-bit width field: `1 <= width <= 4` (30_encoding.md R115, R121). -/
def WidthOk (w : BitVec 4) : Bool := decide (1 ≤ w.toNat ∧ w.toNat ≤ 4)

/-- "No other field has illegal values: all 16 register ids are valid, and all 8 flag masks are valid"
(30_encoding.md R115), so an instruction is well formed when its width field, if it has one, is legal. -/
def WellFormed : Instr → Bool
  | .memrRegReg w _ _ => WidthOk w
  | .memwRegReg w _ _ => WidthOk w
  | .memrImmReg w _ _ => WidthOk w
  | .memwImmReg w _ _ => WidthOk w
  | .memwRegImm w _ _ => WidthOk w
  | .memwImmImm w _ _ => WidthOk w
  | .movReg _ _ | .addReg _ _ | .subReg _ _ | .andReg _ _ | .orReg _ _ | .xorReg _ _ | .shlReg _ _ | .shrReg _ _
  | .cmpReg _ _ | .mulReg _ _ | .divReg _ _ => true
  | .movImm _ _ | .addImm _ _ | .subImm _ _ | .andImm _ _ | .orImm _ _ | .xorImm _ _ | .shlImm _ _ | .shrImm _ _
  | .cmpImm _ _ | .mulImm _ _ | .divImm _ _ => true
  | .notReg _ | .callReg _ | .pushReg _ | .popReg _ | .intReg _ | .sivrReg _ => true
  | .callImm _ | .pushImm _ | .intImm _ => true
  | .jmpReg _ _ | .jmprReg _ _ | .sfstorReg _ _ | .jmpImm _ _ | .jmprImm _ _ | .sfstorImm _ _ => true
  | .ret | .hiret | .acti | .dacti | .nop => true

end Sys2Proof
end

