-- ==== Sys2Proof/Decode.lean ====
section
/-! DEFINITION. The instruction codec (30_encoding.md): two-phase decode by field masks (R110 to R115) and the encoder
(R117), both over a codec that is data (the parameters FORM_TABLE and REG_ID of 00_scope.md R7), and the reference codec of
R122 to R125. The reference codec decodes by the mask table R123; `encode` is written from the byte strings R124, so the
round trip R117 checks the two tables of the spec against each other. -/

namespace Sys2Proof

/-! ## Byte order (20_memory.md R66) -/

/-- The big-endian value of a byte string: the first byte is the most significant (20_memory.md R66). -/
def beValue : List Byte → Nat
  | [] => 0
  | b :: rest => b.toNat * 256 ^ rest.length + beValue rest

/-- The big-endian serialisation of `v` in `n` bytes; bits of `v` above `8*n` are not part of it (20_memory.md R66, R81). -/
def beBytes : Nat → Nat → List Byte
  | 0, _ => []
  | n + 1, v => BitVec.ofNat 8 (v / 256 ^ n) :: beBytes n v

/-! ## Forms and mnemonics (30_encoding.md R114, R122) -/

/-- The eleven operand shapes (30_encoding.md R122). -/
inductive Form where
  | ins | insRegReg | insImmReg | insReg | insImm | insFlagReg | insFlagImm
  | insWidthRegReg | insWidthImmReg | insWidthRegImm | insWidthImmImm
  deriving DecidableEq, Repr

/-- The fields of the layouts (30_encoding.md R123). -/
inductive FieldName where
  | instructionCode | sourceRegister | destinationRegister | sourceImmediate | destinationImmediate | width | flags
  deriving DecidableEq, Repr

/-- The mnemonics: "the human-readable operation name resolved from a decoded opcode" (00_scope.md R14; 30_encoding.md
R125). -/
inductive Mnemonic where
  | MOV | ADD | SUB | AND | OR | XOR | SHL | SHR | CMP | MUL | DIV
  | NOT | CALL | PUSH | POP | INT | SIVR | JMP | JMPR | SFSTOR | MEMR | MEMW
  | RET | HIRET | ACTI | DACTI | NOP
  deriving DecidableEq, Repr

/-- The length of each operand shape, "the smallest whole number of bytes that holds its fields" (30_encoding.md R122). -/
def Form.length : Form → Nat
  | .ins => 1
  | .insRegReg | .insReg | .insFlagReg => 2
  | .insWidthRegReg => 3
  | .insImm => 5
  | .insImmReg | .insFlagImm | .insWidthImmReg | .insWidthRegImm => 6
  | .insWidthImmImm => 10

/-- The fields of each operand shape (30_encoding.md R122, R123). -/
def Form.fields : Form → List FieldName
  | .ins => [.instructionCode]
  | .insRegReg => [.instructionCode, .sourceRegister, .destinationRegister]
  | .insImmReg => [.instructionCode, .sourceImmediate, .destinationRegister]
  | .insReg => [.instructionCode, .sourceRegister]
  | .insImm => [.instructionCode, .sourceImmediate]
  | .insFlagReg => [.instructionCode, .flags, .sourceRegister]
  | .insFlagImm => [.instructionCode, .flags, .sourceImmediate]
  | .insWidthRegReg => [.instructionCode, .width, .sourceRegister, .destinationRegister]
  | .insWidthImmReg => [.instructionCode, .width, .sourceImmediate, .destinationRegister]
  | .insWidthRegImm => [.instructionCode, .width, .sourceRegister, .destinationImmediate]
  | .insWidthImmImm => [.instructionCode, .width, .sourceImmediate, .destinationImmediate]

/-- The width of a field in bits (30_encoding.md R110, R118 to R121). -/
def FieldName.bits : FieldName → Nat
  | .instructionCode => 8
  | .sourceRegister | .destinationRegister | .width => 4
  | .sourceImmediate | .destinationImmediate => 32
  | .flags => 3

/-! ## The instruction as a mnemonic, a form and operands (30_encoding.md R114) -/

/-- The optional operands of the decoded record: "exactly one of (register, immediate) is present per operand slot that a
form defines" (30_encoding.md R114, R118 to R121). -/
structure Operands where
  src    : Option Reg := none
  dst    : Option Reg := none
  srcImm : Option Word := none
  dstImm : Option Word := none
  width  : Option (BitVec 4) := none
  flags  : Option FlagBits := none
  deriving DecidableEq, Repr

/-- The decoded instruction record (30_encoding.md R114). -/
structure Decoded where
  opcode   : Byte
  mnemonic : Mnemonic
  form     : Form
  operands : Operands
  length   : Nat
  deriving DecidableEq, Repr

/-- The mnemonic of an instruction (30_encoding.md R114, R125). -/
def Instr.mnemonic : Instr → Mnemonic
  | .movReg _ _ | .movImm _ _ => .MOV
  | .addReg _ _ | .addImm _ _ => .ADD
  | .subReg _ _ | .subImm _ _ => .SUB
  | .andReg _ _ | .andImm _ _ => .AND
  | .orReg _ _ | .orImm _ _ => .OR
  | .xorReg _ _ | .xorImm _ _ => .XOR
  | .shlReg _ _ | .shlImm _ _ => .SHL
  | .shrReg _ _ | .shrImm _ _ => .SHR
  | .cmpReg _ _ | .cmpImm _ _ => .CMP
  | .mulReg _ _ | .mulImm _ _ => .MUL
  | .divReg _ _ | .divImm _ _ => .DIV
  | .notReg _ => .NOT
  | .callReg _ | .callImm _ => .CALL
  | .pushReg _ | .pushImm _ => .PUSH
  | .popReg _ => .POP
  | .intReg _ | .intImm _ => .INT
  | .sivrReg _ => .SIVR
  | .jmpReg _ _ | .jmpImm _ _ => .JMP
  | .jmprReg _ _ | .jmprImm _ _ => .JMPR
  | .sfstorReg _ _ | .sfstorImm _ _ => .SFSTOR
  | .memrRegReg _ _ _ | .memrImmReg _ _ _ => .MEMR
  | .memwRegReg _ _ _ | .memwImmReg _ _ _ | .memwRegImm _ _ _ | .memwImmImm _ _ _ => .MEMW
  | .ret => .RET
  | .hiret => .HIRET
  | .acti => .ACTI
  | .dacti => .DACTI
  | .nop => .NOP

/-- The form of an instruction (30_encoding.md R114, R125). -/
def Instr.form : Instr → Form
  | .movReg _ _ | .addReg _ _ | .subReg _ _ | .andReg _ _ | .orReg _ _ | .xorReg _ _ | .shlReg _ _ | .shrReg _ _
  | .cmpReg _ _ | .mulReg _ _ | .divReg _ _ => .insRegReg
  | .movImm _ _ | .addImm _ _ | .subImm _ _ | .andImm _ _ | .orImm _ _ | .xorImm _ _ | .shlImm _ _ | .shrImm _ _
  | .cmpImm _ _ | .mulImm _ _ | .divImm _ _ => .insImmReg
  | .notReg _ | .callReg _ | .pushReg _ | .popReg _ | .intReg _ | .sivrReg _ => .insReg
  | .callImm _ | .pushImm _ | .intImm _ => .insImm
  | .jmpReg _ _ | .jmprReg _ _ | .sfstorReg _ _ => .insFlagReg
  | .jmpImm _ _ | .jmprImm _ _ | .sfstorImm _ _ => .insFlagImm
  | .memrRegReg _ _ _ | .memwRegReg _ _ _ => .insWidthRegReg
  | .memrImmReg _ _ _ | .memwImmReg _ _ _ => .insWidthImmReg
  | .memwRegImm _ _ _ => .insWidthRegImm
  | .memwImmImm _ _ _ => .insWidthImmImm
  | .ret | .hiret | .acti | .dacti | .nop => .ins

/-- The operands of an instruction (30_encoding.md R114). -/
def Instr.operands : Instr → Operands
  | .movReg s d | .addReg s d | .subReg s d | .andReg s d | .orReg s d | .xorReg s d | .shlReg s d | .shrReg s d
  | .cmpReg s d | .mulReg s d | .divReg s d => { src := some s, dst := some d }
  | .movImm i d | .addImm i d | .subImm i d | .andImm i d | .orImm i d | .xorImm i d | .shlImm i d | .shrImm i d
  | .cmpImm i d | .mulImm i d | .divImm i d => { srcImm := some i, dst := some d }
  | .notReg s | .callReg s | .pushReg s | .popReg s | .intReg s | .sivrReg s => { src := some s }
  | .callImm i | .pushImm i | .intImm i => { srcImm := some i }
  | .jmpReg m s | .jmprReg m s | .sfstorReg m s => { flags := some m, src := some s }
  | .jmpImm m i | .jmprImm m i | .sfstorImm m i => { flags := some m, srcImm := some i }
  | .memrRegReg w s d | .memwRegReg w s d => { width := some w, src := some s, dst := some d }
  | .memrImmReg w i d | .memwImmReg w i d => { width := some w, srcImm := some i, dst := some d }
  | .memwRegImm w s j => { width := some w, src := some s, dstImm := some j }
  | .memwImmImm w i j => { width := some w, srcImm := some i, dstImm := some j }
  | .ret | .hiret | .acti | .dacti | .nop => {}

/-- The length in bytes of an instruction, that of its form (30_encoding.md R116, R122). -/
def Instr.length (i : Instr) : Nat := i.form.length

/-- The InsRegReg instruction of a mnemonic (30_encoding.md R125). -/
def buildRegReg (s : Reg) (d : Reg) : Mnemonic → Option Instr
  | .MOV => some (.movReg s d) | .ADD => some (.addReg s d) | .SUB => some (.subReg s d)
  | .AND => some (.andReg s d) | .OR => some (.orReg s d) | .XOR => some (.xorReg s d) | .SHL => some (.shlReg s d)
  | .SHR => some (.shrReg s d) | .CMP => some (.cmpReg s d) | .MUL => some (.mulReg s d)
  | .DIV => some (.divReg s d) | _ => none
/-- The InsImmReg instruction of a mnemonic (30_encoding.md R125). -/
def buildImmReg (i : Word) (d : Reg) : Mnemonic → Option Instr
  | .MOV => some (.movImm i d) | .ADD => some (.addImm i d) | .SUB => some (.subImm i d)
  | .AND => some (.andImm i d) | .OR => some (.orImm i d) | .XOR => some (.xorImm i d) | .SHL => some (.shlImm i d)
  | .SHR => some (.shrImm i d) | .CMP => some (.cmpImm i d) | .MUL => some (.mulImm i d)
  | .DIV => some (.divImm i d) | _ => none
/-- The InsReg instruction of a mnemonic (30_encoding.md R125). -/
def buildReg (s : Reg) : Mnemonic → Option Instr
  | .NOT => some (.notReg s) | .CALL => some (.callReg s) | .PUSH => some (.pushReg s) | .POP => some (.popReg s)
  | .INT => some (.intReg s) | .SIVR => some (.sivrReg s) | _ => none
/-- The InsImm instruction of a mnemonic (30_encoding.md R125). -/
def buildImm (i : Word) : Mnemonic → Option Instr
  | .CALL => some (.callImm i) | .PUSH => some (.pushImm i) | .INT => some (.intImm i) | _ => none
/-- The InsFlagReg instruction of a mnemonic (30_encoding.md R125). -/
def buildFlagReg (m : FlagBits) (s : Reg) : Mnemonic → Option Instr
  | .JMP => some (.jmpReg m s) | .JMPR => some (.jmprReg m s) | .SFSTOR => some (.sfstorReg m s) | _ => none
/-- The InsFlagImm instruction of a mnemonic (30_encoding.md R125). -/
def buildFlagImm (m : FlagBits) (i : Word) : Mnemonic → Option Instr
  | .JMP => some (.jmpImm m i) | .JMPR => some (.jmprImm m i) | .SFSTOR => some (.sfstorImm m i) | _ => none
/-- The InsWidthRegReg instruction of a mnemonic (30_encoding.md R125). -/
def buildWidthRegReg (w : BitVec 4) (s : Reg) (d : Reg) : Mnemonic → Option Instr
  | .MEMR => some (.memrRegReg w s d) | .MEMW => some (.memwRegReg w s d) | _ => none
/-- The InsWidthImmReg instruction of a mnemonic (30_encoding.md R125). -/
def buildWidthImmReg (w : BitVec 4) (i : Word) (d : Reg) : Mnemonic → Option Instr
  | .MEMR => some (.memrImmReg w i d) | .MEMW => some (.memwImmReg w i d) | _ => none
/-- The InsWidthRegImm instruction of a mnemonic (30_encoding.md R125). -/
def buildWidthRegImm (w : BitVec 4) (s : Reg) (j : Word) : Mnemonic → Option Instr
  | .MEMW => some (.memwRegImm w s j) | _ => none
/-- The InsWidthImmImm instruction of a mnemonic (30_encoding.md R125). -/
def buildWidthImmImm (w : BitVec 4) (i : Word) (j : Word) : Mnemonic → Option Instr
  | .MEMW => some (.memwImmImm w i j) | _ => none
/-- The Ins instruction of a mnemonic (30_encoding.md R125). -/
def buildPlain : Mnemonic → Option Instr
  | .RET => some .ret | .HIRET => some .hiret | .ACTI => some .acti | .DACTI => some .dacti | .NOP => some .nop
  | _ => none

/-- The instruction of a form, a mnemonic and operands, `none` where R125 has no such variant or an operand of the form is
absent. -/
def build (f : Form) (m : Mnemonic) (o : Operands) : Option Instr :=
  match f with
  | .ins => buildPlain m
  | .insRegReg => do buildRegReg (← o.src) (← o.dst) m
  | .insImmReg => do buildImmReg (← o.srcImm) (← o.dst) m
  | .insReg => do buildReg (← o.src) m
  | .insImm => do buildImm (← o.srcImm) m
  | .insFlagReg => do buildFlagReg (← o.flags) (← o.src) m
  | .insFlagImm => do buildFlagImm (← o.flags) (← o.srcImm) m
  | .insWidthRegReg => do buildWidthRegReg (← o.width) (← o.src) (← o.dst) m
  | .insWidthImmReg => do buildWidthImmReg (← o.width) (← o.srcImm) (← o.dst) m
  | .insWidthRegImm => do buildWidthRegImm (← o.width) (← o.src) (← o.dstImm) m
  | .insWidthImmImm => do buildWidthImmImm (← o.width) (← o.srcImm) (← o.dstImm) m

/-- The instruction of a decoded record. -/
def Decoded.instr (d : Decoded) : Option Instr := build d.form d.mnemonic d.operands

/-! ## The codec as data (00_scope.md R7: FORM_TABLE and REG_ID) -/

/-- A form: "It has a 4-bit type code, a list of valid 4-bit opcodes, a map from field name to bit mask, and a total
length in bytes" (00_scope.md R14). -/
structure FormRow where
  form     : Form
  typeCode : Nat
  opcodes  : List Nat
  length   : Nat
  masks    : List (FieldName × Nat)
  deriving DecidableEq, Repr

/-- A row of the static table that gives the mnemonic of a (type code, opcode) pair (00_scope.md R14; 30_encoding.md
R114). -/
structure OpcodeRow where
  typeCode : Nat
  opcode   : Nat
  mnemonic : Mnemonic
  deriving DecidableEq, Repr

/-- The parameters of the codec: the form table and the mnemonic map of `FORM_TABLE` (92_eei_decisions.md D1) and the
register numbering `REG_ID` (D2), a list of the registers by id (10_state.md R21). -/
structure Codec where
  forms   : List FormRow
  opcodes : List OpcodeRow
  regIds  : List Reg
  deriving DecidableEq, Repr

/-- The id of a register (10_state.md R21). -/
def Codec.idOf (c : Codec) (r : Reg) : BitVec 4 := BitVec.ofNat 4 (c.regIds.idxOf r)

/-- The register a 4-bit field names: "Each of its 16 values names exactly one register" (30_encoding.md R118). -/
def Codec.regOf (c : Codec) (b : BitVec 4) : Reg := (c.regIds[b.toNat]?).getD .A

/-- Phase 1: the first form "whose type code is `typeCode` and whose opcode list contains `opcode`" (30_encoding.md R111).
The type code is the high nibble of the first byte and the opcode its low nibble (R110). -/
def Codec.formOf (c : Codec) (b0 : Byte) : Option FormRow :=
  c.forms.find? fun F => F.typeCode == b0.toNat / 16 && F.opcodes.contains (b0.toNat % 16)

/-- The mnemonic of a first byte, from its type code and opcode (30_encoding.md R114). -/
def Codec.mnemonicOf (c : Codec) (b0 : Byte) : Option Mnemonic :=
  (c.opcodes.find? fun r => r.typeCode == b0.toNat / 16 && r.opcode == b0.toNat % 16).map OpcodeRow.mnemonic

/-! ## Fields (30_encoding.md R113) -/

/-- The number of trailing zero bits of a mask, looking at no more than `fuel` bits (30_encoding.md R113). -/
def trailingZeros : Nat → Nat → Nat
  | 0, _ => 0
  | fuel + 1, m => if m % 2 = 1 then 0 else 1 + trailingZeros fuel (m / 2)

/-- The shift of a mask; no form is longer than 80 bits (30_encoding.md R113, R116). -/
def maskShift (m : Nat) : Nat := trailingZeros 80 m

/-- Field extraction by mask: shift the mask until its least-significant bit is 1, and AND the instruction word's same
right-shifted value against it (30_encoding.md R113). -/
def extractMask (m w : Nat) : Nat := (w >>> maskShift m) &&& (m >>> maskShift m)

/-- A field value in its mask's bits (30_encoding.md R117). -/
def placeMask (m v : Nat) : Nat := (v <<< maskShift m) &&& m

/-- The bits of a form's word that some field covers; the others are padding (30_encoding.md R113, R123). -/
def FormRow.fieldBits (F : FormRow) : Nat := F.masks.foldr (fun p acc => p.2 ||| acc) 0

/-- The mask of a field in a form, `none` where the form has no such field. -/
def FormRow.mask? (F : FormRow) (n : FieldName) : Option Nat := (F.masks.find? fun p => p.1 == n).map Prod.snd

/-- The value of a field in an instruction word, `none` where the form has no such field. -/
def FormRow.field? (F : FormRow) (n : FieldName) (w : Nat) : Option Nat := (F.mask? n).map fun m => extractMask m w

/-- "A form with a `width` field is legal only if `1 <= width <= 4`" (30_encoding.md R115). -/
def FormRow.widthLegal (F : FormRow) (w : Nat) : Bool :=
  match F.field? .width w with
  | some x => decide (1 ≤ x ∧ x ≤ 4)
  | none => true

/-- The operands of a word under a form: those the form has a field for (30_encoding.md R114, R118 to R121). -/
def Codec.operands (c : Codec) (F : FormRow) (w : Nat) : Operands where
  src := (F.field? .sourceRegister w).map fun x => c.regOf (BitVec.ofNat 4 x)
  dst := (F.field? .destinationRegister w).map fun x => c.regOf (BitVec.ofNat 4 x)
  srcImm := (F.field? .sourceImmediate w).map fun x => BitVec.ofNat 32 x
  dstImm := (F.field? .destinationImmediate w).map fun x => BitVec.ofNat 32 x
  width := (F.field? .width w).map fun x => BitVec.ofNat 4 x
  flags := (F.field? .flags w).map fun x => BitVec.ofNat 3 x

/-! ## Decode (30_encoding.md R110 to R116) -/

/-- Why a byte string is no instruction: the two decode errors of R111 and R115, and a string that ends before the
instruction does (which fetch turns into the fault of the first missing byte, 40_step_and_fetch.md R155). -/
inductive DecodeReject where
  | invalidInstruction (b0 : Byte)
  | malformedField (word : Nat)
  | tooShort (have_ need : Nat)
  deriving DecidableEq, Repr

/-- The record of a word of form `F` with first byte `b0`, `none` where the first byte has no mnemonic (30_encoding.md
R114). -/
def Codec.record (c : Codec) (F : FormRow) (b0 : Byte) (w : Nat) : Option Decoded :=
  (c.mnemonicOf b0).map fun m => ⟨b0, m, F.form, c.operands F w, F.length⟩

/-- Phase 2 on the assembled word `w` of form `F`: check the width field if the form has one, extract the fields, and
build the instruction of the record (30_encoding.md R113 to R115). Under a table that lists an opcode without an
instruction for it, which `Codec.Ok` rules out, the first byte is invalid. -/
def Codec.decodeWord (c : Codec) (F : FormRow) (b0 : Byte) (w : Nat) : Except DecodeReject Instr :=
  if F.widthLegal w then
    match (c.record F b0 w).bind Decoded.instr with
    | some i => .ok i
    | none => .error (.invalidInstruction b0)
  else .error (.malformedField w)

/-- Decode the instruction at the start of a byte string and give back the rest (30_encoding.md R110 to R116): the first
byte selects the form and with it the length; the bytes are joined big-endian into one word (R112). -/
def Codec.decode (c : Codec) : List Byte → Except DecodeReject (Instr × List Byte)
  | [] => .error (.tooShort 0 1)
  | b0 :: rest =>
    match c.formOf b0 with
    | none => .error (.invalidInstruction b0)
    | some F =>
      if rest.length + 1 < F.length then .error (.tooShort (rest.length + 1) F.length)
      else (c.decodeWord F b0 (beValue ((b0 :: rest).take F.length))).map fun i => (i, (b0 :: rest).drop F.length)

/-! ## Encode (30_encoding.md R117) -/

/-- The value of each field of an instruction with first byte `code` (30_encoding.md R118 to R121). -/
def Codec.fieldValue (c : Codec) (code : Nat) (o : Operands) : FieldName → Nat
  | .instructionCode => code
  | .sourceRegister => (o.src.map fun r => (c.idOf r).toNat).getD 0
  | .destinationRegister => (o.dst.map fun r => (c.idOf r).toNat).getD 0
  | .sourceImmediate => (o.srcImm.map BitVec.toNat).getD 0
  | .destinationImmediate => (o.dstImm.map BitVec.toNat).getD 0
  | .width => (o.width.map BitVec.toNat).getD 0
  | .flags => (o.flags.map BitVec.toNat).getD 0

/-- "Encoding writes each field value into its mask's bits and writes zero into every padding bit" (30_encoding.md R117). -/
def FormRow.place (F : FormRow) (v : FieldName → Nat) : Nat :=
  F.masks.foldr (fun p acc => placeMask p.2 (v p.1) ||| acc) 0

/-- The row of a form. -/
def Codec.rowOf (c : Codec) (f : Form) : Option FormRow := c.forms.find? fun F => F.form == f

/-- The first byte of an instruction whose form has the row `F`. -/
def Codec.codeOf (c : Codec) (F : FormRow) (m : Mnemonic) : Option Byte :=
  (F.opcodes.map fun o => BitVec.ofNat 8 (F.typeCode * 16 + o)).find? fun b => c.mnemonicOf b == some m

/-- The bytes of an instruction, `none` where the table has no encoding for it (30_encoding.md R117). -/
def Codec.encode (c : Codec) (i : Instr) : Option (List Byte) := do
  let F ← c.rowOf i.form
  let b0 ← c.codeOf F i.mnemonic
  pure (beBytes F.length (F.place (c.fieldValue b0.toNat i.operands)))

/-! ## What any table must meet (30_encoding.md R110 to R123) -/

/-- A row that lays out its operand shape: its length, one mask for each field, each mask one run of as many bits as the
field has, no two masks sharing a bit, and the first byte as the instruction code (30_encoding.md R113, R118 to R123). -/
structure FormRow.Ok (F : FormRow) : Prop where
  nibbles  : F.typeCode < 16 ∧ ∀ o ∈ F.opcodes, o < 16
  length   : F.length = F.form.length
  fields   : ∀ n, n ∈ F.masks.map Prod.fst ↔ n ∈ F.form.fields
  once     : (F.masks.map Prod.fst).Nodup
  runs     : ∀ p ∈ F.masks, p.2 = (2 ^ p.1.bits - 1) * 2 ^ maskShift p.2 ∧ p.2 < 256 ^ F.length
  disjoint : F.masks.Pairwise fun p q => p.2 &&& q.2 = 0
  code     : F.mask? .instructionCode = some (0xFF * 256 ^ (F.length - 1))

/-- A codec that encodes every instruction: one row for each form; every listed opcode selects its own row and names an
instruction of that form (30_encoding.md R111, R114, R122); every instruction has an opcode; each of the 16 ids names one
register (R118). -/
structure Codec.Ok (c : Codec) : Prop where
  forms     : ∀ F ∈ c.forms, F.Ok
  oneRow    : (c.forms.map FormRow.form).Nodup
  selects   : ∀ F ∈ c.forms, ∀ o ∈ F.opcodes, c.formOf (BitVec.ofNat 8 (F.typeCode * 16 + o)) = some F ∧
    ∃ i : Instr, c.mnemonicOf (BitVec.ofNat 8 (F.typeCode * 16 + o)) = some i.mnemonic ∧ F.form = i.form
  complete  : ∀ i : Instr, ∃ F ∈ c.forms, F.form = i.form ∧
    ∃ o ∈ F.opcodes, c.mnemonicOf (BitVec.ofNat 8 (F.typeCode * 16 + o)) = some i.mnemonic
  registers : c.regIds.length = 16 ∧ ∀ r : Reg, r ∈ c.regIds

/-! ## The reference table (30_encoding.md R122 to R125; 10_state.md R21) -/

/-- The form table: type codes and lengths of R122, masks of R123, opcode lists of R125 (92_eei_decisions.md D1). -/
def referenceForms : List FormRow := [
  ⟨.ins, 0xF, [0x0, 0x1, 0x2, 0x3, 0xF], 1, [(.instructionCode, 0xFF)]⟩,
  ⟨.insRegReg, 0x1, [0x0, 0x1, 0x2, 0x3, 0x4, 0x5, 0x6, 0x7, 0x8, 0x9, 0xA], 2,
    [(.instructionCode, 0xFF00), (.sourceRegister, 0x00F0), (.destinationRegister, 0x000F)]⟩,
  ⟨.insImmReg, 0x2, [0x0, 0x1, 0x2, 0x3, 0x4, 0x5, 0x6, 0x7, 0x8, 0x9, 0xA], 6,
    [(.instructionCode, 0xFF0000000000), (.sourceImmediate, 0x00FFFFFFFF00), (.destinationRegister, 0x00000000000F)]⟩,
  ⟨.insReg, 0x3, [0x0, 0x1, 0x2, 0x3, 0x4, 0x5], 2, [(.instructionCode, 0xFF00), (.sourceRegister, 0x000F)]⟩,
  ⟨.insImm, 0x4, [0x1, 0x2, 0x4], 5, [(.instructionCode, 0xFF00000000), (.sourceImmediate, 0x00FFFFFFFF)]⟩,
  ⟨.insFlagReg, 0x5, [0x0, 0x1, 0x2], 2, [(.instructionCode, 0xFF00), (.flags, 0x0070), (.sourceRegister, 0x000F)]⟩,
  ⟨.insFlagImm, 0x6, [0x0, 0x1, 0x2], 6,
    [(.instructionCode, 0xFF0000000000), (.flags, 0x000700000000), (.sourceImmediate, 0x0000FFFFFFFF)]⟩,
  ⟨.insWidthRegReg, 0x7, [0x0, 0x1], 3,
    [(.instructionCode, 0xFF0000), (.width, 0x000F00), (.sourceRegister, 0x0000F0), (.destinationRegister, 0x00000F)]⟩,
  ⟨.insWidthImmReg, 0x8, [0x0, 0x1], 6,
    [(.instructionCode, 0xFF0000000000), (.sourceImmediate, 0x00FFFFFFFF00), (.width, 0x0000000000F0),
     (.destinationRegister, 0x00000000000F)]⟩,
  ⟨.insWidthRegImm, 0x9, [0x1], 6,
    [(.instructionCode, 0xFF0000000000), (.width, 0x00F000000000), (.sourceRegister, 0x000F00000000),
     (.destinationImmediate, 0x0000FFFFFFFF)]⟩,
  ⟨.insWidthImmImm, 0xA, [0x1], 10,
    [(.instructionCode, 0xFF000000000000000000), (.width, 0x0F0000000000000000),
     (.sourceImmediate, 0xFFFFFFFF00000000), (.destinationImmediate, 0x00000000FFFFFFFF)]⟩]

/-- Rows 0x10 to 0x1A of R125. -/
def regRegRows : List OpcodeRow := [
  ⟨0x1, 0x0, .MOV⟩, ⟨0x1, 0x1, .ADD⟩, ⟨0x1, 0x2, .SUB⟩, ⟨0x1, 0x3, .AND⟩, ⟨0x1, 0x4, .OR⟩, ⟨0x1, 0x5, .XOR⟩
  , ⟨0x1, 0x6, .SHL⟩, ⟨0x1, 0x7, .SHR⟩, ⟨0x1, 0x8, .CMP⟩, ⟨0x1, 0x9, .MUL⟩, ⟨0x1, 0xA, .DIV⟩]

/-- Rows 0x20 to 0x2A of R125. -/
def immRegRows : List OpcodeRow := [
  ⟨0x2, 0x0, .MOV⟩, ⟨0x2, 0x1, .ADD⟩, ⟨0x2, 0x2, .SUB⟩, ⟨0x2, 0x3, .AND⟩, ⟨0x2, 0x4, .OR⟩, ⟨0x2, 0x5, .XOR⟩
  , ⟨0x2, 0x6, .SHL⟩, ⟨0x2, 0x7, .SHR⟩, ⟨0x2, 0x8, .CMP⟩, ⟨0x2, 0x9, .MUL⟩, ⟨0x2, 0xA, .DIV⟩]

/-- Rows 0x30 to 0x44 of R125. -/
def singleRows : List OpcodeRow := [
  ⟨0x3, 0x0, .NOT⟩, ⟨0x3, 0x1, .CALL⟩, ⟨0x3, 0x2, .PUSH⟩, ⟨0x3, 0x3, .POP⟩, ⟨0x3, 0x4, .INT⟩, ⟨0x3, 0x5, .SIVR⟩
  , ⟨0x4, 0x1, .CALL⟩, ⟨0x4, 0x2, .PUSH⟩, ⟨0x4, 0x4, .INT⟩]

/-- Rows 0x50 to 0x62 of R125. -/
def flagRows : List OpcodeRow := [
  ⟨0x5, 0x0, .JMP⟩, ⟨0x5, 0x1, .JMPR⟩, ⟨0x5, 0x2, .SFSTOR⟩, ⟨0x6, 0x0, .JMP⟩, ⟨0x6, 0x1, .JMPR⟩, ⟨0x6, 0x2, .SFSTOR⟩]

/-- Rows 0x70 to 0xA1 of R125. -/
def widthRows : List OpcodeRow := [
  ⟨0x7, 0x0, .MEMR⟩, ⟨0x7, 0x1, .MEMW⟩, ⟨0x8, 0x0, .MEMR⟩, ⟨0x8, 0x1, .MEMW⟩, ⟨0x9, 0x1, .MEMW⟩, ⟨0xA, 0x1, .MEMW⟩]

/-- Rows 0xF0 to 0xFF of R125. -/
def plainRows : List OpcodeRow := [
  ⟨0xF, 0x0, .RET⟩, ⟨0xF, 0x1, .HIRET⟩, ⟨0xF, 0x2, .ACTI⟩, ⟨0xF, 0x3, .DACTI⟩, ⟨0xF, 0xF, .NOP⟩]

/-- The reference codec: "the complete list of valid first bytes. Each first byte names one instruction variant"
(30_encoding.md R125), and the register ids of 10_state.md R21 (92_eei_decisions.md D2). -/
def Codec.reference : Codec where
  forms := referenceForms
  opcodes := regRegRows ++ immRegRows ++ singleRows ++ flagRows ++ widthRows ++ plainRows
  regIds := [.A, .B, .C, .D, .E, .F, .G, .S, .A2, .B2, .C2, .D2, .E2, .F2, .G2, .S2]

/-- The id of a register in the reference numbering (10_state.md R21). -/
def Reg.id : Reg → BitVec 4
  | .A => 0x0 | .B => 0x1 | .C => 0x2 | .D => 0x3 | .E => 0x4 | .F => 0x5 | .G => 0x6 | .S => 0x7
  | .A2 => 0x8 | .B2 => 0x9 | .C2 => 0xA | .D2 => 0xB | .E2 => 0xC | .F2 => 0xD | .G2 => 0xE | .S2 => 0xF

/-- Decoding under the reference codec. -/
def decode (bs : List Byte) : Except DecodeReject (Instr × List Byte) := Codec.reference.decode bs

/-! ## The byte strings of the reference table (30_encoding.md R124) -/

/-- One byte with `x` in the high nibble and `y` in the low nibble: `[x y]` of R124. -/
def nibbles (x y : BitVec 4) : Byte := x ++ y

/-- The four bytes of an immediate, `[i31..24] [i23..16] [i15..8] [i7..0]` of R124. -/
def immBytes (i : Word) : List Byte := [i.extractLsb' 24 8, i.extractLsb' 16 8, i.extractLsb' 8 8, i.extractLsb' 0 8]

/-- Ins: `[T O]` -/
def encIns (o : Byte) : List Byte := [o]
/-- InsRegReg: `[T O] [s d]` -/
def encRegReg (o : Byte) (s d : Reg) : List Byte := [o, nibbles s.id d.id]
/-- InsImmReg: `[T O] [i31..24] [i23..16] [i15..8] [i7..0] [0 d]` -/
def encImmReg (o : Byte) (i : Word) (d : Reg) : List Byte := o :: (immBytes i ++ [nibbles 0 d.id])
/-- InsReg: `[T O] [0 r]` -/
def encReg (o : Byte) (r : Reg) : List Byte := [o, nibbles 0 r.id]
/-- InsImm: `[T O] [i31..24] [i23..16] [i15..8] [i7..0]` -/
def encImm (o : Byte) (i : Word) : List Byte := o :: immBytes i
/-- InsFlagReg: `[T O] [0fff r]` -/
def encFlagReg (o : Byte) (m : FlagBits) (r : Reg) : List Byte := [o, nibbles (m.zeroExtend 4) r.id]
/-- InsFlagImm: `[T O] [00000fff] [i31..24] [i23..16] [i15..8] [i7..0]` -/
def encFlagImm (o : Byte) (m : FlagBits) (i : Word) : List Byte := o :: m.zeroExtend 8 :: immBytes i
/-- InsWidthRegReg: `[T O] [0 w] [s d]` -/
def encWidthRegReg (o : Byte) (w : BitVec 4) (s d : Reg) : List Byte := [o, nibbles 0 w, nibbles s.id d.id]
/-- InsWidthImmReg: `[T O] [i31..24] [i23..16] [i15..8] [i7..0] [w d]` -/
def encWidthImmReg (o : Byte) (w : BitVec 4) (i : Word) (d : Reg) : List Byte := o :: (immBytes i ++ [nibbles w d.id])
/-- InsWidthRegImm: `[T O] [w s] [j31..24] [j23..16] [j15..8] [j7..0]` -/
def encWidthRegImm (o : Byte) (w : BitVec 4) (s : Reg) (j : Word) : List Byte := o :: nibbles w s.id :: immBytes j
/-- InsWidthImmImm: `[T O] [0 w] [i31..24] .. [i7..0] [j31..24] .. [j7..0]` -/
def encWidthImmImm (o : Byte) (w : BitVec 4) (i j : Word) : List Byte := o :: nibbles 0 w :: (immBytes i ++ immBytes j)

/-- The bytes of an instruction under the reference table, padding bits zero (30_encoding.md R117, R124; first bytes of
R125). -/
def encode : Instr → List Byte
  | .movReg s d => encRegReg 0x10 s d
  | .addReg s d => encRegReg 0x11 s d
  | .subReg s d => encRegReg 0x12 s d
  | .andReg s d => encRegReg 0x13 s d
  | .orReg s d => encRegReg 0x14 s d
  | .xorReg s d => encRegReg 0x15 s d
  | .shlReg s d => encRegReg 0x16 s d
  | .shrReg s d => encRegReg 0x17 s d
  | .cmpReg s d => encRegReg 0x18 s d
  | .mulReg s d => encRegReg 0x19 s d
  | .divReg s d => encRegReg 0x1A s d
  | .movImm i d => encImmReg 0x20 i d
  | .addImm i d => encImmReg 0x21 i d
  | .subImm i d => encImmReg 0x22 i d
  | .andImm i d => encImmReg 0x23 i d
  | .orImm i d => encImmReg 0x24 i d
  | .xorImm i d => encImmReg 0x25 i d
  | .shlImm i d => encImmReg 0x26 i d
  | .shrImm i d => encImmReg 0x27 i d
  | .cmpImm i d => encImmReg 0x28 i d
  | .mulImm i d => encImmReg 0x29 i d
  | .divImm i d => encImmReg 0x2A i d
  | .notReg r => encReg 0x30 r
  | .callReg r => encReg 0x31 r
  | .pushReg r => encReg 0x32 r
  | .popReg r => encReg 0x33 r
  | .intReg r => encReg 0x34 r
  | .sivrReg r => encReg 0x35 r
  | .callImm i => encImm 0x41 i
  | .pushImm i => encImm 0x42 i
  | .intImm i => encImm 0x44 i
  | .jmpReg m r => encFlagReg 0x50 m r
  | .jmprReg m r => encFlagReg 0x51 m r
  | .sfstorReg m r => encFlagReg 0x52 m r
  | .jmpImm m i => encFlagImm 0x60 m i
  | .jmprImm m i => encFlagImm 0x61 m i
  | .sfstorImm m i => encFlagImm 0x62 m i
  | .memrRegReg w s d => encWidthRegReg 0x70 w s d
  | .memwRegReg w s d => encWidthRegReg 0x71 w s d
  | .memrImmReg w i d => encWidthImmReg 0x80 w i d
  | .memwImmReg w i d => encWidthImmReg 0x81 w i d
  | .memwRegImm w s j => encWidthRegImm 0x91 w s j
  | .memwImmImm w i j => encWidthImmImm 0xA1 w i j
  | .ret => encIns 0xF0
  | .hiret => encIns 0xF1
  | .acti => encIns 0xF2
  | .dacti => encIns 0xF3
  | .nop => encIns 0xFF

/-! ## The words of spec/opcode_table.json -/

/-- The longest instruction, in bytes (30_encoding.md R116). -/
def maxLength : Nat := 10

/-- The bytes of a word of spec/opcode_table.json in memory order, followed by zeros up to the longest instruction. The
table numbers an instruction as ONE big-endian word whose bit 0 is the last bit of its last byte (30_encoding.md R123),
so the first byte is the most significant of the `nbits` bits (log 15). -/
def tableBytes (nbits w : Nat) : List Byte :=
  beBytes (nbits / 8) w ++ List.replicate (maxLength - nbits / 8) 0

/-- The instruction the decoder reads from a word of spec/opcode_table.json, which is the reference table (30_encoding.md
R125). -/
def decodeTableWord (nbits w : Nat) : Option Instr :=
  match decode (tableBytes nbits w) with
  | .ok (i, _) => some i
  | .error _ => none

end Sys2Proof
end

