-- ==== Sys2Proof/Config.lean ====
section
/-! DEFINITION. The parameters a machine takes as arguments (00_scope.md R7), as data that State holds, at the spec's
defaults for State.reset; and the free values the spec leaves open. DEVICES is the field `devices` of State. -/

namespace Sys2Proof

/-- The parameter `DEVICE_BUFFER_SIZE(mask)` (93_implementation_defined.md item 8) as plain data: a rule that gives every mask
a number of bytes, read by `deviceBufferSize`. The spec names the first two readings; `listed` is any other function of
the mask, by its values where they differ from the default (log 1). -/
inductive BufferSizing where
  /-- the default `(~mask) & 0xFFFFFFFF` (20_memory.md R86; 92_eei_decisions.md D21) -/
  | complement
  /-- the other reading of "sized to the mask's complement", `~mask + 1` -/
  | complementPlusOne
  /-- the sizes of the listed masks, a mask as its number; the default for every other mask -/
  | listed (sizes : List (Nat × Nat))
  deriving DecidableEq, Repr

/-- The parameters of 00_scope.md R7 that the spec leaves to the machine (92_eei_decisions.md D1 to D3), the buffer size of 93_implementation_defined.md item 8, and the identity
this unit passes as the `source` of its writes (20_memory.md R81). `State.params` holds them, so every operation, `step`
and `exec` take them as an argument; nothing changes them. -/
structure Params where
  /-- `MEMORY_START`, the first address of the MemoryArray (D3) -/
  memoryStart : Nat
  /-- `MEMORY_END`, the first address past the MemoryArray (D3) -/
  memoryEnd   : Nat
  /-- `FORM_TABLE` (D1) and `REG_ID` (D2) -/
  codec       : Codec
  /-- `DEVICE_BUFFER_SIZE` (20_memory.md R86; 93_implementation_defined.md item 8; D21) -/
  bufferSizing : BufferSizing
  /-- "Instructions pass their unit's identity as `source`" (20_memory.md R81) -/
  unitTag     : String
  deriving DecidableEq, Repr

/-- The constraint of 00_scope.md R8, `MEMORY_START < MEMORY_END <= 2^32`, and a codec that encodes every instruction. -/
structure Params.Ok (p : Params) : Prop where
  start_lt_end : p.memoryStart < p.memoryEnd
  end_le       : p.memoryEnd ≤ 2 ^ 32
  codec        : p.codec.Ok

namespace Config

/-- The parameters of State.reset: the defaults of 00_scope.md R7 and 93_implementation_defined.md item 8 (92_eei_decisions.md D1, D2, D3,
D21; log 1). The identity of
the unit is a DESIGN CHOICE (log 9): the spec gives no string, and no instruction can read it. -/
def params : Params where
  memoryStart := 0x40000000
  memoryEnd := 0x40100000
  codec := Codec.reference
  bufferSizing := .complement
  unitTag := "cpu0"

/-- The entry address of State.reset: `reset(I0)` takes it as an argument and there is no fixed reset vector
(70_reset_and_hazards.md R343). DESIGN CHOICE (log 2): the address of 95_test_vectors.md section 0. -/
def resetEntry : Word := 0x40000000

/-- FREE VALUE (log 7): the contents, when it is registered, of the byte at an offset of the buffer of a device with a
given start address and mask. The spec gives no initial buffer contents (91_not_in_source.md, 20_memory.md;
93_implementation_defined.md item 5: "The model must not fix it"). -/
opaque deviceInitialByte : Word → Word → Nat → Byte

/-- FREE VALUE (log 9): the last-writer tag of the cell at an address that nothing has written or toggled. A tag "is a
string" (20_memory.md R62); the spec does not say which one a cell holds when it is built. -/
opaque initialTag : Nat → String

end Config

end Sys2Proof
end

