-- ==== Sys2Proof/Machine/State.lean ====
section
/-! DEFINITION. The state of one execution unit and of the bus it shares (10_state.md R20), as plain data; the reasons
a step can stop; and the state after reset. -/

namespace Sys2Proof.Machine

/-- The 16 general registers of 32 bits (10_state.md R21, R22). -/
structure Regs where
  a  : Word
  b  : Word
  c  : Word
  d  : Word
  e  : Word
  f  : Word
  g  : Word
  s  : Word
  a2 : Word
  b2 : Word
  c2 : Word
  d2 : Word
  e2 : Word
  f2 : Word
  g2 : Word
  s2 : Word
  deriving DecidableEq, Repr

/-- The kind of access a permission bit of a cell gates (20_memory.md R62). -/
inductive Access where
  | read | write | execute
  deriving DecidableEq, Repr

/-- The three permission bits of a MemoryCell (20_memory.md R62). -/
structure Perms where
  r : Bool
  w : Bool
  x : Bool
  deriving DecidableEq, Repr

/-- "A cell starts with value 0 and R = W = X = 1" (20_memory.md R64). -/
def Perms.default : Perms := ⟨true, true, true⟩

/-- What the TLB holds for a virtual page: the physical page base and the raw 16-bit entry (20_memory.md R74). -/
structure TlbEntry where
  base  : Word
  entry : BitVec 16
  deriving DecidableEq, Repr

/-- A memory-mapped device (20_memory.md R86). `buffer` lists the bytes that something has stored, by offset, in rising
order; a byte not listed reads as the free value `Config.deviceInitialByte` (log 7). -/
structure Device where
  start  : Word
  mask   : Word
  irq    : Option Word
  buffer : List (Nat × Byte)
  deriving DecidableEq, Repr

/-- One act of an agent other than this unit: a device, another unit or the host (20_memory.md R88, 60_exceptions.md
R332). An act that would fault in the agent that does it changes nothing here (log 20). -/
inductive AgentAct where
  /-- a bus write of another agent (R81, R88) -/
  | busWrite (addr len value : Nat) (source : String)
  /-- a toggle of one permission bit of one cell (R63, R88) -/
  | toggle (bit : Access) (addr : Nat) (actor : String)
  /-- `tlbFlush` (R75, R88) -/
  | flush
  /-- `signalHardwareInterrupt(v)` on this unit (60_exceptions.md R310) -/
  | signal (v : Word)
  /-- the same by the device at a position of the device list, with its own interrupt source number (R89) -/
  | deviceSignal (position : Nat)
  /-- the device at a position of the list changes one byte of its own buffer (R88) -/
  | deviceStore (position offset : Nat) (b : Byte)
  /-- another unit's fetch needs the entry of a virtual address under its own VMR: lookup, table read and fill of the
  shared TLB with nothing between them (R76; log 25) -/
  | tableWalk (vmr : Word) (va : Nat)
  /-- another unit, having read an entry of its table at some earlier time, fills the shared TLB with it now, whatever the
  TLB holds for the page by then (R73, R76, R102; log 25) -/
  | tlbFill (va : Nat) (entry : BitVec 16)
  deriving DecidableEq, Repr

/-- Memory values: (address, byte) pairs (log 10). -/
abbrev Memory := List Host.Cell

/-- The canonical form of a memory: addresses strictly rising, and no entry equal to 0, which an unlisted address reads
as (20_memory.md R64). -/
abbrev Memory.wf (m : Memory) : Prop :=
  m.Pairwise (fun x y => x.1 < y.1) ∧ ∀ c ∈ m, c.2 ≠ 0

/-- The state of the unit and of its bus. Fields up to `priv` are the unit's own, those from `mem` to `devices` the
shared ones (10_state.md R20). `params` and `agenda` are the model's own: the machine's parameters, which nothing changes
(00_scope.md R7; log 1), and what other agents will do, as data (log 3). -/
structure State where
  /-- the parameters the machine takes as arguments (00_scope.md R7) -/
  params  : Params
  /-- the general registers (10_state.md R21) -/
  regs    : Regs
  /-- I, the instruction pointer (R26) -/
  pc      : Word
  /-- FLAGS (R28) -/
  flags   : FlagBits
  /-- IE (R31) -/
  ie      : Bool
  /-- PEND (R33) -/
  pend    : Option Word
  /-- IVR (R34) -/
  ivr     : Word
  /-- VMR (R35) -/
  vmr     : Word
  /-- PRIV (R36) -/
  priv    : Bool
  /-- the values of the memory cells (20_memory.md R62); an unlisted cell holds 0 (R64) -/
  mem     : Memory
  /-- the permission bits of the memory cells (R62); an unlisted cell has R = W = X = 1 (R64) -/
  perms   : List (Nat × Perms)
  /-- the last-writer tags of the memory cells (R62); an unlisted cell holds the free value
  `Config.initialTag` (log 9) -/
  tags    : List (Nat × String)
  /-- the TLB by virtual page number (R74) -/
  tlb     : List (Nat × TlbEntry)
  /-- the device list in registration order (R86) -/
  devices : List Device
  /-- the acts of other agents still to come: the list at the head lands at the next landing point (log 3) -/
  agenda  : List (List AgentAct)
  deriving DecidableEq, Repr

/-- The argument an `InitError` records. The spec says only "argument" (60_exceptions.md R301, code 10); that it is the
whole argument of the call, a device with its mask and not its start address alone, is the model's reading (log 19). -/
inductive InitArgument where
  /-- the address given to `setupCore`, which R342 names: `raise InitError(I0)` -/
  | address (i0 : Nat)
  /-- the device record given to `registerDevice` (log 19) -/
  | device (d : Device)
  /-- a unit built without its collaborator has no argument to record (log 19) -/
  | noCollaborator
  deriving DecidableEq, Repr

/-- The faults of 60_exceptions.md R301, each with the information R301 records and the state it leaves behind: "Every
state change made before the fault point stays in place" (R300). A fault ends the unit's run, as the spec says; all of
them are safe. -/
inductive Fault where
  /-- code 1, raised by fetch: "the first byte matches no form" (30_encoding.md R111, R127). Safe. -/
  | decodeInvalid (addr : Nat) (b0 : Byte) (left : State)
  /-- code 2, raised by fetch: width field outside 1..4 (30_encoding.md R115). Safe. -/
  | decodeMalformed (addr word : Nat) (left : State)
  /-- code 3, raised by bus reads and writes, by fetch and by the table walk (20_memory.md R65, R80, R84, R87;
  40_step_and_fetch.md R152, R153). Safe. -/
  | bounds (addr len : Nat) (left : State)
  /-- code 4, raised by bus accesses and fetch: the cell's bit for the access is 0 (20_memory.md R62). Safe. -/
  | permission (addr : Nat) (kind : Access) (left : State)
  /-- code 5, raised by the translation check of fetch: E = 0 (20_memory.md R72). Safe. -/
  | noExecute (va : Nat) (left : State)
  /-- code 6, raised by the translation check of fetch: A = 0 (20_memory.md R72). Safe. -/
  | pageNotAvailable (va : Nat) (left : State)
  /-- code 7, raised by the translation check of fetch: P = 1 and PRIV = 0 (20_memory.md R72). Safe. -/
  | accessDenied (va : Nat) (left : State)
  /-- code 8, raised by bus writes: the value does not fit, or the length is outside 1..4 (20_memory.md R81, R82). Safe. -/
  | overflow (value len : Nat) (left : State)
  /-- code 9, raised by DIV with divisor 0 (41_alu.md R192). Safe. -/
  | arithmetic (left : State)
  /-- code 10, raised by the host ports `setupCore`, `registerDevice` and the construction of a unit, never by a step
  (70_reset_and_hazards.md R342, 20_memory.md R86). Safe. -/
  | init (arg : InitArgument) (left : State)
  deriving DecidableEq, Repr

/-- Why the model has no meaning for an instruction. -/
inductive Refusal where
  /-- raised by `exec` alone, for an instruction without a meaning; no arm does so any more. Safe. -/
  | notModelled (mnemonic : String)
  deriving DecidableEq, Repr

/-- Every general register 0. -/
def Regs.zero : Regs := ⟨0, 0, 0, 0, 0, 0, 0, 0, 0, 0, 0, 0, 0, 0, 0, 0⟩

/-- A newly built unit on a newly built bus with given parameters (70_reset_and_hazards.md R341, R344; 20_memory.md R64):
all registers 0, I = 0, PEND none, every cell 0 with R = W = X = 1, no device. The TLB is empty: DESIGN CHOICE (log 24), for
no rule says what a newly built TLB holds; the set-up of 95_test_vectors.md section 0 has it empty. -/
def State.constructed (p : Params) : State where
  params := p
  regs := Regs.zero
  pc := 0
  flags := 0
  ie := false
  pend := none
  ivr := 0
  vmr := 0
  priv := false
  mem := []
  perms := []
  tags := []
  tlb := []
  devices := []
  agenda := []

/-- The machine right after `reset(I0)` on a newly built bus (70_reset_and_hazards.md R340, R343), with the entry address
and the parameters of Config (log 1, log 2). -/
def State.reset : State := { State.constructed Config.params with pc := Config.resetEntry }

end Sys2Proof.Machine
end

