-- ==== Sys2Proof/Machine/Flags.lean ====
section
/-! DEFINITION. The FLAGS values: the comparison code (41_alu.md R190) and the condition test (42_control.md R214). -/

namespace Sys2Proof.Machine

/-- Z, bit 2 of FLAGS (10_state.md R28). -/
def flagZ : FlagBits := 0b100
/-- L, bit 1 of FLAGS (10_state.md R28). -/
def flagL : FlagBits := 0b010
/-- H, bit 0 of FLAGS (10_state.md R28). -/
def flagH : FlagBits := 0b001

/-- The comparison code of `source - destination`, "exact integer, not truncated; both operands unsigned 32-bit"
(41_alu.md R190; 90_conflicts.md C1). CMP and SFSTOR return it. -/
def compareCode (src dst : Word) : FlagBits :=
  let diff : Int := (src.toNat : Int) - (dst.toNat : Int)
  if diff = 0 then flagZ else if diff < 0 then flagL else flagH

/-- `Cond(mask, flags) = ((mask & flags) > 0) or (mask == flags)` (42_control.md R214). -/
def condHolds (mask flags : FlagBits) : Bool := decide (0 < (mask &&& flags).toNat) || mask == flags

end Sys2Proof.Machine
end

