-- ==== Sys2Proof/Machine/Ops.lean ====
section
/-! DEFINITION. The named operations over registers, memory cells, devices, the TLB and the bus (10_state.md,
20_memory.md), the acts of other agents, the stack, and taking and leaving an interrupt (60_exceptions.md R311, R315,
R316). Every read or write of a register goes through `State.reg` and `State.setReg`, and every bus transaction through
`memRead`, `memWrite` or `fetchByte`. -/

namespace Sys2Proof.Machine

/-! ## Tables: lists of (key, value) pairs with rising keys -/

/-- The value a table lists for a key. -/
def tableFind {β : Type} (k : Nat) : List (Nat × β) → Option β
  | [] => none
  | (j, v) :: rest => if j = k then some v else tableFind k rest

/-- List a value for a key, in its place among rising keys. -/
def tablePut {β : Type} (k : Nat) (v : β) : List (Nat × β) → List (Nat × β)
  | [] => [(k, v)]
  | (j, u) :: rest =>
    if k < j then (k, v) :: (j, u) :: rest
    else if k = j then (k, v) :: rest
    else (j, u) :: tablePut k v rest

/-- List nothing for a key. -/
def tableDel {β : Type} (k : Nat) (t : List (Nat × β)) : List (Nat × β) := t.filter fun p => p.1 != k

/-- Give a key a value in a table whose unlisted keys read as `dflt`: that value is never listed. -/
def tableSet {β : Type} [DecidableEq β] (dflt : β) (k : Nat) (v : β) (t : List (Nat × β)) : List (Nat × β) :=
  if v = dflt then tableDel k t else tablePut k v t

/-! ## Registers (00_scope.md R10, 10_state.md R21, R22) -/

/-- The register with a given name. -/
def Regs.get (rs : Regs) : Reg → Word
  | .A => rs.a | .B => rs.b | .C => rs.c | .D => rs.d | .E => rs.e | .F => rs.f | .G => rs.g | .S => rs.s
  | .A2 => rs.a2 | .B2 => rs.b2 | .C2 => rs.c2 | .D2 => rs.d2 | .E2 => rs.e2 | .F2 => rs.f2 | .G2 => rs.g2
  | .S2 => rs.s2

/-- Write the register with a given name; no register is hardwired (10_state.md R22). -/
def Regs.put (rs : Regs) (r : Reg) (v : Word) : Regs :=
  match r with
  | .A => { rs with a := v } | .B => { rs with b := v } | .C => { rs with c := v } | .D => { rs with d := v }
  | .E => { rs with e := v } | .F => { rs with f := v } | .G => { rs with g := v } | .S => { rs with s := v }
  | .A2 => { rs with a2 := v } | .B2 => { rs with b2 := v } | .C2 => { rs with c2 := v } | .D2 => { rs with d2 := v }
  | .E2 => { rs with e2 := v } | .F2 => { rs with f2 := v } | .G2 => { rs with g2 := v } | .S2 => { rs with s2 := v }

/-- `x[r]` (00_scope.md R10). -/
def State.reg (s : State) (r : Reg) : Word := s.regs.get r

/-- `x[r] <- v` (00_scope.md R10). -/
def State.setReg (s : State) (r : Reg) (v : Word) : State := { s with regs := s.regs.put r v }

/-- Write the field `params`; no operation of the machine uses it (log 1). -/
def State.setParams (s : State) (v : Params) : State := { s with params := v }
/-- Write the field `pc`. -/
def State.setPc (s : State) (v : Word) : State := { s with pc := v }
/-- Write the field `flags`. -/
def State.setFlags (s : State) (v : FlagBits) : State := { s with flags := v }
/-- Write the field `ie`. -/
def State.setIe (s : State) (v : Bool) : State := { s with ie := v }
/-- Write the field `pend`. -/
def State.setPend (s : State) (v : Option Word) : State := { s with pend := v }
/-- Write the field `ivr`. -/
def State.setIvr (s : State) (v : Word) : State := { s with ivr := v }
/-- Write the field `vmr`. -/
def State.setVmr (s : State) (v : Word) : State := { s with vmr := v }
/-- Write the field `priv`. -/
def State.setPriv (s : State) (v : Bool) : State := { s with priv := v }
/-- Write the field `mem`. -/
def State.setMem (s : State) (v : Memory) : State := { s with mem := v }
/-- Write the field `perms`. -/
def State.setPerms (s : State) (v : List (Nat × Perms)) : State := { s with perms := v }
/-- Write the field `tags`. -/
def State.setTags (s : State) (v : List (Nat × String)) : State := { s with tags := v }
/-- Write the field `tlb`. -/
def State.setTlb (s : State) (v : List (Nat × TlbEntry)) : State := { s with tlb := v }
/-- Write the field `devices`. -/
def State.setDevices (s : State) (v : List Device) : State := { s with devices := v }
/-- Write the field `agenda`. -/
def State.setAgenda (s : State) (v : List (List AgentAct)) : State := { s with agenda := v }


/-! ## Memory cells (20_memory.md R62 to R65) -/

/-- `MEMORY_START <= a < MEMORY_END`: the address has a cell (20_memory.md R60, R65). -/
def State.inArray (s : State) (a : Nat) : Bool := decide (s.params.memoryStart ≤ a ∧ a < s.params.memoryEnd)

/-- The range check of an array access (20_memory.md R65). -/
def State.arrayRangeOk (s : State) (a n : Nat) : Bool :=
  decide (s.params.memoryStart ≤ a ∧ 0 < n ∧ a + n ≤ s.params.memoryEnd)

/-- The value of a cell; a cell nothing has written holds 0 (20_memory.md R64). -/
def State.byteAt (s : State) (a : Nat) : Byte := (tableFind a s.mem).getD 0

/-- Give a cell a value. -/
def State.setByte (s : State) (a : Nat) (b : Byte) : State := s.setMem (tableSet (0 : Byte) a b s.mem)

/-- The permission bits of a cell; R = W = X = 1 until something toggles one (20_memory.md R64). -/
def State.permsAt (s : State) (a : Nat) : Perms := (tableFind a s.perms).getD Perms.default

/-- The last-writer tag of a cell, "which is a string" (20_memory.md R62); that of a cell nothing has written or toggled is
a free value (log 9). -/
def State.tagAt (s : State) (a : Nat) : String := (tableFind a s.tags).getD (Config.initialTag a)

/-- Record the last writer of a cell (20_memory.md R63, R81). -/
def State.setTag (s : State) (a : Nat) (source : String) : State := s.setTags (tablePut a source s.tags)

/-- The bit of a cell that gates a kind of access (20_memory.md R62). -/
def Perms.allows (p : Perms) : Access → Bool
  | .read => p.r
  | .write => p.w
  | .execute => p.x

/-- The permission bits with one bit flipped (20_memory.md R63). -/
def Perms.flip (p : Perms) : Access → Perms
  | .read => { p with r := !p.r }
  | .write => { p with w := !p.w }
  | .execute => { p with x := !p.x }

/-- Flip one permission bit of one cell and record the actor (20_memory.md R63). -/
def State.toggle (s : State) (bit : Access) (a : Nat) (actor : String) : State :=
  (s.setPerms (tableSet Perms.default a ((s.permsAt a).flip bit) s.perms)).setTag a actor

/-- The lowest of the `n` addresses from `a` whose cell denies an access: permissions are checked "in ascending address
order" (20_memory.md R85). -/
def State.firstDenied (s : State) (kind : Access) : Nat → Nat → Option Nat
  | _, 0 => none
  | a, n + 1 => if (s.permsAt a).allows kind then s.firstDenied kind (a + 1) n else some a

/-- The values of the `n` cells from `a`, lowest address first. -/
def State.bytesAt (s : State) : Nat → Nat → List Byte
  | _, 0 => []
  | a, n + 1 => s.byteAt a :: s.bytesAt (a + 1) n

/-- Give the cells from `a` the values of a byte string and record the writer of each (20_memory.md R81). -/
def State.storeBytes (s : State) (source : String) : Nat → List Byte → State
  | _, [] => s
  | a, b :: rest => State.storeBytes ((s.setByte a b).setTag a source) source (a + 1) rest

/-! ## Devices (20_memory.md R83, R86, R87) -/

/-- `DEVICE_BUFFER_SIZE(mask)`, the number of bytes of a device's buffer, by default `(~mask) & 0xFFFFFFFF` (20_memory.md
R86; 93_implementation_defined.md item 8; 92_eei_decisions.md D21). -/
def deviceBufferSize (b : BufferSizing) (mask : Word) : Nat :=
  match b with
  | .complement => (~~~mask).toNat
  | .complementPlusOne => (~~~mask).toNat + 1
  | .listed sizes => (tableFind mask.toNat sizes).getD (~~~mask).toNat

/-- `(address & mask) == startAddress` (20_memory.md R83). -/
def Device.claims (d : Device) (a : Nat) : Bool := (a &&& d.mask.toNat) == d.start.toNat

/-- "the first registered device whose `(address & mask) == startAddress`" (20_memory.md R83). -/
def routeDevice (ds : List Device) (a : Nat) : Option Device := ds.find? fun d => d.claims a

/-- Change the device an address is routed to, and no other. -/
def updateRouted (f : Device → Device) (a : Nat) : List Device → List Device
  | [] => []
  | d :: rest => if d.claims a then f d :: rest else d :: updateRouted f a rest

/-- The device's own bounds check, `0 < length <= 4 and offset + length <= bufferSize` (20_memory.md R87). -/
def Device.accepts (b : BufferSizing) (d : Device) (a n : Nat) : Bool :=
  decide (0 < n ∧ n ≤ 4 ∧ (a - d.start.toNat) + n ≤ deviceBufferSize b d.mask)

/-- A byte of a device's buffer; a byte nothing has stored is a free value (20_memory.md R87; log 7). -/
def Device.byteAt (d : Device) (offset : Nat) : Byte :=
  (tableFind offset d.buffer).getD (Config.deviceInitialByte d.start d.mask offset)

/-- The `n` buffer bytes from an offset. -/
def Device.bytesAt (d : Device) : Nat → Nat → List Byte
  | _, 0 => []
  | offset, n + 1 => d.byteAt offset :: d.bytesAt (offset + 1) n

/-- Store a byte string in a device's buffer from an offset (20_memory.md R87). -/
def Device.store (d : Device) : Nat → List Byte → Device
  | _, [] => d
  | offset, b :: rest => Device.store { d with buffer := tablePut offset b d.buffer } (offset + 1) rest

/-- The byte of memory or of a device buffer at a bus address, `none` where no byte exists: what one byte of the address
space holds, whatever its permission bits (20_memory.md R60). -/
def State.readByte (s : State) (a : Nat) : Option Byte :=
  if a < s.params.memoryStart then
    match routeDevice s.devices a with
    | some d =>
      if a - d.start.toNat < deviceBufferSize s.params.bufferSizing d.mask then some (d.byteAt (a - d.start.toNat)) else none
    | none => none
  else if a < s.params.memoryEnd then some (s.byteAt a) else none

/-! ## Bus transactions (20_memory.md R80 to R85) -/

/-- `BusRead(address, length)` (20_memory.md R80): length, routing, range, permissions, in that order (R85); the value is
the big-endian reading of the bytes. A read changes nothing (R104). -/
def busRead (s : State) (a n : Nat) : Except Fault Nat :=
  if ¬(1 ≤ n ∧ n ≤ 4) then .error (.bounds a n s)
  else if a < s.params.memoryStart then
    match routeDevice s.devices a with
    | none => .error (.bounds a n s)
    | some d => if d.accepts s.params.bufferSizing a n then .ok (beValue (d.bytesAt (a - d.start.toNat) n)) else .error (.bounds a n s)
  else if s.arrayRangeOk a n then
    match s.firstDenied .read a n with
    | some p => .error (.permission p .read s)
    | none => .ok (beValue (s.bytesAt a n))
  else .error (.bounds a n s)

/-- `BusWrite(address, length, value, source)` (20_memory.md R81): overflow, routing, range, permissions, in that order
(R85); "A write either changes every byte or faults before changing any". The write hook of a device is an act of
another agent (R88; log 18). -/
def busWrite (s : State) (a n v : Nat) (source : String) : Except Fault State :=
  if ¬(1 ≤ n ∧ n ≤ 4) ∨ 2 ^ (8 * n) ≤ v then .error (.overflow v n s)
  else if a < s.params.memoryStart then
    match routeDevice s.devices a with
    | none => .error (.bounds a n s)
    | some d =>
      if d.accepts s.params.bufferSizing a n then
        .ok (s.setDevices (updateRouted (fun d => d.store (a - d.start.toNat) (beBytes n v)) a s.devices))
      else .error (.bounds a n s)
  else if s.arrayRangeOk a n then
    match s.firstDenied .write a n with
    | some p => .error (.permission p .write s)
    | none => .ok (s.storeBytes source a (beBytes n v))
  else .error (.bounds a n s)

/-! ## The TLB (20_memory.md R70, R73 to R76) -/

/-- The virtual page number of a virtual address (20_memory.md R70). -/
def virtualPage (va : Nat) : Nat := va / 2 ^ 19

/-- The physical page base of a translation-table entry, `(e & 0x1FFF) << 19` (20_memory.md R71, R73). -/
def physicalBase (e : BitVec 16) : Word := (e &&& 0x1FFF).zeroExtend 32 <<< 19

/-- Fill the TLB for the page of a virtual address (20_memory.md R73, R76). -/
def State.fillTlb (s : State) (va : Nat) (e : BitVec 16) : State :=
  s.setTlb (tablePut (virtualPage va) ⟨physicalBase e, e⟩ s.tlb)

/-- `translationCacheLookup(va)` (20_memory.md R74). -/
def State.tlbLookup (s : State) (va : Nat) : Option TlbEntry := tableFind (virtualPage va) s.tlb

/-- The address of the entry of a virtual address in the table at `vmr`, exact (20_memory.md R76; 92_eei_decisions.md
D22). -/
def tableEntryAddress (vmr : Word) (va : Nat) : Nat := vmr.toNat + virtualPage va * 2

/-! ## The acts of other agents (20_memory.md R88, R89, R100, R102; 60_exceptions.md R310, R332) -/

/-- The effect of `signalHardwareInterrupt(v)` on the unit: the slot is filled "if IE == 1 and PEND == none"
(60_exceptions.md R310). -/
def State.signal (s : State) (v : Word) : State :=
  if s.ie && s.pend.isNone then s.setPend (some v) else s

/-- One act of another agent. An act that faults in that agent changes nothing (log 20). Whether another unit's TLB lookup,
table read and fill can be separated, the spec does not say; the model allows both, DESIGN CHOICE (log 25): `tableWalk` is
the three together and fills only a page the TLB does not hold, `tlbFill` is a fill on its own, of an entry read earlier. -/
def act (s : State) : AgentAct → State
  | .busWrite a n v source => match busWrite s a n v source with
    | .ok t => t
    | .error _ => s
  | .toggle bit a actor => if s.inArray a then s.toggle bit a actor else s
  | .flush => s.setTlb []
  | .signal v => s.signal v
  | .deviceSignal k => match s.devices[k]?.bind Device.irq with
    | some v => s.signal v
    | none => s
  | .deviceStore k offset b =>
    s.setDevices (s.devices.modify k fun d =>
      if offset < deviceBufferSize s.params.bufferSizing d.mask then d.store offset [b] else d)
  | .tableWalk vmr va =>
    if va < 2 ^ 32 ∧ (s.tlbLookup va).isNone then
      match busRead s (tableEntryAddress vmr va) 2 with
      | .ok e => s.fillTlb va (BitVec.ofNat 16 e)
      | .error _ => s
    else s
  | .tlbFill va e => if va < 2 ^ 32 then s.fillTlb va e else s

/-- A landing point: the acts at the head of the agenda happen here, in order. Landing points stand before every bus
transaction, around every TLB access and before the interrupt check, so that any interleaving of the transactions of
this unit with those of other agents is the run of some agenda (20_memory.md R100, R102; log 3, log 13). -/
def land (s : State) : State :=
  match s.agenda with
  | [] => s
  | acts :: rest => acts.foldl act (s.setAgenda rest)

/-- No other agent acts. -/
abbrev State.Quiet (s : State) : Prop := s.agenda = []

/-! ## The unit's own transactions (00_scope.md R11) -/

/-- `MemRead(addr, n)`: one data read of the unit (00_scope.md R11, 20_memory.md R77, R80). -/
def memRead (s : State) (a n : Nat) : Except Fault (Nat × State) := do
  let v ← busRead (land s) a n
  pure (v, land s)

/-- `MemWrite(addr, n, v)`: one data write of the unit, with its own identity as the source (00_scope.md R11,
20_memory.md R77, R81). -/
def memWrite (s : State) (a n v : Nat) : Except Fault State := busWrite (land s) a n v s.params.unitTag

/-- `FetchByte(p)`: one fetch transaction; it reads only the MemoryArray and checks the X bit
(40_step_and_fetch.md R153). -/
def fetchByte (s : State) (p : Nat) : Except Fault (Byte × State) :=
  let s := land s
  if ¬s.inArray p then .error (.bounds p 1 s)
  else if ¬(s.permsAt p).x then .error (.permission p .execute s)
  else .ok (s.byteAt p, s)

/-! ## The stack (10_state.md R24) -/

/-- "a push adds 4 to S and then writes at the new S" (10_state.md R24; 42_control.md R210, R212): S has been
incremented when the write faults. -/
def push (s : State) (v : Word) : Except Fault State :=
  let s := s.setReg .S (s.reg .S + 4)
  memWrite s (s.reg .S).toNat 4 v.toNat

/-- `x[r] <- MemRead(x[S], 4); x[S] <- x[S] - 4`, the decrement reading S after the write (42_control.md R213). -/
def popInto (s : State) (r : Reg) : Except Fault State := do
  let (v, s) ← memRead s (s.reg .S).toNat 4
  let s := s.setReg r (BitVec.ofNat 32 v)
  pure (s.setReg .S (s.reg .S - 4))

/-- Push the already-advanced I and jump (42_control.md R210). -/
def callTo (s : State) (target : Word) : Except Fault State := do
  let s ← push s s.pc
  pure (s.setPc target)

/-! ## Taking and leaving an interrupt -/

/-- The address of entry `v` of the vector table, `IVR + 4*v`, exact (43_system.md R230). -/
def vectorAddress (s : State) (v : Word) : Nat := s.ivr.toNat + 4 * v.toNat

/-- The body of INT once it is taken (43_system.md R231): a hardware-sourced one pushes FLAGS first; then the handler
address is read from the vector table and called. -/
def enterHandler (hardware : Bool) (v : Word) (s : State) : Except Fault State := do
  let s ← if hardware then push s (s.flags.zeroExtend 32) else pure s
  let (h, s) ← memRead s (vectorAddress s v) 4
  callTo s (BitVec.ofNat 32 h)

/-- Taking a hardware interrupt (60_exceptions.md R311, R315): IE <- 0, FLAGS and then I are pushed, I <- the handler's
address, FLAGS <- 0, PEND <- none. If the synthesised INT faults, IE is 0 and PEND still holds the vector. -/
def takeHardwareInterrupt (v : Word) (s : State) : Except Fault State := do
  let s ← enterHandler true v (s.setIe false)
  pure ((s.setFlags 0).setPend none)

/-- `InterruptCheck()` (60_exceptions.md R311), after a landing point (70_reset_and_hazards.md R354: a signal may land
between HIRET and the check of its own step). -/
def interruptCheck (s : State) : Except Fault State :=
  let s := land s
  match s.pend with
  | some v => if s.ie then takeHardwareInterrupt v s else .ok s
  | none => .ok s

/-- Returning from a hardware interrupt (43_system.md R233, 60_exceptions.md R316): pop I and FLAGS through A, restore A,
and set IE last. The FLAGS value is written here and returned for the commit, which writes it again. -/
def returnFromInterrupt (s : State) : Except Fault (State × FlagBits) := do
  let a0 := s.reg .A
  let s ← popInto s .A
  let ret := s.reg .A
  let s ← popInto s .A
  let fl : FlagBits := (s.reg .A).setWidth 3
  let s := s.setReg .A a0
  let s := s.setPc ret
  let s := s.setFlags fl
  pure (s.setIe true, fl)

/-! ## Ending an instruction -/

/-- The end of an instruction: "Each instruction's rule returns a 3-bit value, and the step writes it into FLAGS once the
rule's other effects are done"; "If the rule faults, nothing is committed" (40_step_and_fetch.md R157). -/
def commit (r : Except Fault (State × FlagBits)) : Host.Outcome State Fault Refusal :=
  match r with
  | .ok (s, f) => .next (s.setFlags f)
  | .error e => .fault e

/-- The end of an instruction whose rule returns 0, so that FLAGS is cleared (40_step_and_fetch.md R157). -/
def commitZero (r : Except Fault State) : Host.Outcome State Fault Refusal :=
  match r with
  | .ok s => .next (s.setFlags 0)
  | .error e => .fault e

/-- What the step does after the instruction: the interrupt check, unless the instruction faulted
(40_step_and_fetch.md R150; 60_exceptions.md R314). -/
def thenInterruptCheck (o : Host.Outcome State Fault Refusal) : Host.Outcome State Fault Refusal :=
  match o with
  | .next t =>
    match interruptCheck t with
    | .ok u => .next u
    | .error r => .fault r
  | .fault r => .fault r
  | .refused r => .refused r

/-- The fault codes (60_exceptions.md R301). -/
def Fault.code : Fault → Nat
  | .decodeInvalid _ _ _ => 1
  | .decodeMalformed _ _ _ => 2
  | .bounds _ _ _ => 3
  | .permission _ _ _ => 4
  | .noExecute _ _ => 5
  | .pageNotAvailable _ _ => 6
  | .accessDenied _ _ => 7
  | .overflow _ _ _ => 8
  | .arithmetic _ => 9
  | .init _ _ => 10

/-- The state a fault leaves behind (60_exceptions.md R300, R302). -/
def Fault.left : Fault → State
  | .decodeInvalid _ _ s => s
  | .decodeMalformed _ _ s => s
  | .bounds _ _ s => s
  | .permission _ _ s => s
  | .noExecute _ s => s
  | .pageNotAvailable _ s => s
  | .accessDenied _ s => s
  | .overflow _ _ s => s
  | .arithmetic s => s
  | .init _ s => s

end Sys2Proof.Machine
end

