-- ==== Sys2Proof/Machine/Operands.lean ====
section
/-! DEFINITION. Operand values (40_step_and_fetch.md R161). An instruction reads all of its operand values when it
starts, before it makes any write, so every meaning takes them from the state it is given. -/

namespace Sys2Proof.Machine

/-- An operand slot: "Each slot holds a register or an immediate, never both" (00_scope.md R14). -/
inductive Operand where
  | reg (r : Reg)
  | imm (v : Word)
  deriving DecidableEq, Repr

/-- "`src`: `x[sourceRegister]` if the form has a source register, else `sourceImmediate`", and the same for `dst`
(40_step_and_fetch.md R161). -/
def Operand.value (o : Operand) (s : State) : Word :=
  match o with
  | .reg r => s.reg r
  | .imm v => v

/-- An operand read as a two's-complement number, `s32(v)` (00_scope.md R9); JMPR alone reads one so (42_control.md
R216). -/
def Operand.signedValue (o : Operand) (s : State) : Int := (o.value s).toInt

end Sys2Proof.Machine
end

