-- ==== Sys2Proof/Machine/Alu.lean ====
section
/-! DEFINITION. The data-processing instructions (41_alu.md R180 to R192). -/

namespace Sys2Proof.Machine

/-! ## The shared operations -/

/-- `x[d] <- f(dst, src); return 0`, both operands read first (41_alu.md R180; 40_step_and_fetch.md R161). -/
def dataOp (f : Word → Word → Word) (src : Operand) (d : Reg) (s : State) : Host.Outcome State Fault Refusal :=
  commitZero (.ok (s.setReg d (f (s.reg d) (src.value s))))

/-- `u32(dst << src)`: "The count is not masked. Any count of 32 or more gives 0" (41_alu.md R187). -/
def shiftLeft (dst count : Word) : Word := if 32 ≤ count.toNat then 0 else dst <<< count.toNat

/-- `dst >> src`, logical, the count not masked (41_alu.md R188). -/
def shiftRight (dst count : Word) : Word := if 32 ≤ count.toNat then 0 else dst >>> count.toNat

/-- CMP writes no register and returns the comparison code (41_alu.md R190). -/
def compareOp (src : Operand) (d : Reg) (s : State) : Host.Outcome State Fault Refusal :=
  commit (.ok (s, compareCode (src.value s) (s.reg d)))

/-- MUL: `x[A] <- u32(src * dst); x[B] <- u32(0xFFFFFFFF00000000 & dst)`, the literal expression of the source
(41_alu.md R191; 90_conflicts.md C6). -/
def multiplyOp (src : Operand) (d : Reg) (s : State) : Host.Outcome State Fault Refusal :=
  let src := src.value s
  let dst := s.reg d
  commitZero (.ok ((s.setReg .A (src * dst)).setReg .B (BitVec.ofNat 32 (0xFFFFFFFF00000000 &&& dst.toNat))))

/-- DIV: the divisor is the destination; `ArithmeticError` before any write when it is 0 (41_alu.md R192). -/
def divideOp (src : Operand) (d : Reg) (s : State) : Host.Outcome State Fault Refusal :=
  let src := src.value s
  let dst := s.reg d
  commitZero (if dst = 0 then .error (.arithmetic s) else .ok ((s.setReg .A (src / dst)).setReg .B (src % dst)))

/-! ## The register forms, 0x10 to 0x1A -/

/-- MOV (41_alu.md R181). -/
def execMovReg (r d : Reg) (s : State) : Host.Outcome State Fault Refusal := dataOp (fun _ src => src) (.reg r) d s
/-- ADD (41_alu.md R182). -/
def execAddReg (r d : Reg) (s : State) : Host.Outcome State Fault Refusal := dataOp (fun dst src => dst + src) (.reg r) d s
/-- SUB: "computes destination - source" (41_alu.md R183). -/
def execSubReg (r d : Reg) (s : State) : Host.Outcome State Fault Refusal := dataOp (fun dst src => dst - src) (.reg r) d s
/-- AND (41_alu.md R184). -/
def execAndReg (r d : Reg) (s : State) : Host.Outcome State Fault Refusal := dataOp (fun dst src => dst &&& src) (.reg r) d s
/-- OR (41_alu.md R185). -/
def execOrReg (r d : Reg) (s : State) : Host.Outcome State Fault Refusal := dataOp (fun dst src => dst ||| src) (.reg r) d s
/-- XOR (41_alu.md R186). -/
def execXorReg (r d : Reg) (s : State) : Host.Outcome State Fault Refusal := dataOp (fun dst src => dst ^^^ src) (.reg r) d s
/-- SHL (41_alu.md R187). -/
def execShlReg (r d : Reg) (s : State) : Host.Outcome State Fault Refusal := dataOp shiftLeft (.reg r) d s
/-- SHR (41_alu.md R188). -/
def execShrReg (r d : Reg) (s : State) : Host.Outcome State Fault Refusal := dataOp shiftRight (.reg r) d s
/-- CMP (41_alu.md R190). -/
def execCmpReg (r d : Reg) (s : State) : Host.Outcome State Fault Refusal := compareOp (.reg r) d s
/-- MUL (41_alu.md R191). -/
def execMulReg (r d : Reg) (s : State) : Host.Outcome State Fault Refusal := multiplyOp (.reg r) d s
/-- DIV (41_alu.md R192). -/
def execDivReg (r d : Reg) (s : State) : Host.Outcome State Fault Refusal := divideOp (.reg r) d s

/-! ## The immediate forms, 0x20 to 0x2A -/

/-- MOV (41_alu.md R181). -/
def execMovImm (v : Word) (d : Reg) (s : State) : Host.Outcome State Fault Refusal := dataOp (fun _ src => src) (.imm v) d s
/-- ADD (41_alu.md R182). -/
def execAddImm (v : Word) (d : Reg) (s : State) : Host.Outcome State Fault Refusal := dataOp (fun dst src => dst + src) (.imm v) d s
/-- SUB (41_alu.md R183). -/
def execSubImm (v : Word) (d : Reg) (s : State) : Host.Outcome State Fault Refusal := dataOp (fun dst src => dst - src) (.imm v) d s
/-- AND (41_alu.md R184). -/
def execAndImm (v : Word) (d : Reg) (s : State) : Host.Outcome State Fault Refusal := dataOp (fun dst src => dst &&& src) (.imm v) d s
/-- OR (41_alu.md R185). -/
def execOrImm (v : Word) (d : Reg) (s : State) : Host.Outcome State Fault Refusal := dataOp (fun dst src => dst ||| src) (.imm v) d s
/-- XOR (41_alu.md R186). -/
def execXorImm (v : Word) (d : Reg) (s : State) : Host.Outcome State Fault Refusal := dataOp (fun dst src => dst ^^^ src) (.imm v) d s
/-- SHL (41_alu.md R187). -/
def execShlImm (v : Word) (d : Reg) (s : State) : Host.Outcome State Fault Refusal := dataOp shiftLeft (.imm v) d s
/-- SHR (41_alu.md R188). -/
def execShrImm (v : Word) (d : Reg) (s : State) : Host.Outcome State Fault Refusal := dataOp shiftRight (.imm v) d s
/-- CMP (41_alu.md R190). -/
def execCmpImm (v : Word) (d : Reg) (s : State) : Host.Outcome State Fault Refusal := compareOp (.imm v) d s
/-- MUL (41_alu.md R191). -/
def execMulImm (v : Word) (d : Reg) (s : State) : Host.Outcome State Fault Refusal := multiplyOp (.imm v) d s
/-- DIV (41_alu.md R192). -/
def execDivImm (v : Word) (d : Reg) (s : State) : Host.Outcome State Fault Refusal := divideOp (.imm v) d s

/-! ## NOT, 0x30 -/

/-- NOT: `x[r] <- x[r] ^ 0xFFFFFFFF` (41_alu.md R189). -/
def execNotReg (r : Reg) (s : State) : Host.Outcome State Fault Refusal :=
  commitZero (.ok (s.setReg r (s.reg r ^^^ 0xFFFFFFFF)))

end Sys2Proof.Machine
end

