-- ==== Sys2Proof/Machine/Control.lean ====
section
/-! DEFINITION. The stack and control-transfer instructions (42_control.md R210 to R216). The state they are given holds
the already-advanced I (40_step_and_fetch.md R151). -/

namespace Sys2Proof.Machine

/-! ## The shared operations -/

/-- CALL: the target is read before S changes; the already-advanced I is pushed (42_control.md R210). -/
def callOp (src : Operand) (s : State) : Host.Outcome State Fault Refusal := commitZero (callTo s (src.value s))

/-- PUSH: the operand is read before S changes (42_control.md R212). -/
def pushOp (src : Operand) (s : State) : Host.Outcome State Fault Refusal := commitZero (push s (src.value s))

/-- JMP: `if Cond(mask, FLAGS): pc <- src; return 0` (42_control.md R215). -/
def jumpOp (mask : FlagBits) (src : Operand) (s : State) : Host.Outcome State Fault Refusal :=
  commitZero (.ok (if condHolds mask s.flags then s.setPc (src.value s) else s))

/-- JMPR: `if Cond(mask, FLAGS): pc <- u32(I + s32(src)); return 0` (42_control.md R216). -/
def jumpRelativeOp (mask : FlagBits) (src : Operand) (s : State) : Host.Outcome State Fault Refusal :=
  commitZero (.ok
    (if condHolds mask s.flags then s.setPc (BitVec.ofInt 32 ((s.pc.toNat : Int) + src.signedValue s)) else s))

/-! ## The instructions -/

/-- CALL, 0x31 (42_control.md R210). -/
def execCallReg (r : Reg) (s : State) : Host.Outcome State Fault Refusal := callOp (.reg r) s
/-- CALL, 0x41 (42_control.md R210). -/
def execCallImm (v : Word) (s : State) : Host.Outcome State Fault Refusal := callOp (.imm v) s
/-- PUSH, 0x32 (42_control.md R212). -/
def execPushReg (r : Reg) (s : State) : Host.Outcome State Fault Refusal := pushOp (.reg r) s
/-- PUSH, 0x42 (42_control.md R212). -/
def execPushImm (v : Word) (s : State) : Host.Outcome State Fault Refusal := pushOp (.imm v) s
/-- POP, 0x33 (42_control.md R213). -/
def execPopReg (r : Reg) (s : State) : Host.Outcome State Fault Refusal := commitZero (popInto s r)
/-- RET, 0xF0: `let t = MemRead(x[S], 4); x[S] <- x[S] - 4; pc <- t` (42_control.md R211). -/
def execRet (s : State) : Host.Outcome State Fault Refusal :=
  commitZero do
    let (t, s) ← memRead s (s.reg .S).toNat 4
    let s := s.setReg .S (s.reg .S - 4)
    pure (s.setPc (BitVec.ofNat 32 t))
/-- JMP, 0x50 (42_control.md R215). -/
def execJmpReg (m : FlagBits) (r : Reg) (s : State) : Host.Outcome State Fault Refusal := jumpOp m (.reg r) s
/-- JMP, 0x60 (42_control.md R215). -/
def execJmpImm (m : FlagBits) (v : Word) (s : State) : Host.Outcome State Fault Refusal := jumpOp m (.imm v) s
/-- JMPR, 0x51 (42_control.md R216). -/
def execJmprReg (m : FlagBits) (r : Reg) (s : State) : Host.Outcome State Fault Refusal := jumpRelativeOp m (.reg r) s
/-- JMPR, 0x61 (42_control.md R216). -/
def execJmprImm (m : FlagBits) (v : Word) (s : State) : Host.Outcome State Fault Refusal := jumpRelativeOp m (.imm v) s

end Sys2Proof.Machine
end

