-- ==== Sys2Proof/Machine/MemoryAccess.lean ====
section
/-! DEFINITION. The memory-access instructions (44_memory_access.md R260, R261). -/

namespace Sys2Proof.Machine

/-! ## The shared operations -/

/-- MEMR: `x[d] <- zext_32(MemRead(addr, w))` (44_memory_access.md R260). -/
def loadOp (w : BitVec 4) (addr : Operand) (d : Reg) (s : State) : Host.Outcome State Fault Refusal :=
  commitZero do
    let (v, s) ← memRead s (addr.value s).toNat w.toNat
    pure (s.setReg d (BitVec.ofNat 32 v))

/-- MEMW: `MemWrite(addr, w, val)`; a value that does not fit raises `OverflowError` (44_memory_access.md R261). -/
def storeOp (w : BitVec 4) (val addr : Operand) (s : State) : Host.Outcome State Fault Refusal :=
  commitZero (memWrite s (addr.value s).toNat w.toNat (val.value s).toNat)

/-! ## The instructions -/

/-- MEMR, 0x70 (44_memory_access.md R260). -/
def execMemrRegReg (w : BitVec 4) (r d : Reg) (s : State) : Host.Outcome State Fault Refusal := loadOp w (.reg r) d s
/-- MEMR, 0x80 (44_memory_access.md R260). -/
def execMemrImmReg (w : BitVec 4) (a : Word) (d : Reg) (s : State) : Host.Outcome State Fault Refusal := loadOp w (.imm a) d s
/-- MEMW, 0x71 (44_memory_access.md R261). -/
def execMemwRegReg (w : BitVec 4) (r d : Reg) (s : State) : Host.Outcome State Fault Refusal := storeOp w (.reg r) (.reg d) s
/-- MEMW, 0x81 (44_memory_access.md R261). -/
def execMemwImmReg (w : BitVec 4) (v : Word) (d : Reg) (s : State) : Host.Outcome State Fault Refusal := storeOp w (.imm v) (.reg d) s
/-- MEMW, 0x91 (44_memory_access.md R261). -/
def execMemwRegImm (w : BitVec 4) (r : Reg) (a : Word) (s : State) : Host.Outcome State Fault Refusal := storeOp w (.reg r) (.imm a) s
/-- MEMW, 0xA1 (44_memory_access.md R261). -/
def execMemwImmImm (w : BitVec 4) (v a : Word) (s : State) : Host.Outcome State Fault Refusal := storeOp w (.imm v) (.imm a) s

end Sys2Proof.Machine
end

