-- ==== Sys2Proof/Machine/System.lean ====
section
/-! DEFINITION. The interrupt, system and conditional-store instructions (43_system.md R230 to R238). None is privileged
(60_exceptions.md R320). -/

namespace Sys2Proof.Machine

/-! ## The shared operations -/

/-- A fetched INT, `hardware = false`: no effect when IE = 0, else the handler of vector `src` is called
(43_system.md R231). -/
def softwareInt (src : Operand) (s : State) : Host.Outcome State Fault Refusal :=
  commitZero (if s.ie then enterHandler false (src.value s) s else .ok s)

/-- SFSTOR (43_system.md R236): the operand is read before A changes; A is the scratch of the read and is restored; the
comparison has source `v` and destination the memory word, and the condition is tested against the fresh code. The read
and the write are two transactions (20_memory.md R102). -/
def conditionalStore (mask : FlagBits) (src : Operand) (s : State) : Host.Outcome State Fault Refusal :=
  commit do
    let v := src.value s
    let a0 := s.reg .A
    let (m, s) ← memRead s a0.toNat 4
    let s := s.setReg .A (BitVec.ofNat 32 m)
    let f := compareCode v (s.reg .A)
    let s ← if condHolds mask f then memWrite s a0.toNat 4 v.toNat else .ok s
    pure (s.setReg .A a0, f)

/-! ## The instructions -/

/-- INT, 0x34 (43_system.md R231). -/
def execIntReg (r : Reg) (s : State) : Host.Outcome State Fault Refusal := softwareInt (.reg r) s
/-- INT, 0x44 (43_system.md R231). -/
def execIntImm (v : Word) (s : State) : Host.Outcome State Fault Refusal := softwareInt (.imm v) s
/-- HIRET, 0xF1 (43_system.md R233). -/
def execHiret (s : State) : Host.Outcome State Fault Refusal := commit (returnFromInterrupt s)
/-- ACTI, 0xF2: `IE <- 1` (43_system.md R234). -/
def execActi (s : State) : Host.Outcome State Fault Refusal := commitZero (.ok (s.setIe true))
/-- DACTI, 0xF3: `IE <- 0`; PEND is kept (43_system.md R235). -/
def execDacti (s : State) : Host.Outcome State Fault Refusal := commitZero (.ok (s.setIe false))
/-- SFSTOR, 0x52 (43_system.md R236). -/
def execSfstorReg (m : FlagBits) (r : Reg) (s : State) : Host.Outcome State Fault Refusal := conditionalStore m (.reg r) s
/-- SFSTOR, 0x62 (43_system.md R236). -/
def execSfstorImm (m : FlagBits) (v : Word) (s : State) : Host.Outcome State Fault Refusal := conditionalStore m (.imm v) s
/-- SIVR, 0x35: `IVR <- x[r]` (43_system.md R237). -/
def execSivrReg (r : Reg) (s : State) : Host.Outcome State Fault Refusal := commitZero (.ok (s.setIvr (s.reg r)))
/-- NOP, 0xFF: "no effect, resets flags to 0" (43_system.md R238). -/
def execNop (s : State) : Host.Outcome State Fault Refusal := commitZero (.ok s)

end Sys2Proof.Machine
end

