-- ==== Sys2Proof/Machine/Dispatch.lean ====
section
/-! DEFINITION. Dispatch: "There is exactly one rule per mnemonic" and "dispatch itself cannot fail"
(40_step_and_fetch.md R156). One arm per constructor of Instr. `exec` is given the state whose I is already advanced
(R151) and answers the state after the flag commit (R157). -/

namespace Sys2Proof.Machine

def exec (i : Instr) (s : State) : Host.Outcome State Fault Refusal :=
  match i with
  | .movReg r d => Sys2Proof.Machine.execMovReg r d s
  | .addReg r d => Sys2Proof.Machine.execAddReg r d s
  | .subReg r d => Sys2Proof.Machine.execSubReg r d s
  | .andReg r d => Sys2Proof.Machine.execAndReg r d s
  | .orReg r d => Sys2Proof.Machine.execOrReg r d s
  | .xorReg r d => Sys2Proof.Machine.execXorReg r d s
  | .shlReg r d => Sys2Proof.Machine.execShlReg r d s
  | .shrReg r d => Sys2Proof.Machine.execShrReg r d s
  | .cmpReg r d => Sys2Proof.Machine.execCmpReg r d s
  | .mulReg r d => Sys2Proof.Machine.execMulReg r d s
  | .divReg r d => Sys2Proof.Machine.execDivReg r d s
  | .movImm v d => Sys2Proof.Machine.execMovImm v d s
  | .addImm v d => Sys2Proof.Machine.execAddImm v d s
  | .subImm v d => Sys2Proof.Machine.execSubImm v d s
  | .andImm v d => Sys2Proof.Machine.execAndImm v d s
  | .orImm v d => Sys2Proof.Machine.execOrImm v d s
  | .xorImm v d => Sys2Proof.Machine.execXorImm v d s
  | .shlImm v d => Sys2Proof.Machine.execShlImm v d s
  | .shrImm v d => Sys2Proof.Machine.execShrImm v d s
  | .cmpImm v d => Sys2Proof.Machine.execCmpImm v d s
  | .mulImm v d => Sys2Proof.Machine.execMulImm v d s
  | .divImm v d => Sys2Proof.Machine.execDivImm v d s
  | .notReg r => Sys2Proof.Machine.execNotReg r s
  | .callReg r => Sys2Proof.Machine.execCallReg r s
  | .pushReg r => Sys2Proof.Machine.execPushReg r s
  | .popReg r => Sys2Proof.Machine.execPopReg r s
  | .intReg r => Sys2Proof.Machine.execIntReg r s
  | .sivrReg r => Sys2Proof.Machine.execSivrReg r s
  | .callImm v => Sys2Proof.Machine.execCallImm v s
  | .pushImm v => Sys2Proof.Machine.execPushImm v s
  | .intImm v => Sys2Proof.Machine.execIntImm v s
  | .jmpReg m r => Sys2Proof.Machine.execJmpReg m r s
  | .jmprReg m r => Sys2Proof.Machine.execJmprReg m r s
  | .sfstorReg m r => Sys2Proof.Machine.execSfstorReg m r s
  | .jmpImm m v => Sys2Proof.Machine.execJmpImm m v s
  | .jmprImm m v => Sys2Proof.Machine.execJmprImm m v s
  | .sfstorImm m v => Sys2Proof.Machine.execSfstorImm m v s
  | .memrRegReg w r d => Sys2Proof.Machine.execMemrRegReg w r d s
  | .memwRegReg w r d => Sys2Proof.Machine.execMemwRegReg w r d s
  | .memrImmReg w v d => Sys2Proof.Machine.execMemrImmReg w v d s
  | .memwImmReg w v d => Sys2Proof.Machine.execMemwImmReg w v d s
  | .memwRegImm w r a => Sys2Proof.Machine.execMemwRegImm w r a s
  | .memwImmImm w v a => Sys2Proof.Machine.execMemwImmImm w v a s
  | .ret => Sys2Proof.Machine.execRet s
  | .hiret => Sys2Proof.Machine.execHiret s
  | .acti => Sys2Proof.Machine.execActi s
  | .dacti => Sys2Proof.Machine.execDacti s
  | .nop => Sys2Proof.Machine.execNop s

end Sys2Proof.Machine
end

