-- ==== Sys2Proof/Machine/Fetch.lean ====
section
/-! DEFINITION. Address translation (20_memory.md R70 to R77) and instruction fetch (40_step_and_fetch.md R152 to R155). -/

namespace Sys2Proof.Machine

/-! ## Translation -/

/-- The E bit of an entry, bit 15 (20_memory.md R71). -/
def entryExecutable (e : BitVec 16) : Bool := e.getLsbD 15
/-- The P bit of an entry, bit 14 (20_memory.md R71). -/
def entryPrivileged (e : BitVec 16) : Bool := e.getLsbD 14
/-- The A bit of an entry, bit 13 (20_memory.md R71). -/
def entryAvailable (e : BitVec 16) : Bool := e.getLsbD 13

/-- `Entry(va)`, the translation-table entry of a virtual address: from the TLB if it is there, else from the table at
`vmr`, filling the TLB (20_memory.md R76). An address of 2^32 or more raises `BoundsError` before its entry is read
(40_step_and_fetch.md R152; log 22). Other agents may act before the lookup, before the table read and before the fill
(log 13). -/
def tableEntry (vmr : Word) (va : Nat) (s : State) : Except Fault (BitVec 16 × State) :=
  if 2 ^ 32 ≤ va then .error (.bounds va 1 s)
  else
    let s := land s
    match s.tlbLookup va with
    | some t => .ok (t.entry, s)
    | none => do
      let (w, s) ← memRead s (tableEntryAddress vmr va) 2
      let e : BitVec 16 := BitVec.ofNat 16 w
      pure (e, (land s).fillTlb va e)

/-- The entries of a list of addresses, read in list order (20_memory.md R72). -/
def tableEntries (vmr : Word) : List Nat → State → Except Fault (List (Nat × BitVec 16) × State)
  | [], s => .ok ([], s)
  | va :: rest, s => do
    let (e, s) ← tableEntry vmr va s
    let (es, s) ← tableEntries vmr rest s
    pure ((va, e) :: es, s)

/-- The three passes of the check: every missing E of `execute` first, then every missing A of `all`, then every P of
`all` that an unprivileged unit meets, each pass in list order (20_memory.md R72: "a deliberate priority"). -/
def checkEntries (privileged : Bool) (execute all : List (Nat × BitVec 16)) (s : State) : Except Fault State :=
  match execute.find? fun p => !entryExecutable p.2 with
  | some p => .error (.noExecute p.1 s)
  | none =>
    match all.find? fun p => !entryAvailable p.2 with
    | some p => .error (.pageNotAvailable p.1 s)
    | none =>
      match all.find? fun p => entryPrivileged p.2 && !privileged with
      | some p => .error (.accessDenied p.1 s)
      | none => .ok s

/-- `validateAccessRequirements(privileged, executeAddrs, availableAddrs, vmr)` (20_memory.md R72). -/
def validateAccess (privileged : Bool) (executeAddrs availableAddrs : List Nat) (vmr : Word) (s : State) :
    Except Fault State :=
  if vmr = 0 then .ok s
  else do
    let all := executeAddrs ++ availableAddrs.filter fun a => !executeAddrs.contains a
    let (es, s) ← tableEntries vmr all s
    checkEntries privileged (es.take executeAddrs.length) es s

/-- The physical address of a virtual address under an entry, `ppage | (va & 0x7FFFF)` (20_memory.md R73). -/
def physicalAddress (e : BitVec 16) (va : Nat) : Nat := (physicalBase e).toNat ||| (va &&& 0x7FFFF)

/-- `Translate(va)` (20_memory.md R73, R76). -/
def translate (vmr : Word) (va : Nat) (s : State) : Except Fault (Nat × State) := do
  let (e, s) ← tableEntry vmr va s
  pure (physicalAddress e va, (land s).fillTlb va e)

/-- The physical address fetch uses for an address: translated when VMR != 0, the address itself when VMR = 0
(20_memory.md R77, 40_step_and_fetch.md R152). -/
def fetchAddress (va : Nat) (s : State) : Except Fault (Nat × State) :=
  if s.vmr = 0 then .ok (va, s) else translate s.vmr va s

/-! ## Fetch -/

/-- The `n` bytes from an address, "each once, in ascending address order" (40_step_and_fetch.md R152, R154). -/
def fetchBytes : Nat → Nat → State → Except Fault (List Byte × State)
  | 0, _, s => .ok ([], s)
  | n + 1, va, s => do
    let (p, s) ← fetchAddress va s
    let (b, s) ← fetchByte s p
    let (bs, s) ← fetchBytes n (va + 1) s
    pure (b :: bs, s)

/-- Phase 1 of `Fetch(a)`: the first byte (40_step_and_fetch.md R152). -/
def fetchFirst (a : Nat) (s : State) : Except Fault (Byte × State) := do
  let s ← validateAccess s.priv [a] [] s.vmr s
  let (p0, s) ← fetchAddress a s
  fetchByte s p0

/-- Phase 2 of `Fetch(a)`: the bytes after the first of an instruction of `length` bytes (40_step_and_fetch.md R152). -/
def fetchRest (a length : Nat) (s : State) : Except Fault (List Byte × State) := do
  let s ← if length ≤ 1 then .ok s
    else validateAccess s.priv (List.range' (a + 1) (length - 1)) [] s.vmr s
  fetchBytes (length - 1) (a + 1) s

/-- `Fetch(a)`: the instruction at an address under the machine's FORM_TABLE and REG_ID, the address after it, and the state
in which the TLB holds what the fetch filled (40_step_and_fetch.md R152, R154, R155; 00_scope.md R7). -/
def fetch (a : Nat) (s : State) : Except Fault ((Instr × Word) × State) := do
  let c := s.params.codec
  let (b0, s) ← fetchFirst a s
  match c.formOf b0 with
  | none => .error (.decodeInvalid a b0 s)
  | some F =>
    let (rest, s) ← fetchRest a F.length s
    match c.decodeWord F b0 (beValue (b0 :: rest)) with
    | .ok i => .ok ((i, BitVec.ofNat 32 (a + F.length)), s)
    | .error (.malformedField w) => .error (.decodeMalformed a w s)
    | .error _ => .error (.decodeInvalid a b0 s)

end Sys2Proof.Machine
end

