-- ==== Sys2Proof/Machine/Ports.lean ====
section
/-! DEFINITION. The ports of the block (10_state.md R48) and the boot order (70_reset_and_hazards.md R344). The host calls
them between steps (log 21); a fault of a port is returned to its caller and does not stop the unit. -/

namespace Sys2Proof.Machine

/-! ## Unit ports -/

/-- `reset(I0)`: the per-unit state zeroed and I set, in one atomic action; the shared state is untouched
(70_reset_and_hazards.md R340). -/
def resetUnit (i0 : Word) (s : State) : State :=
  { s with regs := Regs.zero, flags := 0, ie := false, pend := none, ivr := 0, vmr := 0, priv := false, pc := i0 }

/-- `setupCore(I0)`: `InitError` outside the MemoryArray, else I is set and nothing else changes
(70_reset_and_hazards.md R342). -/
def setupCore (i0 : Nat) (s : State) : Except Fault State :=
  if s.inArray i0 then .ok (s.setPc (BitVec.ofNat 32 i0)) else .error (.init (.address i0) s)

/-- `setVMR(v)`: VMR <- v; the TLB is not flushed (10_state.md R35, 20_memory.md R75). -/
def setVMR (v : Word) (s : State) : State := s.setVmr v

/-- `setPrivileged(b)`: PRIV <- b (10_state.md R36). -/
def setPrivileged (b : Bool) (s : State) : State := s.setPriv b

/-- `signalHardwareInterrupt(v) -> bool` (60_exceptions.md R310). -/
def signalHardwareInterrupt (v : Word) (s : State) : Bool × State := (s.ie && s.pend.isNone, s.signal v)

/-- `fetchInstructionAtAddress(a)`: `Fetch(a)` with the unit's VMR and PRIV; at most the TLB changes
(40_step_and_fetch.md R160). -/
def fetchInstructionAtAddress (a : Nat) (s : State) : Except Fault ((Instr × Word) × State) := fetch a s

/-! ## Bus ports -/

/-- `memoryReadAtAddressForLength(a, n)` (10_state.md R48, 20_memory.md R80). -/
def memoryReadAtAddressForLength (a n : Nat) (s : State) : Except Fault Nat := busRead s a n

/-- `memoryWriteAtAddressForLength(a, n, v, src)` (10_state.md R48, 20_memory.md R81). -/
def memoryWriteAtAddressForLength (a n v : Nat) (source : String) (s : State) : Except Fault State :=
  busWrite s a n v source

/-- `tlbFlush()` (20_memory.md R75). -/
def tlbFlush (s : State) : State := s.setTlb []

/-- What `registerDevice` asks of a device: `d.startAddress < MEMORY_START` and
`d.startAddress & d.mask == d.startAddress` (20_memory.md R86). -/
def Device.registrable (d : Device) (memoryStart : Nat) : Bool :=
  decide (d.start.toNat < memoryStart) && (d.start &&& d.mask) == d.start

/-- `registerDevice(d)`: the device is added at the end of the list, or `InitError` and nothing is added
(20_memory.md R86). The spec does not say which "argument" the `InitError` records (60_exceptions.md R301 code 10): the
model records the whole device, DESIGN CHOICE (log 19). -/
def registerDevice (d : Device) (s : State) : Except Fault State :=
  if d.registrable s.params.memoryStart then .ok (s.setDevices (s.devices ++ [d])) else .error (.init (.device d) s)

/-- A toggle port: one permission bit of one cell flipped, the actor recorded (20_memory.md R63). An address without a
cell raises `BoundsError`, as an array access outside the array does (log 11). -/
def togglePort (bit : Access) (a : Nat) (actor : String) (s : State) : Except Fault State :=
  if s.inArray a then .ok (s.toggle bit a actor) else .error (.bounds a 1 s)

/-- `toggleRead(addr, actor)` (20_memory.md R63). -/
def toggleRead (a : Nat) (actor : String) (s : State) : Except Fault State := togglePort .read a actor s
/-- `toggleWrite(addr, actor)` (20_memory.md R63). -/
def toggleWrite (a : Nat) (actor : String) (s : State) : Except Fault State := togglePort .write a actor s
/-- `toggleExecute(addr, actor)` (20_memory.md R63). -/
def toggleExecute (a : Nat) (actor : String) (s : State) : Except Fault State := togglePort .execute a actor s

/-! ## Construction and boot (70_reset_and_hazards.md R341, R344) -/

/-- The shared state of a bus (10_state.md R20). -/
structure Bus where
  mem     : Memory
  perms   : List (Nat × Perms)
  tags    : List (Nat × String)
  tlb     : List (Nat × TlbEntry)
  devices : List Device
  deriving DecidableEq, Repr

/-- A newly built bus: every cell 0 with R = W = X = 1 (70_reset_and_hazards.md R344, 20_memory.md R64); an empty TLB is the
model's choice (log 24). -/
def newBus : Bus := ⟨[], [], [], [], []⟩

/-- Build a unit on a bus; without its collaborator it is an `InitError` (70_reset_and_hazards.md R341; 60_exceptions.md
R301 code 10; log 19). -/
def constructUnit (p : Params) (bus : Option Bus) : Except Fault State :=
  match bus with
  | some b => .ok { State.constructed p with
      mem := b.mem, perms := b.perms, tags := b.tags, tlb := b.tlb, devices := b.devices }
  | none => .error (.init .noCollaborator (State.constructed p))

/-- Register a list of devices, in order (70_reset_and_hazards.md R344 step 2). -/
def registerDevices : List Device → State → Except Fault State
  | [], s => .ok s
  | d :: rest, s => do
    let s ← registerDevice d s
    registerDevices rest s

/-- Load a binary "verbatim into the MemoryArray at a caller-chosen load address" by direct array stores
(70_reset_and_hazards.md R344 step 3). They pass the array's range check (20_memory.md R65) and each cell's W bit, for
"every access is checked against the corresponding permission bit" (R62), in ascending address order (R85); a load that
faults stores nothing (log 23). -/
def loadBinary (a : Nat) (binary : List Byte) (source : String) (s : State) : Except Fault State :=
  if binary = [] then .ok s
  else if s.arrayRangeOk a binary.length then
    match s.firstDenied .write a binary.length with
    | some p => .error (.permission p .write s)
    | none => .ok (s.storeBytes source a binary)
  else .error (.bounds a binary.length s)

/-- The boot order of 70_reset_and_hazards.md R344: build, register devices, load, set PRIV and VMR, flush, `setupCore`. -/
def boot (p : Params) (devices : List Device) (loadAddress : Nat) (binary : List Byte) (source : String) (privileged : Bool)
    (vmr : Word) (entry : Nat) : Except Fault State := do
  let s ← constructUnit p (some newBus)
  let s ← registerDevices devices s
  let s ← loadBinary loadAddress binary source s
  setupCore entry (tlbFlush (setVMR vmr (setPrivileged privileged s)))

/-! ## Placing an instruction for the next fetch -/

/-- Give the cell at an address a byte and let fetch read it. -/
def placeByte (s : State) (a : Nat) (b : Byte) : State :=
  (s.setByte a b).setPerms (tableSet Perms.default a { s.permsAt a with x := true } s.perms)

/-- Place a byte string from an address. -/
def placeBytes : Nat → List Byte → State → State
  | _, [], s => s
  | a, b :: rest, s => placeBytes (a + 1) rest (placeByte s a b)

/-- Set the codec. -/
def setCodec (c : Codec) (s : State) : State := s.setParams { s.params with codec := c }

/-- Place a byte string at I, with translation off and nobody else acting, so that the next step fetches it; where it
would not fit in the MemoryArray, I moves to `MEMORY_START` (log 15). -/
def placeForFetch (bytes : List Byte) (s : State) : State :=
  let s := (s.setVmr 0).setAgenda []
  let s := if s.arrayRangeOk s.pc.toNat bytes.length then s else s.setPc (BitVec.ofNat 32 s.params.memoryStart)
  placeBytes s.pc.toNat bytes s

end Sys2Proof.Machine
end

