-- ==== Sys2Proof/Machine/Step.lean ====
section
/-! DEFINITION. One `execute()` call (40_step_and_fetch.md R150), and the placing of an instruction where the next step
fetches. -/

namespace Sys2Proof.Machine

/-- One step: fetch at I, advance I, run the instruction and commit FLAGS, then the interrupt check. A fault ends the
step where it happens (40_step_and_fetch.md R150, R151; 60_exceptions.md R300). -/
def step (s : State) : Host.Outcome State Fault Refusal :=
  match fetch s.pc.toNat s with
  | .error r => .fault r
  | .ok ((i, next), s1) => thenInterruptCheck (exec i (s1.setPc next))

/-- Store an instruction's bytes (a word of spec/opcode_table.json, zeros after it) at I, with VMR = 0, the X bits set and
the reference codec, whose table that file is, as the fetch needs them (log 15). At State.reset only memory changes. -/
def State.withFetchWord (s : State) (nbits w : Nat) : State :=
  placeForFetch (tableBytes nbits w) (setCodec Codec.reference s)

end Sys2Proof.Machine
end

