-- ==== Sys2Proof/Safety.lean ====
section
/-! DEFINITION. The terms statements about the machine use: the invariant of every state, which accesses succeed, what a
store leaves behind, and what one state keeps of another. They are written from the spec, without calling the bus. -/

namespace Sys2Proof.Machine

/-! ## The invariant -/

/-- Keys strictly rising: each key is listed once. -/
abbrev KeysRising {β : Type} (t : List (Nat × β)) : Prop := t.Pairwise fun x y => x.1 < y.1

/-- A device is where R86 allows one under the machine's parameters, and its buffer lists only bytes it has (20_memory.md
R86, R87). -/
structure Device.Wf (p : Params) (d : Device) : Prop where
  registrable : d.registrable p.memoryStart = true
  rising      : KeysRising d.buffer
  inBuffer    : ∀ c ∈ d.buffer, c.1 < deviceBufferSize p.bufferSizing d.mask

/-- The form every state keeps: parameters that meet R8 (00_scope.md), a codec that encodes every instruction among them;
canonical memory and permissions over the cells of the array (20_memory.md R62, R65), tags on cells only, one TLB entry
for each of the 2^13 virtual pages at most, with the base its raw entry gives (R73, R74), and devices where R86 allows
them. -/
structure Inv (s : State) : Prop where
  params       : s.params.Ok
  memWf        : Memory.wf s.mem
  memCells     : ∀ c ∈ s.mem, s.inArray c.1 = true
  permsRising  : KeysRising s.perms
  permsListed  : ∀ c ∈ s.perms, c.2 ≠ Perms.default
  permsCells   : ∀ c ∈ s.perms, s.inArray c.1 = true
  tagsRising   : KeysRising s.tags
  tagsCells    : ∀ c ∈ s.tags, s.inArray c.1 = true
  tlbRising    : KeysRising s.tlb
  tlbPages     : ∀ c ∈ s.tlb, c.1 < 2 ^ 13 ∧ c.2.base = physicalBase c.2.entry
  devicesWf    : ∀ d ∈ s.devices, d.Wf s.params

/-! ## Accesses -/

/-- Every one of the `n` cells from `a` exists and allows the access (20_memory.md R62, R65). -/
def CellsAllow (s : State) (kind : Access) (a n : Nat) : Prop :=
  s.params.memoryStart ≤ a ∧ a + n ≤ s.params.memoryEnd ∧ ∀ k < n, (s.permsAt (a + k)).allows kind = true

/-- The address is in device space, a device is routed, and the access fits its buffer (20_memory.md R83, R87). -/
def DeviceServes (s : State) (a n : Nat) : Prop :=
  a < s.params.memoryStart ∧
    ∃ d, routeDevice s.devices a = some d ∧ (a - d.start.toNat) + n ≤ deviceBufferSize s.params.bufferSizing d.mask

/-- A data access of `n` bytes at `a` meets everything the bus asks of it, but for its length and its value
(20_memory.md R80, R81). -/
def Accessible (s : State) (kind : Access) (a n : Nat) : Prop := CellsAllow s kind a n ∨ DeviceServes s a n

/-- The fault of a data access of `n` bytes at `a` that is not `Accessible`, and the state it leaves: `BoundsError` where
the bytes are neither cells nor served by a device, else `PermissionError` at the lowest cell that denies the access
(20_memory.md R65, R83, R84, R85, R87). -/
def AccessFault (kind : Access) (left : State) (a n : Nat) (r : Fault) : Prop :=
  (¬(left.params.memoryStart ≤ a ∧ a + n ≤ left.params.memoryEnd) ∧ ¬DeviceServes left a n ∧ r = .bounds a n left) ∨
    (left.params.memoryStart ≤ a ∧ a + n ≤ left.params.memoryEnd ∧
      ∃ k < n, (left.permsAt (a + k)).allows kind = false ∧ (∀ j < k, (left.permsAt (a + j)).allows kind = true) ∧
        r = .permission (a + k) kind left)

/-- The big-endian value of the `n` bytes at `a`: of cells, or of the buffer of the device the address is routed to
(20_memory.md R66, R80, R87). -/
def State.valueAt (s : State) (a n : Nat) : Nat :=
  if a < s.params.memoryStart then
    match routeDevice s.devices a with
    | some d => beValue (d.bytesAt (a - d.start.toNat) n)
    | none => 0
  else beValue (s.bytesAt a n)

/-- Byte `k` of the `n`-byte big-endian serialisation of `v`: bits `8*(n-1-k)+7` to `8*(n-1-k)` (20_memory.md R81). -/
def storedByte (n v k : Nat) : Byte := BitVec.ofNat 8 (v / 256 ^ (n - 1 - k))

/-- What a write of `source` leaves of memory, tags and device buffers: the `n` bytes from `a` hold the value, every
other byte of the address space reads as before; permission bits, the TLB and every other tag are as before
(20_memory.md R81, R87). -/
structure Stored (source : String) (s t : State) (a n v : Nat) : Prop where
  cells    : s.params.memoryStart ≤ a → ∀ k < n, t.readByte (a + k) = some (storedByte n v k)
  writer   : s.params.memoryStart ≤ a → ∀ k < n, t.tagAt (a + k) = source
  device   : a < s.params.memoryStart → ∀ d, routeDevice s.devices a = some d →
    ∃ d', routeDevice t.devices a = some d' ∧ d'.start = d.start ∧ d'.mask = d.mask ∧ d'.irq = d.irq ∧
      ∀ k < n, d'.byteAt (a - d.start.toNat + k) = storedByte n v k
  others   : ∀ x, ¬(a ≤ x ∧ x < a + n) → t.readByte x = s.readByte x
  tags     : ∀ x, ¬(a ≤ x ∧ x < a + n) → t.tagAt x = s.tagAt x
  perms    : t.perms = s.perms
  tlb      : t.tlb = s.tlb
  params   : t.params = s.params

/-! ## Translation entries -/

/-- The entry a fetch uses for a virtual address when no other agent acts: the TLB's if it holds the page, else the 2-byte
word at `VMR + (va >> 19) * 2` (20_memory.md R70, R76). -/
def State.entryAt (s : State) (va : Nat) : BitVec 16 :=
  match s.tlbLookup va with
  | some t => t.entry
  | none => BitVec.ofNat 16 (s.valueAt (s.vmr.toNat + va / 2 ^ 19 * 2) 2)

/-- The virtual address is below 2^32, and the TLB holds its page or its table entry can be read on the bus (20_memory.md
R76, 40_step_and_fetch.md R152). -/
def EntryReadable (s : State) (va : Nat) : Prop :=
  va < 2 ^ 32 ∧ ((s.tlbLookup va).isSome = true ∨ Accessible s .read (s.vmr.toNat + va / 2 ^ 19 * 2) 2)

/-- An entry lets a unit fetch from its page: E and A are set, and P is clear or the unit privileged (20_memory.md R72). -/
def EntryPermits (privileged : Bool) (e : BitVec 16) : Prop :=
  e.getLsbD 15 = true ∧ e.getLsbD 13 = true ∧ (e.getLsbD 14 = true → privileged = true)

/-- The physical address of a virtual address under the entry a fetch uses for it (20_memory.md R73). -/
def State.physicalAt (s : State) (va : Nat) : Nat := (s.entryAt va).toNat % 2 ^ 13 * 2 ^ 19 + va % 2 ^ 19

/-- `t` is `s` but for the TLB, which in `t` maps the pages of the `n` addresses from `a` to the entries a fetch uses for
them, and every other page as in `s` (20_memory.md R73, R74, R76). -/
structure TlbFilled (s t : State) (a n : Nat) : Prop where
  only   : t = s.setTlb t.tlb
  filled : ∀ k < n, t.tlbLookup (a + k) =
    some ⟨BitVec.ofNat 32 ((s.entryAt (a + k)).toNat % 2 ^ 13 * 2 ^ 19), s.entryAt (a + k)⟩
  others : ∀ x, (∀ k < n, (a + k) / 2 ^ 19 ≠ x / 2 ^ 19) → t.tlbLookup x = s.tlbLookup x

/-! ## What a state keeps of another -/

/-- Memory, permissions, tags, TLB and devices as before (10_state.md R20, the shared state). -/
structure SameShared (s t : State) : Prop where
  bytes   : ∀ x, t.readByte x = s.readByte x
  mem     : t.mem = s.mem
  perms   : t.perms = s.perms
  tags    : t.tags = s.tags
  tlb     : t.tlb = s.tlb
  devices : t.devices = s.devices

/-- IE, PEND, IVR, VMR, PRIV, the machine's parameters and the acts still to come as before. -/
structure SameControl (s t : State) : Prop where
  ie     : t.ie = s.ie
  pend   : t.pend = s.pend
  ivr    : t.ivr = s.ivr
  vmr    : t.vmr = s.vmr
  priv   : t.priv = s.priv
  params : t.params = s.params
  agenda : t.agenda = s.agenda

/-- Every register but those of a list as before. -/
def RegsExcept (s t : State) (changed : List Reg) : Prop := ∀ q, q ∉ changed → t.reg q = s.reg q

/-- Everything of the unit but PEND as before: registers, I, FLAGS, IE, IVR, VMR and PRIV (20_memory.md R102: "Register
state is per unit, and only its own unit changes it"), and the machine's parameters. -/
structure SameUnit (s t : State) : Prop where
  regs  : ∀ q, t.reg q = s.reg q
  pc    : t.pc = s.pc
  flags : t.flags = s.flags
  ie    : t.ie = s.ie
  ivr   : t.ivr = s.ivr
  vmr   : t.vmr = s.vmr
  priv  : t.priv = s.priv
  params : t.params = s.params

/-- The frame and the result of an instruction that writes one register and clears FLAGS: `t` is `s` with `d` holding `v`. -/
structure WritesOnly (s t : State) (d : Reg) (v : Word) : Prop where
  result  : t.reg d = v
  regs    : RegsExcept s t [d]
  flags   : t.flags = 0
  pc      : t.pc = s.pc
  control : SameControl s t
  shared  : SameShared s t

/-! ## What each instruction may write -/

/-- The registers an instruction writes: its destination register, and those its rule fixes (10_state.md R24, R25).
HIRET and SFSTOR restore A (43_system.md R233, R236). -/
def destinations : Instr → List Reg
  | .movReg _ d | .addReg _ d | .subReg _ d | .andReg _ d | .orReg _ d | .xorReg _ d | .shlReg _ d | .shrReg _ d => [d]
  | .movImm _ d | .addImm _ d | .subImm _ d | .andImm _ d | .orImm _ d | .xorImm _ d | .shlImm _ d | .shrImm _ d => [d]
  | .cmpReg _ _ | .cmpImm _ _ => []
  | .mulReg _ _ | .divReg _ _ | .mulImm _ _ | .divImm _ _ => [.A, .B]
  | .notReg r => [r]
  | .popReg r => [r, .S]
  | .callReg _ | .pushReg _ | .callImm _ | .pushImm _ | .intReg _ | .intImm _ | .ret | .hiret => [.S]
  | .sivrReg _ | .jmpReg _ _ | .jmprReg _ _ | .jmpImm _ _ | .jmprImm _ _ => []
  | .sfstorReg _ _ | .sfstorImm _ _ => []
  | .memrRegReg _ _ d | .memrImmReg _ _ d => [d]
  | .memwRegReg _ _ _ | .memwImmReg _ _ _ | .memwRegImm _ _ _ | .memwImmImm _ _ _ => []
  | .acti | .dacti | .nop => []

/-- The comparison code of a value and a memory word, as a number comparison (41_alu.md R190, 43_system.md R236). -/
def codeOf (v m : Nat) : FlagBits := if v = m then 0b100 else if v < m then 0b010 else 0b001

/-- The condition of JMP, JMPR and SFSTOR in words: the mask shares a bit with the flags, or equals them
(42_control.md R214). -/
def CondTrue (mask flags : FlagBits) : Prop := mask &&& flags ≠ 0 ∨ mask = flags

/-- The address, width and value an instruction stores, `none` where it stores nothing: the new top of the stack for
CALL, PUSH and a taken INT, the address operand of MEMW, the address in A for an SFSTOR whose condition holds
(42_control.md R210, R212; 43_system.md R231, R236; 44_memory_access.md R261). -/
def storesTo (i : Instr) (s : State) : Option (Nat × Nat × Nat) :=
  let top := (s.reg .S + 4).toNat
  let sfstor := fun (m : FlagBits) (v : Word) =>
    let f := codeOf v.toNat (s.valueAt (s.reg .A).toNat 4)
    if (m &&& f) ≠ 0 ∨ m = f then some ((s.reg .A).toNat, 4, v.toNat) else none
  match i with
  | .callReg _ | .callImm _ => some (top, 4, s.pc.toNat)
  | .pushReg r => some (top, 4, (s.reg r).toNat)
  | .pushImm v => some (top, 4, v.toNat)
  | .intReg _ | .intImm _ => if s.ie then some (top, 4, s.pc.toNat) else none
  | .sfstorReg m r => sfstor m (s.reg r)
  | .sfstorImm m v => sfstor m v
  | .memwRegReg w r d => some ((s.reg d).toNat, w.toNat, (s.reg r).toNat)
  | .memwImmReg w v d => some ((s.reg d).toNat, w.toNat, v.toNat)
  | .memwRegImm w r a => some (a.toNat, w.toNat, (s.reg r).toNat)
  | .memwImmImm w v a => some (a.toNat, w.toNat, v.toNat)
  | .movReg _ _ | .addReg _ _ | .subReg _ _ | .andReg _ _ | .orReg _ _ | .xorReg _ _ | .shlReg _ _ | .shrReg _ _
  | .cmpReg _ _ | .mulReg _ _ | .divReg _ _ => none
  | .movImm _ _ | .addImm _ _ | .subImm _ _ | .andImm _ _ | .orImm _ _ | .xorImm _ _ | .shlImm _ _ | .shrImm _ _
  | .cmpImm _ _ | .mulImm _ _ | .divImm _ _ => none
  | .notReg _ | .popReg _ | .sivrReg _ | .memrRegReg _ _ _ | .memrImmReg _ _ _ => none
  | .jmpReg _ _ | .jmprReg _ _ | .jmpImm _ _ | .jmprImm _ _ => none
  | .ret | .hiret | .acti | .dacti | .nop => none

/-! ## Outcomes under a change of state -/

/-- A fault whose state left behind is changed. -/
def Fault.mapLeft (f : State → State) : Fault → Fault
  | .decodeInvalid a b s => .decodeInvalid a b (f s)
  | .decodeMalformed a w s => .decodeMalformed a w (f s)
  | .bounds a n s => .bounds a n (f s)
  | .permission a k s => .permission a k (f s)
  | .noExecute a s => .noExecute a (f s)
  | .pageNotAvailable a s => .pageNotAvailable a (f s)
  | .accessDenied a s => .accessDenied a (f s)
  | .overflow v n s => .overflow v n (f s)
  | .arithmetic s => .arithmetic (f s)
  | .init a s => .init a (f s)

/-- An outcome whose states are changed. -/
def mapOutcome (f : State → State) : Host.Outcome State Fault Refusal → Host.Outcome State Fault Refusal
  | .next s => .next (f s)
  | .fault r => .fault (r.mapLeft f)
  | .refused r => .refused r

end Sys2Proof.Machine
end

