-- ==== Sys2Proof/Certificates/Slice0/Obligations.lean ====
section
/-! DEFINITION. The statements for the provers, from the numbered rules of spec/. `exec i s` runs an instruction in a
state that already holds the advanced I (40_step_and_fetch.md R151), and `s.Quiet` says that no other agent acts. Where
a docstring says "whatever the other agents do", their acts are those of the field `agenda`, the model's own rendering of
concurrency (log 3, log 13). Where an instruction has several forms, a statement about it is over all of them. -/

open Sys2Proof Sys2Proof.Machine

/-! ## Encoding -/

/-- R117: under every codec that meets `Codec.Ok`, decoding is a left inverse of encoding for every well-formed
instruction, whatever follows it in memory; the encoding has the declared length, and writes zero into every bit outside
the fields of its form. R124: the reference codec encodes every instruction as the byte string of its form. -/
def Obligations.DecodeOfEncodeIsIdentity : Prop :=
  (∀ c : Codec, c.Ok → ∀ (i : Instr) (rest : List Byte), WellFormed i = true →
    ∃ bs F, c.encode i = some bs ∧ c.decode (bs ++ rest) = .ok (i, rest) ∧ bs.length = i.length ∧
      F ∈ c.forms ∧ F.form = i.form ∧ beValue bs &&& F.fieldBits = beValue bs) ∧
  (∀ i : Instr, Codec.reference.encode i = some (encode i))

/-- R115: a word of a form decodes exactly when the form has no width field or the field is 1 to 4; any other width makes
it malformed, and a fetch that reads it, translated or not, raises the fault with the address and the word. -/
def Obligations.WidthFieldDecidesDecoding : Prop :=
  ∀ (c : Codec) (b0 : Byte) (bs : List Byte) (F : FormRow), c.Ok → c.formOf b0 = some F →
    (b0 :: bs).length = F.length →
    let w := beValue (b0 :: bs)
    let legal := ∀ x, F.field? .width w = some x → 1 ≤ x ∧ x ≤ 4
    (legal → ∃ i, c.decode (b0 :: bs) = .ok (i, []) ∧ c.mnemonicOf b0 = some i.mnemonic ∧ i.form = F.form ∧
      WellFormed i = true) ∧
    (¬legal → c.decode (b0 :: bs) = .error (.malformedField w) ∧
      (∀ (s t u : State) (a : Nat), s.params.codec = c → fetchFirst a s = .ok (b0, t) →
        fetchRest a F.length t = .ok (bs, u) → fetch a s = .error (.decodeMalformed a w u)) ∧
      ∀ (s : State) (a : Nat), s.params.codec = c → s.Quiet → s.vmr = 0 → CellsAllow s .execute a F.length →
        s.bytesAt a F.length = b0 :: bs → fetch a s = .error (.decodeMalformed a w s))

/-- R127: the first bytes that are illegal in the reference table, by their ranges; decoding refuses exactly those, and a
step that fetches one, translated or not, raises "invalid instruction" with its address and the byte. With translation off
nothing changes. -/
def Obligations.UnlistedFirstByteIsInvalid : Prop :=
  ∀ b0 : Byte,
    let n := b0.toNat
    let illegal := n ≤ 0x0F ∨ (0xB0 ≤ n ∧ n ≤ 0xEF) ∨ (0x1B ≤ n ∧ n ≤ 0x1F) ∨ (0x2B ≤ n ∧ n ≤ 0x2F) ∨
      (0x36 ≤ n ∧ n ≤ 0x3F) ∨ n = 0x40 ∨ n = 0x43 ∨ (0x45 ≤ n ∧ n ≤ 0x4F) ∨ (0x53 ≤ n ∧ n ≤ 0x5F) ∨
      (0x63 ≤ n ∧ n ≤ 0x6F) ∨ (0x72 ≤ n ∧ n ≤ 0x7F) ∨ (0x82 ≤ n ∧ n ≤ 0x8F) ∨ n = 0x90 ∨ (0x92 ≤ n ∧ n ≤ 0x9F) ∨
      n = 0xA0 ∨ (0xA2 ≤ n ∧ n ≤ 0xAF) ∨ (0xF4 ≤ n ∧ n ≤ 0xFE)
    (illegal ↔ Codec.reference.formOf b0 = none) ∧
    (illegal → ∀ rest, Codec.reference.decode (b0 :: rest) = .error (.invalidInstruction b0)) ∧
    (illegal → ∀ s t : State, s.params.codec = Codec.reference → fetchFirst s.pc.toNat s = .ok (b0, t) →
      step s = .fault (.decodeInvalid s.pc.toNat b0 t)) ∧
    (illegal → ∀ s : State, s.params.codec = Codec.reference → s.Quiet → s.vmr = 0 →
      CellsAllow s .execute s.pc.toNat 1 → s.byteAt s.pc.toNat = b0 → step s = .fault (.decodeInvalid s.pc.toNat b0 s))

/-- R116: the first byte alone fixes the length, which is 1, 2, 3, 5, 6 or 10 and the length of the form it selects, and
decoding takes exactly that many bytes. -/
def Obligations.FirstByteFixesLength : Prop :=
  ∀ (c : Codec) (bs rest bs' rest' : List Byte) (i i' : Instr), c.Ok → c.decode bs = .ok (i, rest) →
    c.decode bs' = .ok (i', rest') →
    i.length ∈ [1, 2, 3, 5, 6, 10] ∧ (bs.head? = bs'.head? → i.length = i'.length) ∧
      ∃ taken b0 F, bs = taken ++ rest ∧ taken.length = i.length ∧ taken.head? = some b0 ∧ c.formOf b0 = some F ∧
        F.form = i.form ∧ F.length = i.length

/-- R128 (with R113): words of one form that agree on the field bits decode alike, so padding bits do not matter. -/
def Obligations.PaddingBitsAreIgnored : Prop :=
  ∀ (c : Codec) (b0 : Byte) (bs bs' : List Byte) (F : FormRow), c.formOf b0 = some F → (b0 :: bs).length = F.length →
    (b0 :: bs').length = F.length → beValue (b0 :: bs) &&& F.fieldBits = beValue (b0 :: bs') &&& F.fieldBits →
    ∀ i, c.decode (b0 :: bs) = .ok (i, []) → c.decode (b0 :: bs') = .ok (i, [])

/-- The example words of 95_test_vectors.md section 2.1, one for each form, written out from R124, under the reference
codec. -/
def Obligations.SampleWordsDecode : Prop :=
  decode [0xFF] = .ok (.nop, []) ∧
  decode [0x11, 0x10] = .ok (.addReg .B .A, []) ∧
  decode [0x20, 0x00, 0x00, 0x00, 0xFF, 0x01] = .ok (.movImm 0xFF .B, []) ∧
  decode [0x33, 0x01] = .ok (.popReg .B, []) ∧
  decode [0x41, 0x40, 0x00, 0x01, 0x00] = .ok (.callImm 0x40000100, []) ∧
  decode [0x52, 0x11] = .ok (.sfstorReg 0b001 .B, []) ∧
  decode [0x60, 0x04, 0x40, 0x00, 0x00, 0x20] = .ok (.jmpImm 0b100 0x40000020, []) ∧
  decode [0x70, 0x04, 0x00] = .ok (.memrRegReg 4 .A .A, []) ∧
  decode [0x80, 0x40, 0x00, 0x01, 0x00, 0x22] = .ok (.memrImmReg 2 0x40000100 .C, []) ∧
  decode [0x91, 0x40, 0x40, 0x00, 0x02, 0x00] = .ok (.memwRegImm 4 .A 0x40000200, []) ∧
  decode [0xA1, 0x04, 0xDE, 0xAD, 0xBE, 0xEF, 0x40, 0x00, 0x01, 0x00] = .ok (.memwImmImm 4 0xDEADBEEF 0x40000100, [])

/-! ## The step and fetch -/

/-- R151: whatever the fetch answers, I is set to the next address before the instruction runs, and the interrupt check
comes last. With translation off, when the `n` executable cells at I decode to an instruction, it is the one that runs, in
a state in which I alone has changed. The parameters meet R8 and the codec encodes every instruction (`Params.Ok`). -/
def Obligations.StepRunsDecodedInstruction : Prop :=
  (∀ (s t : State) (i : Instr) (next : Word), s.params.Ok → fetch s.pc.toNat s = .ok ((i, next), t) →
    next = s.pc + BitVec.ofNat 32 i.length ∧ step s = thenInterruptCheck (exec i (t.setPc next))) ∧
  (∀ (s : State) (n : Nat) (i : Instr), s.params.Ok → s.Quiet → s.vmr = 0 → CellsAllow s .execute s.pc.toNat n →
    s.params.codec.decode (s.bytesAt s.pc.toNat n) = .ok (i, []) →
    n = i.length ∧ step s = thenInterruptCheck (exec i (s.setPc (s.pc + BitVec.ofNat 32 i.length))))

/-- R152, R73, R74, R76: the same with translation on, when the entry of every byte's page can be had, from the TLB or from
the table, with E and A set and P clear or the unit privileged. The bytes come from the translated addresses; the pages
missed are filled in the TLB, and where none is missed the state is as it was: then neither the table in memory nor VMR's
value matters. -/
def Obligations.TranslatedStepRunsDecodedInstruction : Prop :=
  ∀ (s : State) (n : Nat) (i : Instr) (bs : List Byte), Inv s → s.Quiet → s.vmr ≠ 0 → bs.length = n →
    (∀ k < n, EntryReadable s (s.pc.toNat + k) ∧ EntryPermits s.priv (s.entryAt (s.pc.toNat + k))) →
    (∀ k < n, CellsAllow s .execute (s.physicalAt (s.pc.toNat + k)) 1 ∧
      bs[k]? = some (s.byteAt (s.physicalAt (s.pc.toNat + k)))) →
    s.params.codec.decode bs = .ok (i, []) →
    ∃ t, TlbFilled s t s.pc.toNat n ∧ ((∀ k < n, (s.tlbLookup (s.pc.toNat + k)).isSome = true) → t = s) ∧
      step s = thenInterruptCheck (exec i (t.setPc (s.pc + BitVec.ofNat 32 i.length)))

/-- R152, R303, R320: with translation on, the step checks the page of the byte at I before it reads that byte, and then
the pages of the instruction's other bytes before it reads any of them. A page without E, without A, or with P for an
unprivileged unit is a `NoExecute`, `PageNotAvailable` or `AccessDenied` at the first such byte, the three in that order of
priority within each of the two phases (R72), and the TLB alone has changed. A first page whose entry cannot be read on the bus is
the fault of that read, which changes nothing (R76). -/
def Obligations.TranslatedStepMakesAccessCheck : Prop :=
  ∀ (s : State), Inv s → s.Quiet → s.vmr ≠ 0 →
    let a := s.pc.toNat
    let e := fun k => s.entryAt (a + k)
    let stops := fun (n : Nat) (fault : State → Fault) => ∃ t, TlbFilled s t a n ∧ step s = .fault (fault t)
    (EntryReadable s a →
      ((e 0).getLsbD 15 = false → stops 1 (.noExecute a)) ∧
      ((e 0).getLsbD 15 = true → (e 0).getLsbD 13 = false → stops 1 (.pageNotAvailable a)) ∧
      ((e 0).getLsbD 15 = true → (e 0).getLsbD 13 = true → (e 0).getLsbD 14 = true → s.priv = false →
        stops 1 (.accessDenied a))) ∧
    (¬EntryReadable s a → ∃ r, step s = .fault r ∧ AccessFault .read s (s.vmr.toNat + a / 2 ^ 19 * 2) 2 r) ∧
    (∀ F, EntryPermits s.priv (e 0) → CellsAllow s .execute (s.physicalAt a) 1 →
      s.params.codec.formOf (s.byteAt (s.physicalAt a)) = some F → (∀ k < F.length, EntryReadable s (a + k)) →
      ∀ k, 1 ≤ k → k < F.length →
        ((e k).getLsbD 15 = false → (∀ j, 1 ≤ j → j < k → (e j).getLsbD 15 = true) →
          stops F.length (.noExecute (a + k))) ∧
        ((∀ j, 1 ≤ j → j < F.length → (e j).getLsbD 15 = true) → (e k).getLsbD 13 = false →
          (∀ j, 1 ≤ j → j < k → (e j).getLsbD 13 = true) → stops F.length (.pageNotAvailable (a + k))) ∧
        ((∀ j, 1 ≤ j → j < F.length → (e j).getLsbD 15 = true ∧ (e j).getLsbD 13 = true) → s.priv = false →
          (e k).getLsbD 14 = true → (∀ j, 1 ≤ j → j < k → (e j).getLsbD 14 = false) →
          stops F.length (.accessDenied (a + k))))

/-- R76: the entry of a virtual address: from the TLB if it holds the page; else the 2-byte word at
`VMR + (va >> 19) * 2`, which fills the TLB; the table read is a bus read, with its faults. An address of 2^32 or more has
no entry (R152). -/
def Obligations.EntryComesFromTlbElseTable : Prop :=
  ∀ (s : State) (vmr : Word) (va : Nat), s.Quiet →
    let at_ := vmr.toNat + va / 2 ^ 19 * 2
    (2 ^ 32 ≤ va → tableEntry vmr va s = .error (.bounds va 1 s)) ∧
    (va < 2 ^ 32 → ∀ e, s.tlbLookup va = some e → tableEntry vmr va s = .ok (e.entry, s)) ∧
    (va < 2 ^ 32 → s.tlbLookup va = none → Accessible s .read at_ 2 →
      ∃ e t, tableEntry vmr va s = .ok (e, t) ∧ e.toNat = s.valueAt at_ 2 ∧ t = s.setTlb t.tlb ∧
        ∀ x, t.tlbLookup x =
          if x / 2 ^ 19 = va / 2 ^ 19 then some ⟨BitVec.ofNat 32 ((e.toNat % 2 ^ 13) * 2 ^ 19), e⟩ else s.tlbLookup x) ∧
    (va < 2 ^ 32 → s.tlbLookup va = none → ¬Accessible s .read at_ 2 →
      ∃ r, tableEntry vmr va s = .error r ∧ AccessFault .read s at_ 2 r)

/-- R73: the physical address under an entry, and the TLB after a translation. -/
def Obligations.TranslationIsPageBasePlusOffset : Prop :=
  ∀ (s t : State) (vmr : Word) (va pa : Nat), translate vmr va s = .ok (pa, t) →
    ∃ e u, tableEntry vmr va s = .ok (e, u) ∧ pa = (e.toNat % 2 ^ 13) * 2 ^ 19 + va % 2 ^ 19 ∧ pa < 2 ^ 32 ∧
      t.tlbLookup va = some ⟨BitVec.ofNat 32 ((e.toNat % 2 ^ 13) * 2 ^ 19), e⟩

/-- R72: the order of the checks. Every entry is read first, in list order; then every missing E of the execute list, then
every missing A of both lists, then every P that an unprivileged unit meets, each pass in list order. -/
def Obligations.AccessChecksRunInPriorityOrder : Prop :=
  ∀ (privileged : Bool) (execs avails : List Nat) (vmr : Word) (s : State),
    let all := execs ++ avails.filter fun a => decide (a ∉ execs)
    (vmr = 0 → validateAccess privileged execs avails vmr s = .ok s) ∧
    (vmr ≠ 0 → ∀ r, tableEntries vmr all s = .error r → validateAccess privileged execs avails vmr s = .error r) ∧
    (vmr ≠ 0 → ∀ (e : Nat → BitVec 16) (t : State), tableEntries vmr all s = .ok (all.map fun a => (a, e a), t) →
      (∀ a, execs.find? (fun a => (e a).getLsbD 15 == false) = some a →
        validateAccess privileged execs avails vmr s = .error (.noExecute a t)) ∧
      ((∀ a ∈ execs, (e a).getLsbD 15 = true) → ∀ a, all.find? (fun a => (e a).getLsbD 13 == false) = some a →
        validateAccess privileged execs avails vmr s = .error (.pageNotAvailable a t)) ∧
      ((∀ a ∈ execs, (e a).getLsbD 15 = true) → (∀ a ∈ all, (e a).getLsbD 13 = true) →
        (∀ a, privileged = false → all.find? (fun a => (e a).getLsbD 14) = some a →
          validateAccess privileged execs avails vmr s = .error (.accessDenied a t)) ∧
        (privileged = true ∨ (∀ a ∈ all, (e a).getLsbD 14 = false) →
          validateAccess privileged execs avails vmr s = .ok t)))

/-- R160: the host's fetch port is the fetch of the step at any address; whether it answers or faults, it changes no
register, no FLAGS and no memory, but the TLB, and the TLB only when VMR is not 0. -/
def Obligations.FetchPortChangesOnlyTlb : Prop :=
  ∀ (s : State) (a : Nat), s.Quiet → fetchInstructionAtAddress a s = fetch a s ∧
    (∀ x t, fetchInstructionAtAddress a s = .ok (x, t) → t = s.setTlb t.tlb ∧ (s.vmr = 0 → t.tlb = s.tlb)) ∧
    (∀ r, fetchInstructionAtAddress a s = .error r →
      r.left = s.setTlb r.left.tlb ∧ (s.vmr = 0 → r.left.tlb = s.tlb))

/-- R302: where I stands after a fault. In fetch, nothing has changed but the TLB, and I is the instruction's address;
while the instruction runs, I is already the next address, and the code is 3, 4, 8 or 9. -/
def Obligations.FaultsLeaveInstructionPointer : Prop :=
  (∀ (s : State) (r : Fault), s.Quiet → fetch s.pc.toNat s = .error r →
    step s = .fault r ∧ r.left = s.setTlb r.left.tlb ∧ 1 ≤ r.code ∧ r.code ≤ 7) ∧
  (∀ (s t : State) (i : Instr) (next : Word) (r : Fault), s.params.Ok → fetch s.pc.toNat s = .ok ((i, next), t) →
    exec i (t.setPc next) = .fault r →
    step s = .fault r ∧ r.left.pc = s.pc + BitVec.ofNat 32 i.length ∧
      (r.code = 3 ∨ r.code = 4 ∨ r.code = 8 ∨ r.code = 9))

/-- R153: a fetch byte comes from a cell of the MemoryArray whose X bit is set; the R bit is not looked at. -/
def Obligations.FetchByteReadsExecutableCells : Prop :=
  ∀ (s : State) (p : Nat), s.Quiet →
    (¬(s.params.memoryStart ≤ p ∧ p < s.params.memoryEnd) → fetchByte s p = .error (.bounds p 1 s)) ∧
    (s.params.memoryStart ≤ p ∧ p < s.params.memoryEnd → (s.permsAt p).x = false →
      fetchByte s p = .error (.permission p .execute s)) ∧
    (s.params.memoryStart ≤ p ∧ p < s.params.memoryEnd → (s.permsAt p).x = true → fetchByte s p = .ok (s.byteAt p, s))

/-- R155: the two decode faults of a fetch, translated or not, with I unchanged; and, with translation off, the fault of
an instruction that would run past MEMORY_END, with nothing changed. -/
def Obligations.UndecodableFetchFaults : Prop :=
  (∀ (s t : State) (a : Nat) (b0 : Byte), fetchFirst a s = .ok (b0, t) →
    (s.params.codec.formOf b0 = none → fetch a s = .error (.decodeInvalid a b0 t) ∧ t.pc = s.pc) ∧
    (∀ (F : FormRow) (x : Nat) (bs : List Byte) (u : State), s.params.codec.formOf b0 = some F →
      fetchRest a F.length t = .ok (bs, u) → F.field? .width (beValue (b0 :: bs)) = some x → ¬(1 ≤ x ∧ x ≤ 4) →
      fetch a s = .error (.decodeMalformed a (beValue (b0 :: bs)) u) ∧ u.pc = s.pc)) ∧
  ∀ (s : State) (a : Nat) (b0 : Byte), s.params.Ok → s.Quiet → s.vmr = 0 → CellsAllow s .execute a 1 →
    s.byteAt a = b0 →
    (s.params.codec.formOf b0 = none → fetch a s = .error (.decodeInvalid a b0 s)) ∧
    (∀ F, s.params.codec.formOf b0 = some F →
      (∀ x, CellsAllow s .execute a F.length → F.field? .width (beValue (s.bytesAt a F.length)) = some x →
        ¬(1 ≤ x ∧ x ≤ 4) → fetch a s = .error (.decodeMalformed a (beValue (s.bytesAt a F.length)) s)) ∧
      (∀ k < F.length, a + k = s.params.memoryEnd → CellsAllow s .execute a k →
        fetch a s = .error (.bounds s.params.memoryEnd 1 s)))

/-! ## Interrupts -/

/-- R310: a signal is accepted when IE = 1 and the slot is empty; otherwise it fails and changes nothing. -/
def Obligations.SignalFillsEmptySlot : Prop :=
  ∀ (s : State) (v : Word),
    (s.ie = true ∧ s.pend = none → signalHardwareInterrupt v s = (true, s.setPend (some v))) ∧
    (¬(s.ie = true ∧ s.pend = none) → signalHardwareInterrupt v s = (false, s))

/-- R311, R315: entering a hardware interrupt. With a vector pending and IE = 1, FLAGS is pushed, the handler address is
read at `IVR + 4*v`, I is pushed, I becomes the handler address, FLAGS 0, IE 0, PEND none. Otherwise nothing happens.
Where an access of the entry is not possible the check faults, with IE = 0 and the vector still pending. -/
def Obligations.InterruptCheckEntersHandler : Prop :=
  ∀ (s : State), s.Quiet →
    (s.pend = none ∨ s.ie = false → interruptCheck s = .ok s) ∧
    (∀ v, s.pend = some v → s.ie = true →
      let a1 := (s.reg .S + 4).toNat
      let vec := s.ivr.toNat + 4 * v.toNat
      let a2 := (s.reg .S + 8).toNat
      (Accessible s .write a1 4 ∧ Accessible s .read vec 4 ∧ Accessible s .write a2 4 →
        ∃ m t, interruptCheck s = .ok t ∧ Stored s.params.unitTag s m a1 4 s.flags.toNat ∧
          Stored s.params.unitTag m t a2 4 s.pc.toNat ∧ t.pc.toNat = m.valueAt vec 4 ∧ t.flags = 0 ∧ t.ie = false ∧
          t.pend = none ∧ t.reg .S = s.reg .S + 8 ∧ RegsExcept s t [.S] ∧ t.ivr = s.ivr ∧ t.vmr = s.vmr ∧
          t.priv = s.priv ∧ t.agenda = s.agenda) ∧
      (¬(Accessible s .write a1 4 ∧ Accessible s .read vec 4 ∧ Accessible s .write a2 4) →
        ∃ r, interruptCheck s = .error r ∧ r.left.ie = false ∧ r.left.pend = some v ∧ (r.code = 3 ∨ r.code = 4)))

/-- R310, R313, R354: while IE = 0, no act of another agent changes the unit's PEND: not at the interrupt check, not in a
fetch, and not in an instruction, whether it answers or faults, ACTI and HIRET included, whose write of IE comes last. A
signal that lands once IE is 1 and before the check (after HIRET's own IE write, say) is taken by it. -/
def Obligations.SignalsReachEnabledUnitOnly : Prop :=
  (∀ (s : State), s.ie = false → ∃ t, interruptCheck s = .ok t ∧ SameUnit s t ∧ t.pend = s.pend) ∧
  (∀ (s : State) (a : Nat), s.ie = false →
    (∀ x t, fetch a s = .ok (x, t) → SameUnit s t ∧ t.pend = s.pend) ∧
    (∀ r, fetch a s = .error r → SameUnit s r.left ∧ r.left.pend = s.pend)) ∧
  (∀ (i : Instr) (s : State), s.ie = false →
    (∀ t, exec i s = .next t → t.pend = s.pend) ∧ (∀ r, exec i s = .fault r → r.left.pend = s.pend)) ∧
  (∀ (s : State) (v : Word), s.agenda = [[.signal v]] → s.ie = true → s.pend = none →
    interruptCheck s = takeHardwareInterrupt v ((s.setAgenda []).setPend (some v)))

/-- R316: entering a hardware interrupt and returning with HIRET, on a stack of cells, restores every register, I and
FLAGS and sets IE; `p` is whatever I holds when HIRET runs. The parameters meet R8: under a MEMORY_END above 2^32 the eight
cells above S could lie past 2^32, where S wraps. -/
def Obligations.HiretUndoesInterruptEntry : Prop :=
  ∀ (s : State) (v p : Word), s.params.Ok → s.Quiet → s.pend = some v → s.ie = true →
    CellsAllow s .write ((s.reg .S).toNat + 4) 8 → CellsAllow s .read ((s.reg .S).toNat + 4) 8 →
    Accessible s .read (s.ivr.toNat + 4 * v.toNat) 4 →
    ∃ t u, interruptCheck s = .ok t ∧ exec .hiret (t.setPc p) = .next u ∧ (∀ q, u.reg q = s.reg q) ∧ u.pc = s.pc ∧
      u.flags = s.flags ∧ u.ie = true ∧ u.pend = none ∧ u.ivr = s.ivr

/-- R233: HIRET pops I, then FLAGS (its low 3 bits), restores A and sets IE; where a pop faults, the state left says which
one. -/
def Obligations.HiretRestoresSavedState : Prop :=
  ∀ (s : State), s.Quiet →
    let a1 := (s.reg .S).toNat
    let a2 := (s.reg .S - 4).toNat
    (Accessible s .read a1 4 ∧ Accessible s .read a2 4 →
      ∃ t, exec .hiret s = .next t ∧ t.pc.toNat = s.valueAt a1 4 ∧ t.flags.toNat = s.valueAt a2 4 % 8 ∧ t.ie = true ∧
        t.reg .S = s.reg .S - 8 ∧ RegsExcept s t [.S] ∧ t.pend = s.pend ∧ t.ivr = s.ivr ∧ t.vmr = s.vmr ∧
        t.priv = s.priv ∧ t.agenda = s.agenda ∧ SameShared s t) ∧
    (¬Accessible s .read a1 4 → ∃ r, exec .hiret s = .fault r ∧ AccessFault .read s a1 4 r) ∧
    (Accessible s .read a1 4 → ¬Accessible s .read a2 4 →
      ∃ r, exec .hiret s = .fault r ∧
        AccessFault .read ((s.setReg .A (BitVec.ofNat 32 (s.valueAt a1 4))).setReg .S (s.reg .S - 4)) a2 4 r)

/-- R231: a fetched INT does nothing but clear FLAGS while IE = 0; with IE = 1 it calls the handler of its vector, IE as
before. The hardware-sourced one does so whatever IE is, with FLAGS pushed below the return address. Pushes made before a
fault stay. -/
def Obligations.IntCallsHandler : Prop :=
  ∀ (s : State) (v : Word), s.Quiet →
    let a1 := (s.reg .S + 4).toNat
    let a2 := (s.reg .S + 8).toNat
    let vec := s.ivr.toNat + 4 * v.toNat
    (∀ i, (∃ r, i = .intReg r ∧ v = s.reg r) ∨ i = .intImm v →
      (s.ie = false → exec i s = .next (s.setFlags 0)) ∧
      (s.ie = true → Accessible s .read vec 4 → Accessible s .write a1 4 →
        ∃ t, exec i s = .next t ∧ t.pc.toNat = s.valueAt vec 4 ∧ t.reg .S = s.reg .S + 4 ∧ RegsExcept s t [.S] ∧
          t.flags = 0 ∧ SameControl s t ∧ Stored s.params.unitTag s t a1 4 s.pc.toNat) ∧
      (s.ie = true → ¬Accessible s .read vec 4 → ∃ r, exec i s = .fault r ∧ AccessFault .read s vec 4 r) ∧
      (s.ie = true → Accessible s .read vec 4 → ¬Accessible s .write a1 4 →
        ∃ r, exec i s = .fault r ∧ AccessFault .write (s.setReg .S (s.reg .S + 4)) a1 4 r)) ∧
    (Accessible s .write a1 4 → Accessible s .read vec 4 → Accessible s .write a2 4 →
      ∃ m t, enterHandler true v s = .ok t ∧ Stored s.params.unitTag s m a1 4 s.flags.toNat ∧
        Stored s.params.unitTag m t a2 4 s.pc.toNat ∧ t.pc.toNat = m.valueAt vec 4 ∧ t.reg .S = s.reg .S + 8 ∧
        RegsExcept s t [.S] ∧ SameControl s t) ∧
    (¬Accessible s .write a1 4 →
      ∃ r, enterHandler true v s = .error r ∧ AccessFault .write (s.setReg .S (s.reg .S + 4)) a1 4 r) ∧
    (Accessible s .write a1 4 → ¬Accessible s .read vec 4 →
      ∃ m r, enterHandler true v s = .error r ∧ Stored s.params.unitTag s m a1 4 s.flags.toNat ∧
        m.reg .S = s.reg .S + 4 ∧ AccessFault .read m vec 4 r) ∧
    (Accessible s .write a1 4 → Accessible s .read vec 4 → ¬Accessible s .write a2 4 →
      ∃ m r, enterHandler true v s = .error r ∧ Stored s.params.unitTag s m a1 4 s.flags.toNat ∧
        m.reg .S = s.reg .S + 8 ∧ AccessFault .write m a2 4 r)

/-! ## Data processing -/

/-- R181: MOV copies the source. -/
def Obligations.MovCopiesSource : Prop :=
  ∀ (s : State) (i : Instr) (d : Reg) (v : Word), ((∃ r, i = .movReg r d ∧ v = s.reg r) ∨ i = .movImm v d) →
    ∃ t, exec i s = .next t ∧ WritesOnly s t d v

/-- R182, R183: ADD writes the sum and SUB destination minus source, modulo 2^32; both clear FLAGS. -/
def Obligations.AddAndSubWrapModulo32 : Prop :=
  ∀ (s : State) (d : Reg) (v : Word),
    (∀ i, (∃ r, i = .addReg r d ∧ v = s.reg r) ∨ i = .addImm v d →
      ∃ t x, exec i s = .next t ∧ WritesOnly s t d x ∧ x.toNat = ((s.reg d).toNat + v.toNat) % 2 ^ 32) ∧
    (∀ i, (∃ r, i = .subReg r d ∧ v = s.reg r) ∨ i = .subImm v d →
      ∃ t x, exec i s = .next t ∧ WritesOnly s t d x ∧
        (x.toNat : Int) = (((s.reg d).toNat : Int) - v.toNat) % 2 ^ 32)

/-- R184, R185, R186: AND, OR and XOR, bit by bit. -/
def Obligations.LogicalOperationsAreBitwise : Prop :=
  ∀ (s : State) (i : Instr) (d : Reg) (v : Word) (f : Bool → Bool → Bool),
    (((∃ r, i = .andReg r d ∧ v = s.reg r) ∨ i = .andImm v d) ∧ f = Bool.and) ∨
    (((∃ r, i = .orReg r d ∧ v = s.reg r) ∨ i = .orImm v d) ∧ f = Bool.or) ∨
    (((∃ r, i = .xorReg r d ∧ v = s.reg r) ∨ i = .xorImm v d) ∧ f = Bool.xor) →
    ∃ t x, exec i s = .next t ∧ WritesOnly s t d x ∧
      ∀ k < 32, x.getLsbD k = f ((s.reg d).getLsbD k) (v.getLsbD k)

/-- R187, R188: SHL and SHR by an unmasked count, as arithmetic on unbounded integers; any count of 32 or more gives 0. -/
def Obligations.ShiftCountsAreNotMasked : Prop :=
  ∀ (s : State) (d : Reg) (v : Word),
    (∀ i, (∃ r, i = .shlReg r d ∧ v = s.reg r) ∨ i = .shlImm v d →
      ∃ t x, exec i s = .next t ∧ WritesOnly s t d x ∧ x.toNat = ((s.reg d).toNat * 2 ^ v.toNat) % 2 ^ 32 ∧
        (32 ≤ v.toNat → x = 0)) ∧
    (∀ i, (∃ r, i = .shrReg r d ∧ v = s.reg r) ∨ i = .shrImm v d →
      ∃ t x, exec i s = .next t ∧ WritesOnly s t d x ∧ x.toNat = (s.reg d).toNat / 2 ^ v.toNat ∧
        (32 ≤ v.toNat → x = 0))

/-- R189: NOT inverts every bit of its register. -/
def Obligations.NotInvertsEveryBit : Prop :=
  ∀ (s : State) (r : Reg), ∃ t x, exec (.notReg r) s = .next t ∧ WritesOnly s t r x ∧
    ∀ k < 32, x.getLsbD k = !(s.reg r).getLsbD k

/-- R190: CMP writes FLAGS alone: Z, L or H as source minus destination is zero, negative or positive, unsigned. -/
def Obligations.CmpSetsExactlyOneFlag : Prop :=
  ∀ (s : State) (i : Instr) (d : Reg) (v : Word), ((∃ r, i = .cmpReg r d ∧ v = s.reg r) ∨ i = .cmpImm v d) →
    ∃ f : FlagBits, exec i s = .next (s.setFlags f) ∧
      ((v.toNat : Int) - (s.reg d).toNat = 0 → f = 0b100) ∧ ((v.toNat : Int) - (s.reg d).toNat < 0 → f = 0b010) ∧
      ((v.toNat : Int) - (s.reg d).toNat > 0 → f = 0b001)

/-- R191: MUL writes the low 32 bits of the product to A and 0 to B; both operands are read first, and no other register
is written. -/
def Obligations.MulWritesLowProductAndZero : Prop :=
  ∀ (s : State) (i : Instr) (d : Reg) (v : Word), ((∃ r, i = .mulReg r d ∧ v = s.reg r) ∨ i = .mulImm v d) →
    ∃ t, exec i s = .next t ∧ (t.reg .A).toNat = (v.toNat * (s.reg d).toNat) % 2 ^ 32 ∧
      (t.reg .B).toNat = (0xFFFFFFFF00000000 &&& (s.reg d).toNat) % 2 ^ 32 ∧ t.reg .B = 0 ∧
      RegsExcept s t [.A, .B] ∧ t.flags = 0 ∧ t.pc = s.pc ∧ SameControl s t ∧ SameShared s t

/-- R192: DIV divides the source by the destination, quotient to A and remainder to B; a zero divisor is an
`ArithmeticError` that changes nothing. -/
def Obligations.DivDividesSourceByDestination : Prop :=
  ∀ (s : State) (i : Instr) (d : Reg) (v : Word), ((∃ r, i = .divReg r d ∧ v = s.reg r) ∨ i = .divImm v d) →
    (s.reg d = 0 → exec i s = .fault (.arithmetic s)) ∧
    (s.reg d ≠ 0 →
      ∃ t, exec i s = .next t ∧ (t.reg .A).toNat = v.toNat / (s.reg d).toNat ∧
        (t.reg .B).toNat = v.toNat % (s.reg d).toNat ∧ RegsExcept s t [.A, .B] ∧ t.flags = 0 ∧ t.pc = s.pc ∧
        SameControl s t ∧ SameShared s t)

/-! ## Stack and control transfer -/

/-- R210: CALL adds 4 to S, stores the already-advanced I there, and jumps to the target it read first; where the store
faults, S has been incremented and nothing else has changed. -/
def Obligations.CallPushesReturnAddress : Prop :=
  ∀ (s : State) (i : Instr) (v : Word), s.Quiet → ((∃ r, i = .callReg r ∧ v = s.reg r) ∨ i = .callImm v) →
    let a := (s.reg .S + 4).toNat
    (Accessible s .write a 4 → ∃ t, exec i s = .next t ∧ t.pc = v ∧ t.reg .S = s.reg .S + 4 ∧ RegsExcept s t [.S] ∧
      t.flags = 0 ∧ SameControl s t ∧ Stored s.params.unitTag s t a 4 s.pc.toNat) ∧
    (¬Accessible s .write a 4 →
      ∃ r, exec i s = .fault r ∧ AccessFault .write (s.setReg .S (s.reg .S + 4)) a 4 r)

/-- R211: RET jumps to the word at S and subtracts 4 from S; a fault of the read changes nothing. -/
def Obligations.RetPopsReturnAddress : Prop :=
  ∀ (s : State), s.Quiet →
    let a := (s.reg .S).toNat
    (Accessible s .read a 4 → ∃ t, exec .ret s = .next t ∧ t.pc.toNat = s.valueAt a 4 ∧ t.reg .S = s.reg .S - 4 ∧
      RegsExcept s t [.S] ∧ t.flags = 0 ∧ SameControl s t ∧ SameShared s t) ∧
    (¬Accessible s .read a 4 → ∃ r, exec .ret s = .fault r ∧ AccessFault .read s a 4 r)

/-- R212: PUSH adds 4 to S and stores the operand it read first; a faulting store leaves S incremented. -/
def Obligations.PushStoresOperand : Prop :=
  ∀ (s : State) (i : Instr) (v : Word), s.Quiet → ((∃ r, i = .pushReg r ∧ v = s.reg r) ∨ i = .pushImm v) →
    let a := (s.reg .S + 4).toNat
    (Accessible s .write a 4 → ∃ t, exec i s = .next t ∧ t.pc = s.pc ∧ t.reg .S = s.reg .S + 4 ∧ RegsExcept s t [.S] ∧
      t.flags = 0 ∧ SameControl s t ∧ Stored s.params.unitTag s t a 4 v.toNat) ∧
    (¬Accessible s .write a 4 →
      ∃ r, exec i s = .fault r ∧ AccessFault .write (s.setReg .S (s.reg .S + 4)) a 4 r)

/-- R213: POP writes the word at S to its register and then subtracts 4 from S, so POP of S itself leaves the word minus
4; a fault of the read changes nothing. -/
def Obligations.PopLoadsThenDecrements : Prop :=
  ∀ (s : State) (r : Reg), s.Quiet →
    let a := (s.reg .S).toNat
    (Accessible s .read a 4 → ∃ t, exec (.popReg r) s = .next t ∧
      (r ≠ .S → (t.reg r).toNat = s.valueAt a 4 ∧ t.reg .S = s.reg .S - 4) ∧
      (r = .S → t.reg .S = BitVec.ofNat 32 (s.valueAt a 4) - 4) ∧ RegsExcept s t [r, .S] ∧
      t.pc = s.pc ∧ t.flags = 0 ∧ SameControl s t ∧ SameShared s t) ∧
    (¬Accessible s .read a 4 → ∃ e, exec (.popReg r) s = .fault e ∧ AccessFault .read s a 4 e)

/-- R211 and R213, with R212 and C4: CALL then RET gives back I and every register; PUSH then POP of one register gives
back every register, but for S itself, which ends 4 lower. `p` is whatever I holds when the second instruction runs. -/
def Obligations.StackRoundTrips : Prop :=
  ∀ (s : State) (p : Word), s.Quiet → Accessible s .write (s.reg .S + 4).toNat 4 →
    Accessible s .read (s.reg .S + 4).toNat 4 →
    (∀ i, (∃ r, i = .callReg r) ∨ (∃ v, i = .callImm v) →
      ∃ t u, exec i s = .next t ∧ exec .ret (t.setPc p) = .next u ∧ u.pc = s.pc ∧ ∀ q, u.reg q = s.reg q) ∧
    (∀ r, ∃ t u, exec (.pushReg r) s = .next t ∧ exec (.popReg r) (t.setPc p) = .next u ∧ u.pc = p ∧
      (r ≠ .S → ∀ q, u.reg q = s.reg q) ∧ (r = .S → u.reg .S = s.reg .S - 4 ∧ RegsExcept s u [.S]))

/-- R215, with the condition of R214: JMP sets I to its operand if the condition holds, else leaves it; FLAGS is cleared
either way. -/
def Obligations.JmpIsConditionalAbsolute : Prop :=
  ∀ (s : State) (i : Instr) (m : FlagBits) (v : Word),
    ((∃ r, i = .jmpReg m r ∧ v = s.reg r) ∨ i = .jmpImm m v) →
    ∃ t, exec i s = .next t ∧ (CondTrue m s.flags → t.pc = v) ∧ (¬CondTrue m s.flags → t.pc = s.pc) ∧ t.flags = 0 ∧
      RegsExcept s t [] ∧ SameControl s t ∧ SameShared s t

/-- R216: JMPR adds its operand, read as two's complement, to the already-advanced I, modulo 2^32, if the condition
holds. -/
def Obligations.JmprIsConditionalRelative : Prop :=
  ∀ (s : State) (i : Instr) (m : FlagBits) (v : Word),
    ((∃ r, i = .jmprReg m r ∧ v = s.reg r) ∨ i = .jmprImm m v) →
    ∃ t, exec i s = .next t ∧
      (CondTrue m s.flags →
        (t.pc.toNat : Int) =
          ((s.pc.toNat : Int) + (if v.toNat < 2 ^ 31 then (v.toNat : Int) else v.toNat - 2 ^ 32)) % 2 ^ 32) ∧
      (¬CondTrue m s.flags → t.pc = s.pc) ∧ t.flags = 0 ∧ RegsExcept s t [] ∧ SameControl s t ∧ SameShared s t

/-! ## System -/

/-- R234, R235, R237, R238: ACTI, DACTI, SIVR and NOP, each with its one effect and FLAGS cleared. PEND is kept. -/
def Obligations.SystemInstructionsHaveOneEffect : Prop :=
  ∀ (s : State) (r : Reg),
    exec .acti s = .next ((s.setIe true).setFlags 0) ∧ exec .dacti s = .next ((s.setIe false).setFlags 0) ∧
    exec (.sivrReg r) s = .next ((s.setIvr (s.reg r)).setFlags 0) ∧ exec .nop s = .next (s.setFlags 0)

/-- R236: SFSTOR compares its operand with the word at the address in A, stores the operand there if the mask meets that
fresh comparison, leaves A as it was, and returns the comparison in FLAGS. A faulting write leaves the word read in A. -/
def Obligations.SfstorStoresOnFreshComparison : Prop :=
  ∀ (s : State) (i : Instr) (m : FlagBits) (v : Word), s.Quiet →
    ((∃ r, i = .sfstorReg m r ∧ v = s.reg r) ∨ i = .sfstorImm m v) →
    let a := (s.reg .A).toNat
    let f := codeOf v.toNat (s.valueAt a 4)
    (Accessible s .read a 4 → ¬CondTrue m f → exec i s = .next (s.setFlags f)) ∧
    (Accessible s .read a 4 → CondTrue m f → Accessible s .write a 4 →
      ∃ t, exec i s = .next t ∧ t.flags = f ∧ RegsExcept s t [] ∧ t.pc = s.pc ∧ SameControl s t ∧
        Stored s.params.unitTag s t a 4 v.toNat) ∧
    (¬Accessible s .read a 4 → ∃ r, exec i s = .fault r ∧ AccessFault .read s a 4 r) ∧
    (Accessible s .read a 4 → CondTrue m f → ¬Accessible s .write a 4 →
      ∃ r, exec i s = .fault r ∧ AccessFault .write (s.setReg .A (BitVec.ofNat 32 (s.valueAt a 4))) a 4 r)

/-! ## Memory access -/

/-- R260: MEMR loads `w` bytes, zero-extended; a fault changes nothing. -/
def Obligations.MemrLoadsZeroExtended : Prop :=
  ∀ (s : State) (i : Instr) (w : BitVec 4) (d : Reg) (v : Word), s.Quiet → 1 ≤ w.toNat → w.toNat ≤ 4 →
    ((∃ r, i = .memrRegReg w r d ∧ v = s.reg r) ∨ i = .memrImmReg w v d) →
    (Accessible s .read v.toNat w.toNat →
      ∃ t x, exec i s = .next t ∧ WritesOnly s t d x ∧ x.toNat = s.valueAt v.toNat w.toNat ∧ x.toNat < 2 ^ (8 * w.toNat)) ∧
    (¬Accessible s .read v.toNat w.toNat →
      ∃ r, exec i s = .fault r ∧ AccessFault .read s v.toNat w.toNat r)

/-- R261: MEMW stores the low `w` bytes of a value that fits in them; one that does not is an `OverflowError`, never
truncated; no register is written. Nothing changes on a fault. -/
def Obligations.MemwStoresValueThatFits : Prop :=
  ∀ (s : State) (i : Instr) (w : BitVec 4) (v a : Word), s.Quiet → 1 ≤ w.toNat → w.toNat ≤ 4 →
    ((∃ r d, i = .memwRegReg w r d ∧ v = s.reg r ∧ a = s.reg d) ∨ (∃ d, i = .memwImmReg w v d ∧ a = s.reg d) ∨
      (∃ r, i = .memwRegImm w r a ∧ v = s.reg r) ∨ i = .memwImmImm w v a) →
    (2 ^ (8 * w.toNat) ≤ v.toNat → exec i s = .fault (.overflow v.toNat w.toNat s)) ∧
    (v.toNat < 2 ^ (8 * w.toNat) → Accessible s .write a.toNat w.toNat →
      ∃ t, exec i s = .next t ∧ RegsExcept s t [] ∧ t.flags = 0 ∧ t.pc = s.pc ∧ SameControl s t ∧
        Stored s.params.unitTag s t a.toNat w.toNat v.toNat) ∧
    (v.toNat < 2 ^ (8 * w.toNat) → ¬Accessible s .write a.toNat w.toNat →
      ∃ r, exec i s = .fault r ∧ AccessFault .write s a.toNat w.toNat r)

/-! ## The bus -/

/-- R80: a bus read: the length first, then routing, range and permissions; the value is big-endian. -/
def Obligations.BusReadFollowsCheckOrder : Prop :=
  ∀ (s : State) (a n : Nat),
    (¬(1 ≤ n ∧ n ≤ 4) → busRead s a n = .error (.bounds a n s)) ∧
    (1 ≤ n ∧ n ≤ 4 → Accessible s .read a n → busRead s a n = .ok (s.valueAt a n)) ∧
    (1 ≤ n ∧ n ≤ 4 → ¬Accessible s .read a n → ∃ r, busRead s a n = .error r ∧ AccessFault .read s a n r)

/-- R81, R82: a bus write: overflow first, then routing, range and permissions; it stores every byte, with its source as
the last writer of each cell, or faults and changes nothing. -/
def Obligations.BusWriteStoresAllOrNothing : Prop :=
  ∀ (s : State) (a n v : Nat) (source : String),
    (¬(1 ≤ n ∧ n ≤ 4) ∨ 2 ^ (8 * n) ≤ v → busWrite s a n v source = .error (.overflow v n s)) ∧
    (1 ≤ n ∧ n ≤ 4 → v < 2 ^ (8 * n) → Accessible s .write a n →
      ∃ t, busWrite s a n v source = .ok t ∧ Stored source s t a n v ∧ SameUnit s t ∧ t.pend = s.pend) ∧
    (1 ≤ n ∧ n ≤ 4 → v < 2 ^ (8 * n) → ¬Accessible s .write a n →
      ∃ r, busWrite s a n v source = .error r ∧ AccessFault .write s a n r)

/-- R67: a 1-byte read of a 4-byte value gives its most significant byte; a 4-byte read after four 1-byte writes gives
their bytes in address order. -/
def Obligations.MixedWidthAccessesAreBigEndian : Prop :=
  ∀ (s : State) (a : Nat) (source : String), CellsAllow s .read a 4 → CellsAllow s .write a 4 →
    (∀ v < 2 ^ 32, ∃ t, busWrite s a 4 v source = .ok t ∧ busRead t a 1 = .ok (v / 2 ^ 24)) ∧
    (∀ b0 b1 b2 b3 : Byte, ∃ t1 t2 t3 t4, busWrite s a 1 b0.toNat source = .ok t1 ∧
      busWrite t1 (a + 1) 1 b1.toNat source = .ok t2 ∧ busWrite t2 (a + 2) 1 b2.toNat source = .ok t3 ∧
      busWrite t3 (a + 3) 1 b3.toNat source = .ok t4 ∧ busRead t4 a 4 = .ok (b0 ++ b1 ++ b2 ++ b3 : BitVec 32).toNat)

/-- R83: an access that starts in device space goes to the first device that matches its start address, whatever follows
in the list, and is bounded by that device's buffer. R84: with no match it is a `BoundsError`. -/
def Obligations.FirstMatchingDeviceIsUsed : Prop :=
  ∀ (s : State) (a n v : Nat) (source : String), a < s.params.memoryStart → 1 ≤ n ∧ n ≤ 4 → v < 2 ^ (8 * n) →
    ((∀ e ∈ s.devices, a &&& e.mask.toNat ≠ e.start.toNat) →
      busRead s a n = .error (.bounds a n s) ∧ busWrite s a n v source = .error (.bounds a n s)) ∧
    (∀ before d after, s.devices = before ++ d :: after → (∀ e ∈ before, a &&& e.mask.toNat ≠ e.start.toNat) →
      a &&& d.mask.toNat = d.start.toNat →
      (a - d.start.toNat + n ≤ deviceBufferSize s.params.bufferSizing d.mask →
        busRead s a n = .ok (beValue (d.bytesAt (a - d.start.toNat) n)) ∧
        busWrite s a n v source =
          .ok (s.setDevices (before ++ d.store (a - d.start.toNat) (beBytes n v) :: after))) ∧
      (deviceBufferSize s.params.bufferSizing d.mask < a - d.start.toNat + n →
        busRead s a n = .error (.bounds a n s) ∧ busWrite s a n v source = .error (.bounds a n s)))

/-! ## Host ports -/

/-- R340, R342: `reset` zeroes the unit and sets I without a check; `setupCore` checks its argument and sets I alone. R35,
R36, R75: `setVMR` and `setPrivileged` each write their one register and nothing else, the TLB included. -/
def Obligations.ResetAndSetupPorts : Prop :=
  ∀ (s : State),
    (∀ i0, let t := resetUnit i0 s
      (∀ q, t.reg q = 0) ∧ t.flags = 0 ∧ t.ie = false ∧ t.pend = none ∧ t.ivr = 0 ∧ t.vmr = 0 ∧ t.priv = false ∧
        t.pc = i0 ∧ SameShared s t ∧ t.params = s.params ∧ t.agenda = s.agenda) ∧
    (∀ i0 : Nat, s.params.Ok → s.params.memoryStart ≤ i0 ∧ i0 < s.params.memoryEnd →
      ∃ t, setupCore i0 s = .ok t ∧ t.pc.toNat = i0 ∧ t = s.setPc t.pc) ∧
    (∀ i0 : Nat, ¬(s.params.memoryStart ≤ i0 ∧ i0 < s.params.memoryEnd) →
      setupCore i0 s = .error (.init (.address i0) s)) ∧
    (∀ v, (setVMR v s).vmr = v ∧ setVMR v s = { s with vmr := v } ∧ (setVMR v s).tlb = s.tlb) ∧
    (∀ b, (setPrivileged b s).priv = b ∧ setPrivileged b s = { s with priv := b } ∧ (setPrivileged b s).tlb = s.tlb)

/-- R86: a device is added at the end of the list when its start is below MEMORY_START and keeps under its mask; otherwise
it is an `InitError` and nothing is added (which argument the `InitError` records is the model's choice, log 19, and not
said here). Its buffer has, under the default sizing, which reset has, as many bytes as the complement of its mask; the
other sizings are the parameter DEVICE_BUFFER_SIZE of 93_implementation_defined.md item 8. -/
def Obligations.RegisterDeviceChecksPlacement : Prop :=
  ∀ (s : State) (d : Device), State.reset.params.bufferSizing = .complement ∧
    (s.params.bufferSizing = .complement →
      deviceBufferSize s.params.bufferSizing d.mask + d.mask.toNat = 2 ^ 32 - 1) ∧
    (s.params.bufferSizing = .complementPlusOne →
      deviceBufferSize s.params.bufferSizing d.mask + d.mask.toNat = 2 ^ 32) ∧
    (d.start.toNat < s.params.memoryStart ∧ d.start &&& d.mask = d.start →
      registerDevice d s = .ok (s.setDevices (s.devices ++ [d]))) ∧
    (¬(d.start.toNat < s.params.memoryStart ∧ d.start &&& d.mask = d.start) →
      ∃ x, registerDevice d s = .error (.init x s))

/-- R63: a toggle flips one permission bit of one cell and records the actor; no other bit, cell or value changes. -/
def Obligations.TogglePortsFlipOneBit : Prop :=
  ∀ (s : State) (a : Nat) (actor : String) (bit : Access), s.params.memoryStart ≤ a ∧ a < s.params.memoryEnd →
    ∃ t, (match bit with
        | .read => toggleRead a actor s
        | .write => toggleWrite a actor s
        | .execute => toggleExecute a actor s) = .ok t ∧
      (t.permsAt a).allows bit = !(s.permsAt a).allows bit ∧
      (∀ b, b ≠ bit → (t.permsAt a).allows b = (s.permsAt a).allows b) ∧ (∀ x, x ≠ a → t.permsAt x = s.permsAt x) ∧
      t.tagAt a = actor ∧ (∀ x, x ≠ a → t.tagAt x = s.tagAt x) ∧ (∀ x, t.readByte x = s.readByte x) ∧
      SameUnit s t ∧ t.pend = s.pend ∧ t.tlb = s.tlb ∧ t.devices = s.devices

/-- The invariant survives every port of the host (R48), and a binary loaded at any address (R344); a newly built unit
meets it (R341), and so does a booted one. -/
def Obligations.PortsKeepInvariant : Prop :=
  ∀ (s : State), Inv s →
    (∀ i0, Inv (resetUnit i0 s)) ∧ (∀ i0 t, setupCore i0 s = .ok t → Inv t) ∧ (∀ v, Inv (setVMR v s)) ∧
    (∀ b, Inv (setPrivileged b s)) ∧ (∀ v, Inv (signalHardwareInterrupt v s).2) ∧ Inv (tlbFlush s) ∧
    (∀ a n v src t, memoryWriteAtAddressForLength a n v src s = .ok t → Inv t) ∧
    (∀ bit a actor t, togglePort bit a actor s = .ok t → Inv t) ∧
    (∀ d t, d.buffer = [] → registerDevice d s = .ok t → Inv t) ∧
    (∀ a bin src t, loadBinary a bin src s = .ok t → Inv t) ∧
    (∀ a x t, fetchInstructionAtAddress a s = .ok (x, t) → Inv t) ∧
    (∃ t, constructUnit s.params (some newBus) = .ok t ∧ Inv t) ∧
    (∀ devices load bin src priv vmr entry t, (∀ d ∈ devices, d.buffer = []) →
      boot s.params devices load bin src priv vmr entry = .ok t → Inv t)

/-! ## The whole machine -/

/-- The state after reset meets the invariant, the parameters among it: the defaults of R7 meet R8, and the reference codec
encodes every instruction. Its entry address is the model's choice (log 2), its empty TLB too (log 24). -/
def Obligations.ResetMeetsInvariant : Prop := Inv State.reset

/-- Whatever the other agents do, a step from a state of the invariant leads to one, and so does the state a faulting step
leaves: memory and permissions canonical and on cells, TLB entries of existing pages that agree with their raw entries,
devices where R86 allows them with buffers in bounds. -/
def Obligations.StepKeepsInvariant : Prop :=
  ∀ (s : State), Inv s → (∀ t, step s = .next t → Inv t) ∧ (∀ r, step s = .fault r → Inv r.left)

/-- R156: a decoded instruction always has a rule: neither an instruction nor a step is ever refused. -/
def Obligations.DispatchNeverRefuses : Prop :=
  (∀ (i : Instr) (s : State) (x : Refusal), exec i s ≠ .refused x) ∧ ∀ (s : State) (x : Refusal), step s ≠ .refused x

/-- The register frame: an instruction changes no register but its destination and those its rule names (R24, R25),
whatever the other agents do. SFSTOR and HIRET leave A as it was. -/
def Obligations.RegistersOutsideDestinationsKeep : Prop :=
  ∀ (i : Instr) (s t : State), exec i s = .next t → RegsExcept s t (destinations i)

/-- The memory frame: an instruction changes no byte of memory but those it stores to, at the address its own operands
give; permissions and TLB are as before. -/
def Obligations.MemoryOutsideStoreKeeps : Prop :=
  ∀ (i : Instr) (s t : State), s.Quiet → exec i s = .next t →
    (storesTo i s = none → SameShared s t) ∧
    (∀ a n v, storesTo i s = some (a, n, v) → Stored s.params.unitTag s t a n v)

/-- R157: what each instruction commits to FLAGS, and that a faulting one commits nothing. -/
def Obligations.FlagsAreCommitted : Prop :=
  ∀ (i : Instr) (s : State),
    (∀ t, exec i s = .next t →
      match i with
      | .cmpReg r d => t.flags = codeOf (s.reg r).toNat (s.reg d).toNat
      | .cmpImm v d => t.flags = codeOf v.toNat (s.reg d).toNat
      | .sfstorReg _ _ | .sfstorImm _ _ => t.flags = 0b100 ∨ t.flags = 0b010 ∨ t.flags = 0b001
      | .hiret => s.Quiet → t.flags.toNat = s.valueAt (s.reg .S - 4).toNat 4 % 8
      | _ => t.flags = 0) ∧
    (∀ r, exec i s = .fault r → r.left.flags = s.flags)

/-- The control registers change only where the spec says: IE by ACTI, DACTI and HIRET, IVR by SIVR, PEND by no
instruction; VMR and PRIV by no instruction, fault or interrupt (R31, R33, R34, R35, R36, R320); and no step changes the machine's
parameters (log 1). -/
def Obligations.ControlRegistersChangeOnlyByTheirInstructions : Prop :=
  (∀ (i : Instr) (s t : State), exec i s = .next t →
    (t.ie ≠ s.ie → i = .acti ∨ i = .dacti ∨ i = .hiret) ∧ (t.ivr ≠ s.ivr → ∃ r, i = .sivrReg r) ∧
    (s.Quiet → t.pend = s.pend) ∧ (∀ v, s.pend = some v → t.pend = some v)) ∧
  (∀ (s t : State), step s = .next t → t.vmr = s.vmr ∧ t.priv = s.priv ∧ t.params = s.params) ∧
  (∀ (s : State) (r : Fault), step s = .fault r →
    r.left.vmr = s.vmr ∧ r.left.priv = s.priv ∧ r.left.params = s.params)

/-- R162: an instruction that does not redirect I leaves the already-advanced I; those that may are CALL, RET, a JMP or
JMPR whose condition holds, an INT with IE = 1, and HIRET. -/
def Obligations.OnlyControlTransfersMoveI : Prop :=
  ∀ (i : Instr) (s t : State), exec i s = .next t → t.pc ≠ s.pc →
    match i with
    | .callReg _ | .callImm _ | .ret | .hiret => True
    | .jmpReg m _ | .jmpImm m _ | .jmprReg m _ | .jmprImm m _ => CondTrue m s.flags
    | .intReg _ | .intImm _ => s.ie = true
    | _ => False

/-- R77: data accesses are physical and never checked against privilege: VMR and PRIV change neither what an instruction
does nor what the interrupt check does, whatever the other agents do. -/
def Obligations.DataAccessIgnoresTranslation : Prop :=
  ∀ (s : State) (v : Word) (p : Bool),
    let f := fun t : State => (t.setVmr v).setPriv p
    (∀ i, exec i (f s) = mapOutcome f (exec i s)) ∧
    thenInterruptCheck (.next (f s)) = mapOutcome f (thenInterruptCheck (.next s))

/-- R36: PRIV has an effect only while VMR is not 0: with translation off, a step is the same step for either value, and
when no other agent acts, for any contents of the TLB too. -/
def Obligations.PrivMattersOnlyUnderTranslation : Prop :=
  ∀ (s : State), s.vmr = 0 →
    (∀ p, step (s.setPriv p) = mapOutcome (fun t => t.setPriv p) (step s)) ∧
    (s.Quiet → ∀ tlb, step (s.setTlb tlb) = mapOutcome (fun t => t.setTlb tlb) (step s))

/-- R74, R75, R351: when no other agent acts, no step removes or changes a TLB entry, whether it answers or faults (R154: a
faulting fetch keeps its fills), not even one that stores into the page table; only a flush does. -/
def Obligations.TlbEntriesStayUntilFlush : Prop :=
  (∀ (s t : State), Inv s → s.Quiet → step s = .next t →
    ∀ va e, s.tlbLookup va = some e → t.tlbLookup va = some e) ∧
  (∀ (s : State) (r : Fault), Inv s → s.Quiet → step s = .fault r →
    ∀ va e, s.tlbLookup va = some e → r.left.tlbLookup va = some e) ∧
  (∀ (s : State) (va : Nat), (tlbFlush s).tlbLookup va = none ∧ tlbFlush s = s.setTlb [])
end

