-- ==== Sys2Proof/Laws/Bytes.lean ====
section
/-! SUPPORT. The laws of the big-endian helpers (20_memory.md R66): lengths, single bytes, and the round trip between a
value and its bytes. -/

namespace Sys2Proof

theorem beBytes_length (n v : Nat) : (beBytes n v).length = n := by
  induction n with
  | zero => rfl
  | succ n ih => simp [beBytes, ih]

theorem beValue_lt (bs : List Byte) : beValue bs < 256 ^ bs.length := by
  induction bs with
  | nil => simp [beValue]
  | cons b rest ih =>
    have hb : b.toNat ≤ 255 := by have := b.isLt; omega
    have := Nat.mul_le_mul_right (256 ^ rest.length) hb
    simp only [beValue, List.length_cons, Nat.pow_succ]
    omega

/-- Serialising a value and reading it back gives the value modulo the width. -/
theorem beValue_beBytes (n v : Nat) : beValue (beBytes n v) = v % 256 ^ n := by
  induction n with
  | zero => simp [beBytes, beValue, Nat.mod_one]
  | succ n ih =>
    simp only [beBytes, beValue, beBytes_length, ih, BitVec.toNat_ofNat]
    have e : v % 256 ^ (n + 1) = v % 256 ^ n + 256 ^ n * (v / 256 ^ n % 256) := by
      rw [Nat.pow_succ, Nat.mod_mul]
    rw [e, Nat.add_comm, Nat.mul_comm (256 ^ n)]

/-- Reading bytes as a value and serialising it gives the bytes back. -/
theorem beBytes_beValue (bs : List Byte) : beBytes bs.length (beValue bs) = bs := by
  suffices h : ∀ (bs : List Byte) (m : Nat), beBytes bs.length (m * 256 ^ bs.length + beValue bs) = bs by
    simpa using h bs 0
  intro bs
  induction bs with
  | nil => intro m; rfl
  | cons b rest ih =>
    intro m
    have hlt := beValue_lt rest
    have hpos : 0 < 256 ^ rest.length := Nat.pos_of_ne_zero (by simp)
    simp only [List.length_cons, beBytes, beValue]
    have e : m * 256 ^ (rest.length + 1) + (b.toNat * 256 ^ rest.length + beValue rest)
        = (m * 256 + b.toNat) * 256 ^ rest.length + beValue rest := by
      rw [Nat.pow_succ]; ring
    rw [e, ih (m * 256 + b.toNat)]
    congr 1
    rw [Nat.add_comm, Nat.add_mul_div_right _ _ hpos, Nat.div_eq_of_lt hlt, Nat.zero_add]
    apply BitVec.eq_of_toNat_eq
    have := b.isLt
    simp only [BitVec.toNat_ofNat]
    omega

theorem beBytes_get (n v k : Nat) (h : k < n) :
    (beBytes n v)[k]'(by rw [beBytes_length]; exact h) = Machine.storedByte n v k := by
  induction n generalizing k with
  | zero => omega
  | succ n ih =>
    cases k with
    | zero => simp [beBytes, Machine.storedByte]
    | succ k =>
      simp only [beBytes, List.getElem_cons_succ]
      rw [ih k (by omega)]
      simp only [Machine.storedByte]
      congr 3
      omega

end Sys2Proof
end

