-- ==== Sys2Proof/Laws/State.lean ====
section
/-! SUPPORT. One lemma per field per update of State, and reading a register after writing one. -/

namespace Sys2Proof.Machine

theorem Regs.get_put (rs : Regs) (r q : Reg) (v : Word) : (rs.put r v).get q = if q = r then v else rs.get q := by
  cases r <;> cases q <;> rfl

theorem State.reg_setReg (s : State) (r q : Reg) (v : Word) :
    (s.setReg r v).reg q = if q = r then v else s.reg q := Regs.get_put s.regs r q v

@[simp] theorem State.reg_setReg_same (s : State) (r : Reg) (v : Word) : (s.setReg r v).reg r = v := by
  simp [State.reg_setReg]

theorem State.reg_setReg_ne (s : State) {r q : Reg} (v : Word) (h : q ≠ r) : (s.setReg r v).reg q = s.reg q := by
  simp [State.reg_setReg, h]

theorem Regs.put_put (rs : Regs) (r : Reg) (v w : Word) : (rs.put r v).put r w = rs.put r w := by
  cases r <;> rfl

theorem Regs.put_get (rs : Regs) (r : Reg) : rs.put r (rs.get r) = rs := by
  cases r <;> rfl

/-- Register files that read alike are equal. -/
theorem Regs.ext_get {x y : Regs} (h : ∀ q, x.get q = y.get q) : x = y := by
  cases x; cases y
  have hA := h .A; have hB := h .B; have hC := h .C; have hD := h .D
  have hE := h .E; have hF := h .F; have hG := h .G; have hS := h .S
  have hA2 := h .A2; have hB2 := h .B2; have hC2 := h .C2; have hD2 := h .D2
  have hE2 := h .E2; have hF2 := h .F2; have hG2 := h .G2; have hS2 := h .S2
  simp only [Regs.get] at hA hB hC hD hE hF hG hS hA2 hB2 hC2 hD2 hE2 hF2 hG2 hS2
  subst hA hB hC hD hE hF hG hS hA2 hB2 hC2 hD2 hE2 hF2 hG2 hS2
  rfl

@[simp] theorem State.setParams_regs (s : State) (v : Params) : (s.setParams v).regs = s.regs := rfl
@[simp] theorem State.setParams_params (s : State) (v : Params) : (s.setParams v).params = v := rfl
@[simp] theorem State.setParams_pc (s : State) (v : Params) : (s.setParams v).pc = s.pc := rfl
@[simp] theorem State.setParams_flags (s : State) (v : Params) : (s.setParams v).flags = s.flags := rfl
@[simp] theorem State.setParams_ie (s : State) (v : Params) : (s.setParams v).ie = s.ie := rfl
@[simp] theorem State.setParams_pend (s : State) (v : Params) : (s.setParams v).pend = s.pend := rfl
@[simp] theorem State.setParams_ivr (s : State) (v : Params) : (s.setParams v).ivr = s.ivr := rfl
@[simp] theorem State.setParams_vmr (s : State) (v : Params) : (s.setParams v).vmr = s.vmr := rfl
@[simp] theorem State.setParams_priv (s : State) (v : Params) : (s.setParams v).priv = s.priv := rfl
@[simp] theorem State.setParams_mem (s : State) (v : Params) : (s.setParams v).mem = s.mem := rfl
@[simp] theorem State.setParams_perms (s : State) (v : Params) : (s.setParams v).perms = s.perms := rfl
@[simp] theorem State.setParams_tags (s : State) (v : Params) : (s.setParams v).tags = s.tags := rfl
@[simp] theorem State.setParams_tlb (s : State) (v : Params) : (s.setParams v).tlb = s.tlb := rfl
@[simp] theorem State.setParams_devices (s : State) (v : Params) : (s.setParams v).devices = s.devices := rfl
@[simp] theorem State.setParams_agenda (s : State) (v : Params) : (s.setParams v).agenda = s.agenda := rfl
@[simp] theorem State.setPc_regs (s : State) (v : Word) : (s.setPc v).regs = s.regs := rfl
@[simp] theorem State.setPc_params (s : State) (v : Word) : (s.setPc v).params = s.params := rfl
@[simp] theorem State.setPc_pc (s : State) (v : Word) : (s.setPc v).pc = v := rfl
@[simp] theorem State.setPc_flags (s : State) (v : Word) : (s.setPc v).flags = s.flags := rfl
@[simp] theorem State.setPc_ie (s : State) (v : Word) : (s.setPc v).ie = s.ie := rfl
@[simp] theorem State.setPc_pend (s : State) (v : Word) : (s.setPc v).pend = s.pend := rfl
@[simp] theorem State.setPc_ivr (s : State) (v : Word) : (s.setPc v).ivr = s.ivr := rfl
@[simp] theorem State.setPc_vmr (s : State) (v : Word) : (s.setPc v).vmr = s.vmr := rfl
@[simp] theorem State.setPc_priv (s : State) (v : Word) : (s.setPc v).priv = s.priv := rfl
@[simp] theorem State.setPc_mem (s : State) (v : Word) : (s.setPc v).mem = s.mem := rfl
@[simp] theorem State.setPc_perms (s : State) (v : Word) : (s.setPc v).perms = s.perms := rfl
@[simp] theorem State.setPc_tags (s : State) (v : Word) : (s.setPc v).tags = s.tags := rfl
@[simp] theorem State.setPc_tlb (s : State) (v : Word) : (s.setPc v).tlb = s.tlb := rfl
@[simp] theorem State.setPc_devices (s : State) (v : Word) : (s.setPc v).devices = s.devices := rfl
@[simp] theorem State.setPc_agenda (s : State) (v : Word) : (s.setPc v).agenda = s.agenda := rfl
@[simp] theorem State.setFlags_regs (s : State) (v : FlagBits) : (s.setFlags v).regs = s.regs := rfl
@[simp] theorem State.setFlags_params (s : State) (v : FlagBits) : (s.setFlags v).params = s.params := rfl
@[simp] theorem State.setFlags_pc (s : State) (v : FlagBits) : (s.setFlags v).pc = s.pc := rfl
@[simp] theorem State.setFlags_flags (s : State) (v : FlagBits) : (s.setFlags v).flags = v := rfl
@[simp] theorem State.setFlags_ie (s : State) (v : FlagBits) : (s.setFlags v).ie = s.ie := rfl
@[simp] theorem State.setFlags_pend (s : State) (v : FlagBits) : (s.setFlags v).pend = s.pend := rfl
@[simp] theorem State.setFlags_ivr (s : State) (v : FlagBits) : (s.setFlags v).ivr = s.ivr := rfl
@[simp] theorem State.setFlags_vmr (s : State) (v : FlagBits) : (s.setFlags v).vmr = s.vmr := rfl
@[simp] theorem State.setFlags_priv (s : State) (v : FlagBits) : (s.setFlags v).priv = s.priv := rfl
@[simp] theorem State.setFlags_mem (s : State) (v : FlagBits) : (s.setFlags v).mem = s.mem := rfl
@[simp] theorem State.setFlags_perms (s : State) (v : FlagBits) : (s.setFlags v).perms = s.perms := rfl
@[simp] theorem State.setFlags_tags (s : State) (v : FlagBits) : (s.setFlags v).tags = s.tags := rfl
@[simp] theorem State.setFlags_tlb (s : State) (v : FlagBits) : (s.setFlags v).tlb = s.tlb := rfl
@[simp] theorem State.setFlags_devices (s : State) (v : FlagBits) : (s.setFlags v).devices = s.devices := rfl
@[simp] theorem State.setFlags_agenda (s : State) (v : FlagBits) : (s.setFlags v).agenda = s.agenda := rfl
@[simp] theorem State.setIe_regs (s : State) (v : Bool) : (s.setIe v).regs = s.regs := rfl
@[simp] theorem State.setIe_params (s : State) (v : Bool) : (s.setIe v).params = s.params := rfl
@[simp] theorem State.setIe_pc (s : State) (v : Bool) : (s.setIe v).pc = s.pc := rfl
@[simp] theorem State.setIe_flags (s : State) (v : Bool) : (s.setIe v).flags = s.flags := rfl
@[simp] theorem State.setIe_ie (s : State) (v : Bool) : (s.setIe v).ie = v := rfl
@[simp] theorem State.setIe_pend (s : State) (v : Bool) : (s.setIe v).pend = s.pend := rfl
@[simp] theorem State.setIe_ivr (s : State) (v : Bool) : (s.setIe v).ivr = s.ivr := rfl
@[simp] theorem State.setIe_vmr (s : State) (v : Bool) : (s.setIe v).vmr = s.vmr := rfl
@[simp] theorem State.setIe_priv (s : State) (v : Bool) : (s.setIe v).priv = s.priv := rfl
@[simp] theorem State.setIe_mem (s : State) (v : Bool) : (s.setIe v).mem = s.mem := rfl
@[simp] theorem State.setIe_perms (s : State) (v : Bool) : (s.setIe v).perms = s.perms := rfl
@[simp] theorem State.setIe_tags (s : State) (v : Bool) : (s.setIe v).tags = s.tags := rfl
@[simp] theorem State.setIe_tlb (s : State) (v : Bool) : (s.setIe v).tlb = s.tlb := rfl
@[simp] theorem State.setIe_devices (s : State) (v : Bool) : (s.setIe v).devices = s.devices := rfl
@[simp] theorem State.setIe_agenda (s : State) (v : Bool) : (s.setIe v).agenda = s.agenda := rfl
@[simp] theorem State.setPend_regs (s : State) (v : Option Word) : (s.setPend v).regs = s.regs := rfl
@[simp] theorem State.setPend_params (s : State) (v : Option Word) : (s.setPend v).params = s.params := rfl
@[simp] theorem State.setPend_pc (s : State) (v : Option Word) : (s.setPend v).pc = s.pc := rfl
@[simp] theorem State.setPend_flags (s : State) (v : Option Word) : (s.setPend v).flags = s.flags := rfl
@[simp] theorem State.setPend_ie (s : State) (v : Option Word) : (s.setPend v).ie = s.ie := rfl
@[simp] theorem State.setPend_pend (s : State) (v : Option Word) : (s.setPend v).pend = v := rfl
@[simp] theorem State.setPend_ivr (s : State) (v : Option Word) : (s.setPend v).ivr = s.ivr := rfl
@[simp] theorem State.setPend_vmr (s : State) (v : Option Word) : (s.setPend v).vmr = s.vmr := rfl
@[simp] theorem State.setPend_priv (s : State) (v : Option Word) : (s.setPend v).priv = s.priv := rfl
@[simp] theorem State.setPend_mem (s : State) (v : Option Word) : (s.setPend v).mem = s.mem := rfl
@[simp] theorem State.setPend_perms (s : State) (v : Option Word) : (s.setPend v).perms = s.perms := rfl
@[simp] theorem State.setPend_tags (s : State) (v : Option Word) : (s.setPend v).tags = s.tags := rfl
@[simp] theorem State.setPend_tlb (s : State) (v : Option Word) : (s.setPend v).tlb = s.tlb := rfl
@[simp] theorem State.setPend_devices (s : State) (v : Option Word) : (s.setPend v).devices = s.devices := rfl
@[simp] theorem State.setPend_agenda (s : State) (v : Option Word) : (s.setPend v).agenda = s.agenda := rfl
@[simp] theorem State.setIvr_regs (s : State) (v : Word) : (s.setIvr v).regs = s.regs := rfl
@[simp] theorem State.setIvr_params (s : State) (v : Word) : (s.setIvr v).params = s.params := rfl
@[simp] theorem State.setIvr_pc (s : State) (v : Word) : (s.setIvr v).pc = s.pc := rfl
@[simp] theorem State.setIvr_flags (s : State) (v : Word) : (s.setIvr v).flags = s.flags := rfl
@[simp] theorem State.setIvr_ie (s : State) (v : Word) : (s.setIvr v).ie = s.ie := rfl
@[simp] theorem State.setIvr_pend (s : State) (v : Word) : (s.setIvr v).pend = s.pend := rfl
@[simp] theorem State.setIvr_ivr (s : State) (v : Word) : (s.setIvr v).ivr = v := rfl
@[simp] theorem State.setIvr_vmr (s : State) (v : Word) : (s.setIvr v).vmr = s.vmr := rfl
@[simp] theorem State.setIvr_priv (s : State) (v : Word) : (s.setIvr v).priv = s.priv := rfl
@[simp] theorem State.setIvr_mem (s : State) (v : Word) : (s.setIvr v).mem = s.mem := rfl
@[simp] theorem State.setIvr_perms (s : State) (v : Word) : (s.setIvr v).perms = s.perms := rfl
@[simp] theorem State.setIvr_tags (s : State) (v : Word) : (s.setIvr v).tags = s.tags := rfl
@[simp] theorem State.setIvr_tlb (s : State) (v : Word) : (s.setIvr v).tlb = s.tlb := rfl
@[simp] theorem State.setIvr_devices (s : State) (v : Word) : (s.setIvr v).devices = s.devices := rfl
@[simp] theorem State.setIvr_agenda (s : State) (v : Word) : (s.setIvr v).agenda = s.agenda := rfl
@[simp] theorem State.setVmr_regs (s : State) (v : Word) : (s.setVmr v).regs = s.regs := rfl
@[simp] theorem State.setVmr_params (s : State) (v : Word) : (s.setVmr v).params = s.params := rfl
@[simp] theorem State.setVmr_pc (s : State) (v : Word) : (s.setVmr v).pc = s.pc := rfl
@[simp] theorem State.setVmr_flags (s : State) (v : Word) : (s.setVmr v).flags = s.flags := rfl
@[simp] theorem State.setVmr_ie (s : State) (v : Word) : (s.setVmr v).ie = s.ie := rfl
@[simp] theorem State.setVmr_pend (s : State) (v : Word) : (s.setVmr v).pend = s.pend := rfl
@[simp] theorem State.setVmr_ivr (s : State) (v : Word) : (s.setVmr v).ivr = s.ivr := rfl
@[simp] theorem State.setVmr_vmr (s : State) (v : Word) : (s.setVmr v).vmr = v := rfl
@[simp] theorem State.setVmr_priv (s : State) (v : Word) : (s.setVmr v).priv = s.priv := rfl
@[simp] theorem State.setVmr_mem (s : State) (v : Word) : (s.setVmr v).mem = s.mem := rfl
@[simp] theorem State.setVmr_perms (s : State) (v : Word) : (s.setVmr v).perms = s.perms := rfl
@[simp] theorem State.setVmr_tags (s : State) (v : Word) : (s.setVmr v).tags = s.tags := rfl
@[simp] theorem State.setVmr_tlb (s : State) (v : Word) : (s.setVmr v).tlb = s.tlb := rfl
@[simp] theorem State.setVmr_devices (s : State) (v : Word) : (s.setVmr v).devices = s.devices := rfl
@[simp] theorem State.setVmr_agenda (s : State) (v : Word) : (s.setVmr v).agenda = s.agenda := rfl
@[simp] theorem State.setPriv_regs (s : State) (v : Bool) : (s.setPriv v).regs = s.regs := rfl
@[simp] theorem State.setPriv_params (s : State) (v : Bool) : (s.setPriv v).params = s.params := rfl
@[simp] theorem State.setPriv_pc (s : State) (v : Bool) : (s.setPriv v).pc = s.pc := rfl
@[simp] theorem State.setPriv_flags (s : State) (v : Bool) : (s.setPriv v).flags = s.flags := rfl
@[simp] theorem State.setPriv_ie (s : State) (v : Bool) : (s.setPriv v).ie = s.ie := rfl
@[simp] theorem State.setPriv_pend (s : State) (v : Bool) : (s.setPriv v).pend = s.pend := rfl
@[simp] theorem State.setPriv_ivr (s : State) (v : Bool) : (s.setPriv v).ivr = s.ivr := rfl
@[simp] theorem State.setPriv_vmr (s : State) (v : Bool) : (s.setPriv v).vmr = s.vmr := rfl
@[simp] theorem State.setPriv_priv (s : State) (v : Bool) : (s.setPriv v).priv = v := rfl
@[simp] theorem State.setPriv_mem (s : State) (v : Bool) : (s.setPriv v).mem = s.mem := rfl
@[simp] theorem State.setPriv_perms (s : State) (v : Bool) : (s.setPriv v).perms = s.perms := rfl
@[simp] theorem State.setPriv_tags (s : State) (v : Bool) : (s.setPriv v).tags = s.tags := rfl
@[simp] theorem State.setPriv_tlb (s : State) (v : Bool) : (s.setPriv v).tlb = s.tlb := rfl
@[simp] theorem State.setPriv_devices (s : State) (v : Bool) : (s.setPriv v).devices = s.devices := rfl
@[simp] theorem State.setPriv_agenda (s : State) (v : Bool) : (s.setPriv v).agenda = s.agenda := rfl
@[simp] theorem State.setMem_regs (s : State) (v : Memory) : (s.setMem v).regs = s.regs := rfl
@[simp] theorem State.setMem_params (s : State) (v : Memory) : (s.setMem v).params = s.params := rfl
@[simp] theorem State.setMem_pc (s : State) (v : Memory) : (s.setMem v).pc = s.pc := rfl
@[simp] theorem State.setMem_flags (s : State) (v : Memory) : (s.setMem v).flags = s.flags := rfl
@[simp] theorem State.setMem_ie (s : State) (v : Memory) : (s.setMem v).ie = s.ie := rfl
@[simp] theorem State.setMem_pend (s : State) (v : Memory) : (s.setMem v).pend = s.pend := rfl
@[simp] theorem State.setMem_ivr (s : State) (v : Memory) : (s.setMem v).ivr = s.ivr := rfl
@[simp] theorem State.setMem_vmr (s : State) (v : Memory) : (s.setMem v).vmr = s.vmr := rfl
@[simp] theorem State.setMem_priv (s : State) (v : Memory) : (s.setMem v).priv = s.priv := rfl
@[simp] theorem State.setMem_mem (s : State) (v : Memory) : (s.setMem v).mem = v := rfl
@[simp] theorem State.setMem_perms (s : State) (v : Memory) : (s.setMem v).perms = s.perms := rfl
@[simp] theorem State.setMem_tags (s : State) (v : Memory) : (s.setMem v).tags = s.tags := rfl
@[simp] theorem State.setMem_tlb (s : State) (v : Memory) : (s.setMem v).tlb = s.tlb := rfl
@[simp] theorem State.setMem_devices (s : State) (v : Memory) : (s.setMem v).devices = s.devices := rfl
@[simp] theorem State.setMem_agenda (s : State) (v : Memory) : (s.setMem v).agenda = s.agenda := rfl
@[simp] theorem State.setPerms_regs (s : State) (v : List (Nat × Perms)) : (s.setPerms v).regs = s.regs := rfl
@[simp] theorem State.setPerms_params (s : State) (v : List (Nat × Perms)) : (s.setPerms v).params = s.params := rfl
@[simp] theorem State.setPerms_pc (s : State) (v : List (Nat × Perms)) : (s.setPerms v).pc = s.pc := rfl
@[simp] theorem State.setPerms_flags (s : State) (v : List (Nat × Perms)) : (s.setPerms v).flags = s.flags := rfl
@[simp] theorem State.setPerms_ie (s : State) (v : List (Nat × Perms)) : (s.setPerms v).ie = s.ie := rfl
@[simp] theorem State.setPerms_pend (s : State) (v : List (Nat × Perms)) : (s.setPerms v).pend = s.pend := rfl
@[simp] theorem State.setPerms_ivr (s : State) (v : List (Nat × Perms)) : (s.setPerms v).ivr = s.ivr := rfl
@[simp] theorem State.setPerms_vmr (s : State) (v : List (Nat × Perms)) : (s.setPerms v).vmr = s.vmr := rfl
@[simp] theorem State.setPerms_priv (s : State) (v : List (Nat × Perms)) : (s.setPerms v).priv = s.priv := rfl
@[simp] theorem State.setPerms_mem (s : State) (v : List (Nat × Perms)) : (s.setPerms v).mem = s.mem := rfl
@[simp] theorem State.setPerms_perms (s : State) (v : List (Nat × Perms)) : (s.setPerms v).perms = v := rfl
@[simp] theorem State.setPerms_tags (s : State) (v : List (Nat × Perms)) : (s.setPerms v).tags = s.tags := rfl
@[simp] theorem State.setPerms_tlb (s : State) (v : List (Nat × Perms)) : (s.setPerms v).tlb = s.tlb := rfl
@[simp] theorem State.setPerms_devices (s : State) (v : List (Nat × Perms)) : (s.setPerms v).devices = s.devices := rfl
@[simp] theorem State.setPerms_agenda (s : State) (v : List (Nat × Perms)) : (s.setPerms v).agenda = s.agenda := rfl
@[simp] theorem State.setTags_regs (s : State) (v : List (Nat × String)) : (s.setTags v).regs = s.regs := rfl
@[simp] theorem State.setTags_params (s : State) (v : List (Nat × String)) : (s.setTags v).params = s.params := rfl
@[simp] theorem State.setTags_pc (s : State) (v : List (Nat × String)) : (s.setTags v).pc = s.pc := rfl
@[simp] theorem State.setTags_flags (s : State) (v : List (Nat × String)) : (s.setTags v).flags = s.flags := rfl
@[simp] theorem State.setTags_ie (s : State) (v : List (Nat × String)) : (s.setTags v).ie = s.ie := rfl
@[simp] theorem State.setTags_pend (s : State) (v : List (Nat × String)) : (s.setTags v).pend = s.pend := rfl
@[simp] theorem State.setTags_ivr (s : State) (v : List (Nat × String)) : (s.setTags v).ivr = s.ivr := rfl
@[simp] theorem State.setTags_vmr (s : State) (v : List (Nat × String)) : (s.setTags v).vmr = s.vmr := rfl
@[simp] theorem State.setTags_priv (s : State) (v : List (Nat × String)) : (s.setTags v).priv = s.priv := rfl
@[simp] theorem State.setTags_mem (s : State) (v : List (Nat × String)) : (s.setTags v).mem = s.mem := rfl
@[simp] theorem State.setTags_perms (s : State) (v : List (Nat × String)) : (s.setTags v).perms = s.perms := rfl
@[simp] theorem State.setTags_tags (s : State) (v : List (Nat × String)) : (s.setTags v).tags = v := rfl
@[simp] theorem State.setTags_tlb (s : State) (v : List (Nat × String)) : (s.setTags v).tlb = s.tlb := rfl
@[simp] theorem State.setTags_devices (s : State) (v : List (Nat × String)) : (s.setTags v).devices = s.devices := rfl
@[simp] theorem State.setTags_agenda (s : State) (v : List (Nat × String)) : (s.setTags v).agenda = s.agenda := rfl
@[simp] theorem State.setTlb_regs (s : State) (v : List (Nat × TlbEntry)) : (s.setTlb v).regs = s.regs := rfl
@[simp] theorem State.setTlb_params (s : State) (v : List (Nat × TlbEntry)) : (s.setTlb v).params = s.params := rfl
@[simp] theorem State.setTlb_pc (s : State) (v : List (Nat × TlbEntry)) : (s.setTlb v).pc = s.pc := rfl
@[simp] theorem State.setTlb_flags (s : State) (v : List (Nat × TlbEntry)) : (s.setTlb v).flags = s.flags := rfl
@[simp] theorem State.setTlb_ie (s : State) (v : List (Nat × TlbEntry)) : (s.setTlb v).ie = s.ie := rfl
@[simp] theorem State.setTlb_pend (s : State) (v : List (Nat × TlbEntry)) : (s.setTlb v).pend = s.pend := rfl
@[simp] theorem State.setTlb_ivr (s : State) (v : List (Nat × TlbEntry)) : (s.setTlb v).ivr = s.ivr := rfl
@[simp] theorem State.setTlb_vmr (s : State) (v : List (Nat × TlbEntry)) : (s.setTlb v).vmr = s.vmr := rfl
@[simp] theorem State.setTlb_priv (s : State) (v : List (Nat × TlbEntry)) : (s.setTlb v).priv = s.priv := rfl
@[simp] theorem State.setTlb_mem (s : State) (v : List (Nat × TlbEntry)) : (s.setTlb v).mem = s.mem := rfl
@[simp] theorem State.setTlb_perms (s : State) (v : List (Nat × TlbEntry)) : (s.setTlb v).perms = s.perms := rfl
@[simp] theorem State.setTlb_tags (s : State) (v : List (Nat × TlbEntry)) : (s.setTlb v).tags = s.tags := rfl
@[simp] theorem State.setTlb_tlb (s : State) (v : List (Nat × TlbEntry)) : (s.setTlb v).tlb = v := rfl
@[simp] theorem State.setTlb_devices (s : State) (v : List (Nat × TlbEntry)) : (s.setTlb v).devices = s.devices := rfl
@[simp] theorem State.setTlb_agenda (s : State) (v : List (Nat × TlbEntry)) : (s.setTlb v).agenda = s.agenda := rfl
@[simp] theorem State.setDevices_regs (s : State) (v : List Device) : (s.setDevices v).regs = s.regs := rfl
@[simp] theorem State.setDevices_params (s : State) (v : List Device) : (s.setDevices v).params = s.params := rfl
@[simp] theorem State.setDevices_pc (s : State) (v : List Device) : (s.setDevices v).pc = s.pc := rfl
@[simp] theorem State.setDevices_flags (s : State) (v : List Device) : (s.setDevices v).flags = s.flags := rfl
@[simp] theorem State.setDevices_ie (s : State) (v : List Device) : (s.setDevices v).ie = s.ie := rfl
@[simp] theorem State.setDevices_pend (s : State) (v : List Device) : (s.setDevices v).pend = s.pend := rfl
@[simp] theorem State.setDevices_ivr (s : State) (v : List Device) : (s.setDevices v).ivr = s.ivr := rfl
@[simp] theorem State.setDevices_vmr (s : State) (v : List Device) : (s.setDevices v).vmr = s.vmr := rfl
@[simp] theorem State.setDevices_priv (s : State) (v : List Device) : (s.setDevices v).priv = s.priv := rfl
@[simp] theorem State.setDevices_mem (s : State) (v : List Device) : (s.setDevices v).mem = s.mem := rfl
@[simp] theorem State.setDevices_perms (s : State) (v : List Device) : (s.setDevices v).perms = s.perms := rfl
@[simp] theorem State.setDevices_tags (s : State) (v : List Device) : (s.setDevices v).tags = s.tags := rfl
@[simp] theorem State.setDevices_tlb (s : State) (v : List Device) : (s.setDevices v).tlb = s.tlb := rfl
@[simp] theorem State.setDevices_devices (s : State) (v : List Device) : (s.setDevices v).devices = v := rfl
@[simp] theorem State.setDevices_agenda (s : State) (v : List Device) : (s.setDevices v).agenda = s.agenda := rfl
@[simp] theorem State.setAgenda_regs (s : State) (v : List (List AgentAct)) : (s.setAgenda v).regs = s.regs := rfl
@[simp] theorem State.setAgenda_params (s : State) (v : List (List AgentAct)) : (s.setAgenda v).params = s.params := rfl
@[simp] theorem State.setAgenda_pc (s : State) (v : List (List AgentAct)) : (s.setAgenda v).pc = s.pc := rfl
@[simp] theorem State.setAgenda_flags (s : State) (v : List (List AgentAct)) : (s.setAgenda v).flags = s.flags := rfl
@[simp] theorem State.setAgenda_ie (s : State) (v : List (List AgentAct)) : (s.setAgenda v).ie = s.ie := rfl
@[simp] theorem State.setAgenda_pend (s : State) (v : List (List AgentAct)) : (s.setAgenda v).pend = s.pend := rfl
@[simp] theorem State.setAgenda_ivr (s : State) (v : List (List AgentAct)) : (s.setAgenda v).ivr = s.ivr := rfl
@[simp] theorem State.setAgenda_vmr (s : State) (v : List (List AgentAct)) : (s.setAgenda v).vmr = s.vmr := rfl
@[simp] theorem State.setAgenda_priv (s : State) (v : List (List AgentAct)) : (s.setAgenda v).priv = s.priv := rfl
@[simp] theorem State.setAgenda_mem (s : State) (v : List (List AgentAct)) : (s.setAgenda v).mem = s.mem := rfl
@[simp] theorem State.setAgenda_perms (s : State) (v : List (List AgentAct)) : (s.setAgenda v).perms = s.perms := rfl
@[simp] theorem State.setAgenda_tags (s : State) (v : List (List AgentAct)) : (s.setAgenda v).tags = s.tags := rfl
@[simp] theorem State.setAgenda_tlb (s : State) (v : List (List AgentAct)) : (s.setAgenda v).tlb = s.tlb := rfl
@[simp] theorem State.setAgenda_devices (s : State) (v : List (List AgentAct)) : (s.setAgenda v).devices = s.devices := rfl
@[simp] theorem State.setAgenda_agenda (s : State) (v : List (List AgentAct)) : (s.setAgenda v).agenda = v := rfl
@[simp] theorem State.setReg_params (s : State) (r : Reg) (v : Word) : (s.setReg r v).params = s.params := rfl
@[simp] theorem State.setReg_pc (s : State) (r : Reg) (v : Word) : (s.setReg r v).pc = s.pc := rfl
@[simp] theorem State.setReg_flags (s : State) (r : Reg) (v : Word) : (s.setReg r v).flags = s.flags := rfl
@[simp] theorem State.setReg_ie (s : State) (r : Reg) (v : Word) : (s.setReg r v).ie = s.ie := rfl
@[simp] theorem State.setReg_pend (s : State) (r : Reg) (v : Word) : (s.setReg r v).pend = s.pend := rfl
@[simp] theorem State.setReg_ivr (s : State) (r : Reg) (v : Word) : (s.setReg r v).ivr = s.ivr := rfl
@[simp] theorem State.setReg_vmr (s : State) (r : Reg) (v : Word) : (s.setReg r v).vmr = s.vmr := rfl
@[simp] theorem State.setReg_priv (s : State) (r : Reg) (v : Word) : (s.setReg r v).priv = s.priv := rfl
@[simp] theorem State.setReg_mem (s : State) (r : Reg) (v : Word) : (s.setReg r v).mem = s.mem := rfl
@[simp] theorem State.setReg_perms (s : State) (r : Reg) (v : Word) : (s.setReg r v).perms = s.perms := rfl
@[simp] theorem State.setReg_tags (s : State) (r : Reg) (v : Word) : (s.setReg r v).tags = s.tags := rfl
@[simp] theorem State.setReg_tlb (s : State) (r : Reg) (v : Word) : (s.setReg r v).tlb = s.tlb := rfl
@[simp] theorem State.setReg_devices (s : State) (r : Reg) (v : Word) : (s.setReg r v).devices = s.devices := rfl
@[simp] theorem State.setReg_agenda (s : State) (r : Reg) (v : Word) : (s.setReg r v).agenda = s.agenda := rfl
@[simp] theorem State.setParams_reg (s : State) (v : Params) (r : Reg) : (s.setParams v).reg r = s.reg r := rfl
@[simp] theorem State.setPc_reg (s : State) (v : Word) (r : Reg) : (s.setPc v).reg r = s.reg r := rfl
@[simp] theorem State.setFlags_reg (s : State) (v : FlagBits) (r : Reg) : (s.setFlags v).reg r = s.reg r := rfl
@[simp] theorem State.setIe_reg (s : State) (v : Bool) (r : Reg) : (s.setIe v).reg r = s.reg r := rfl
@[simp] theorem State.setPend_reg (s : State) (v : Option Word) (r : Reg) : (s.setPend v).reg r = s.reg r := rfl
@[simp] theorem State.setIvr_reg (s : State) (v : Word) (r : Reg) : (s.setIvr v).reg r = s.reg r := rfl
@[simp] theorem State.setVmr_reg (s : State) (v : Word) (r : Reg) : (s.setVmr v).reg r = s.reg r := rfl
@[simp] theorem State.setPriv_reg (s : State) (v : Bool) (r : Reg) : (s.setPriv v).reg r = s.reg r := rfl
@[simp] theorem State.setMem_reg (s : State) (v : Memory) (r : Reg) : (s.setMem v).reg r = s.reg r := rfl
@[simp] theorem State.setPerms_reg (s : State) (v : List (Nat × Perms)) (r : Reg) : (s.setPerms v).reg r = s.reg r := rfl
@[simp] theorem State.setTags_reg (s : State) (v : List (Nat × String)) (r : Reg) : (s.setTags v).reg r = s.reg r := rfl
@[simp] theorem State.setTlb_reg (s : State) (v : List (Nat × TlbEntry)) (r : Reg) : (s.setTlb v).reg r = s.reg r := rfl
@[simp] theorem State.setDevices_reg (s : State) (v : List Device) (r : Reg) : (s.setDevices v).reg r = s.reg r := rfl
@[simp] theorem State.setAgenda_reg (s : State) (v : List (List AgentAct)) (r : Reg) : (s.setAgenda v).reg r = s.reg r := rfl

end Sys2Proof.Machine
end

