-- ==== Sys2Proof/Laws/Table.lean ====
section
/-! SUPPORT. The laws of tables: reading after writing, and the canonical form every update keeps. -/

namespace Sys2Proof.Machine

variable {β : Type}

theorem tableFind_put (k q : Nat) (v : β) (t : List (Nat × β)) :
    tableFind q (tablePut k v t) = if q = k then some v else tableFind q t := by
  induction t with
  | nil => simp [tablePut, tableFind, eq_comm]
  | cons p rest ih =>
    obtain ⟨j, u⟩ := p
    simp only [tablePut]
    split
    · simp [tableFind, eq_comm]
    · split
      · subst_vars; simp only [tableFind]; split <;> simp_all [eq_comm]
      · simp only [tableFind, ih]
        split
        · subst_vars; split <;> simp_all
        · rfl

theorem tableFind_del (k q : Nat) (t : List (Nat × β)) :
    tableFind q (tableDel k t) = if q = k then none else tableFind q t := by
  induction t with
  | nil => simp [tableDel, tableFind]
  | cons p rest ih =>
    obtain ⟨j, u⟩ := p
    simp only [tableDel, List.filter_cons] at ih ⊢
    by_cases hjk : j = k
    · simp only [hjk, bne_self_eq_false, Bool.false_eq_true, if_false, ih, tableFind]
      split
      · rfl
      · rw [if_neg (by omega)]
    · simp only [bne_iff_ne, ne_eq, hjk, not_false_eq_true, if_true, tableFind, ih]
      split
      · subst_vars; simp [hjk]
      · rfl

/-- Reading a key of a table with a default after giving a key a value. -/
theorem tableFind_set [DecidableEq β] (dflt : β) (k q : Nat) (v : β) (t : List (Nat × β)) :
    (tableFind q (tableSet dflt k v t)).getD dflt = if q = k then v else (tableFind q t).getD dflt := by
  unfold tableSet
  split
  · rw [tableFind_del]; split <;> simp_all
  · rw [tableFind_put]; split <;> simp

theorem mem_tablePut {k : Nat} {v : β} {t : List (Nat × β)} {p : Nat × β} (h : p ∈ tablePut k v t) :
    p = (k, v) ∨ p ∈ t := by
  induction t with
  | nil => simpa [tablePut] using h
  | cons q rest ih =>
    obtain ⟨j, u⟩ := q
    simp only [tablePut] at h
    split at h
    · simpa using h
    · split at h
      · rcases List.mem_cons.1 h with h | h
        · exact .inl h
        · exact .inr (List.mem_cons_of_mem _ h)
      · rcases List.mem_cons.1 h with h | h
        · exact .inr (by simp [h])
        · rcases ih h with h | h
          · exact .inl h
          · exact .inr (List.mem_cons_of_mem _ h)

theorem keysRising_put (k : Nat) (v : β) {t : List (Nat × β)} (h : KeysRising t) : KeysRising (tablePut k v t) := by
  induction t with
  | nil => simp [tablePut]
  | cons p rest ih =>
    obtain ⟨j, u⟩ := p
    have hrest := (List.pairwise_cons.1 h).2
    have hhead := (List.pairwise_cons.1 h).1
    simp only [tablePut]
    split
    · rename_i hkj
      refine List.pairwise_cons.2 ⟨?_, h⟩
      intro q hq
      rcases List.mem_cons.1 hq with rfl | hq
      · exact hkj
      · exact Nat.lt_trans hkj (hhead q hq)
    · split
      · subst_vars; exact List.pairwise_cons.2 ⟨hhead, hrest⟩
      · refine List.pairwise_cons.2 ⟨?_, ih hrest⟩
        intro q hq
        rcases mem_tablePut hq with rfl | hq
        · show j < k; omega
        · exact hhead q hq

theorem keysRising_del (k : Nat) {t : List (Nat × β)} (h : KeysRising t) : KeysRising (tableDel k t) :=
  h.sublist List.filter_sublist

theorem keysRising_set [DecidableEq β] (dflt : β) (k : Nat) (v : β) {t : List (Nat × β)} (h : KeysRising t) :
    KeysRising (tableSet dflt k v t) := by
  unfold tableSet
  split
  · exact keysRising_del k h
  · exact keysRising_put k v h

/-- What a table lists after giving a key a value: the new pair, which is not the default, or an old pair. -/
theorem mem_tableSet [DecidableEq β] {dflt : β} {k : Nat} {v : β} {t : List (Nat × β)} {p : Nat × β}
    (h : p ∈ tableSet dflt k v t) : (p = (k, v) ∧ v ≠ dflt) ∨ p ∈ t := by
  unfold tableSet at h
  split at h
  · exact .inr (List.mem_filter.1 h).1
  · rename_i hv
    rcases mem_tablePut h with h | h
    · exact .inl ⟨h, hv⟩
    · exact .inr h

theorem tableFind_eq_none_of_rising {j : Nat} {t : List (Nat × β)} (h : ∀ p ∈ t, j < p.1) {q : Nat} (hq : q ≤ j) :
    tableFind q t = none := by
  induction t with
  | nil => rfl
  | cons p rest ih =>
    obtain ⟨i, u⟩ := p
    have := h (i, u) (by simp)
    simp only [tableFind]
    rw [if_neg (by simp at this; omega)]
    exact ih fun p hp => h p (List.mem_cons_of_mem _ hp)

/-- Tables in canonical form that read alike are equal. -/
theorem table_ext (dflt : β) {t u : List (Nat × β)} (ht : KeysRising t) (hu : KeysRising u)
    (ht' : ∀ p ∈ t, p.2 ≠ dflt) (hu' : ∀ p ∈ u, p.2 ≠ dflt)
    (h : ∀ q, (tableFind q t).getD dflt = (tableFind q u).getD dflt) : t = u := by
  induction t generalizing u with
  | nil =>
    cases u with
    | nil => rfl
    | cons p rest =>
      obtain ⟨i, x⟩ := p
      have := h i
      simp only [tableFind, Option.getD_none, if_true, Option.getD_some] at this
      exact absurd this.symm (hu' (i, x) (by simp))
  | cons p rest ih =>
    obtain ⟨i, x⟩ := p
    cases u with
    | nil =>
      have := h i
      simp only [tableFind, Option.getD_none, if_true, Option.getD_some] at this
      exact absurd this (ht' (i, x) (by simp))
    | cons r rest' =>
      obtain ⟨j, y⟩ := r
      have hp := List.pairwise_cons.1 ht
      have hr := List.pairwise_cons.1 hu
      have hij : i = j := by
        rcases Nat.lt_trichotomy i j with hlt | heq | hgt
        · have := h i
          rw [show tableFind i ((j, y) :: rest') = none from
            tableFind_eq_none_of_rising (j := j - 1)
              (fun p hp => by
                rcases List.mem_cons.1 hp with rfl | hp
                · show j - 1 < j; omega
                · have := hr.1 p hp; simp at this; omega) (by omega)] at this
          simp only [tableFind, Option.getD_none, if_true, Option.getD_some] at this
          exact absurd this (ht' (i, x) (by simp))
        · exact heq
        · have := h j
          rw [show tableFind j ((i, x) :: rest) = none from
            tableFind_eq_none_of_rising (j := i - 1)
              (fun p hp' => by
                rcases List.mem_cons.1 hp' with rfl | hp'
                · show i - 1 < i; omega
                · have := hp.1 p hp'; simp at this; omega) (by omega)] at this
          simp only [tableFind, Option.getD_none, if_true, Option.getD_some] at this
          exact absurd this.symm (hu' (j, y) (by simp))
      subst hij
      have hxy : x = y := by
        have := h i
        simpa [tableFind] using this
      subst hxy
      congr 1
      refine ih hp.2 hr.2 (fun p hp => ht' p (List.mem_cons_of_mem _ hp))
        (fun p hp => hu' p (List.mem_cons_of_mem _ hp)) ?_
      intro q
      have := h q
      simp only [tableFind] at this
      by_cases hq : i = q
      · rw [tableFind_eq_none_of_rising hp.1 (by omega), tableFind_eq_none_of_rising hr.1 (by omega)]
      · simpa [hq] using this

end Sys2Proof.Machine
end

