-- ==== Sys2Proof/Laws/Bus.lean ====
section
/-! SUPPORT. What a bus transaction can do, said once: when a read or a write succeeds and what it leaves
(20_memory.md R80 to R87). -/

namespace Sys2Proof.Machine

@[simp] theorem deviceBufferSize_complement (m : Word) : deviceBufferSize .complement m = (~~~m).toNat := rfl
@[simp] theorem deviceBufferSize_complementPlusOne (m : Word) :
    deviceBufferSize .complementPlusOne m = (~~~m).toNat + 1 := rfl

/-! ## Cells -/

theorem byteAt_setByte (s : State) (a x : Nat) (b : Byte) :
    (s.setByte a b).byteAt x = if x = a then b else s.byteAt x := tableFind_set 0 a x b s.mem

theorem tagAt_setTag (s : State) (a x : Nat) (w : String) :
    (s.setTag a w).tagAt x = if x = a then w else s.tagAt x := by
  have h : tableFind x (s.setTag a w).tags = if x = a then some w else tableFind x s.tags := tableFind_put a x w s.tags
  simp only [State.tagAt, h]
  split <;> rfl

theorem permsAt_toggle (s : State) (bit : Access) (a x : Nat) (w : String) :
    (s.toggle bit a w).permsAt x = if x = a then (s.permsAt a).flip bit else s.permsAt x :=
  tableFind_set Perms.default a x _ s.perms

/-- A store to cells changes memory and tags alone. -/
theorem storeBytes_fields (src : String) (bs : List Byte) :
    ∀ (s : State) (a : Nat), ∃ m t, s.storeBytes src a bs = (s.setMem m).setTags t := by
  induction bs with
  | nil => intro s a; exact ⟨s.mem, s.tags, rfl⟩
  | cons b rest ih =>
    intro s a
    obtain ⟨m, t, h⟩ := ih ((s.setByte a b).setTag a src) (a + 1)
    exact ⟨m, t, by rw [State.storeBytes, h]; rfl⟩

theorem byteAt_storeBytes (src : String) (bs : List Byte) :
    ∀ (s : State) (a x : Nat), (s.storeBytes src a bs).byteAt x =
      if h : a ≤ x ∧ x < a + bs.length then bs[x - a]'(by omega) else s.byteAt x := by
  induction bs with
  | nil => intro s a x; rw [dif_neg (by simp), State.storeBytes]
  | cons b rest ih =>
    intro s a x
    rw [State.storeBytes, ih]
    have hs : ((s.setByte a b).setTag a src).byteAt x = if x = a then b else s.byteAt x := byteAt_setByte s a x b
    simp only [hs, List.length_cons]
    by_cases hxa : x = a
    · subst hxa
      rw [dif_neg (by omega), if_pos rfl, dif_pos (by omega)]
      simp
    · by_cases hx : a + 1 ≤ x ∧ x < a + 1 + rest.length
      · rw [dif_pos hx, dif_pos (by omega)]
        have e : x - a = x - (a + 1) + 1 := by omega
        simp only [e, List.getElem_cons_succ]
      · rw [dif_neg hx, if_neg hxa, dif_neg (by omega)]

theorem tagAt_storeBytes (src : String) (bs : List Byte) :
    ∀ (s : State) (a x : Nat), (s.storeBytes src a bs).tagAt x =
      if a ≤ x ∧ x < a + bs.length then src else s.tagAt x := by
  induction bs with
  | nil => intro s a x; rw [if_neg (by simp), State.storeBytes]
  | cons b rest ih =>
    intro s a x
    rw [State.storeBytes, ih]
    have hs : ((s.setByte a b).setTag a src).tagAt x = if x = a then src else s.tagAt x :=
      tagAt_setTag (s.setByte a b) a x src
    rw [hs, List.length_cons]
    split_ifs <;> first | rfl | omega

theorem bytesAt_length (s : State) (a n : Nat) : (s.bytesAt a n).length = n := by
  induction n generalizing a with
  | zero => rfl
  | succ n ih => simp [State.bytesAt, ih]

theorem bytesAt_get (s : State) (a n k : Nat) (h : k < n) :
    (s.bytesAt a n)[k]'(by rw [bytesAt_length]; exact h) = s.byteAt (a + k) := by
  induction n generalizing a k with
  | zero => omega
  | succ n ih =>
    cases k with
    | zero => rfl
    | succ k =>
      simp only [State.bytesAt, List.getElem_cons_succ]
      rw [ih (a + 1) k (by omega)]
      congr 1; omega

/-- The bytes at an address depend on the cells alone. -/
theorem bytesAt_congr {s t : State} {a n : Nat} (h : ∀ x, a ≤ x → x < a + n → t.byteAt x = s.byteAt x) :
    t.bytesAt a n = s.bytesAt a n := by
  induction n generalizing a with
  | zero => rfl
  | succ n ih =>
    simp only [State.bytesAt]
    rw [h a (by omega) (by omega), ih fun x h1 h2 => h x (by omega) (by omega)]

theorem bytesAt_storeBytes (src : String) (bs : List Byte) (s : State) (a : Nat) :
    (s.storeBytes src a bs).bytesAt a bs.length = bs := by
  apply List.ext_getElem
  · exact bytesAt_length _ _ _
  · intro k h1 h2
    rw [bytesAt_get _ _ _ _ h2, byteAt_storeBytes, dif_pos (by omega)]
    congr 1; omega

theorem firstDenied_eq_none (s : State) (kind : Access) (a n : Nat) :
    s.firstDenied kind a n = none ↔ ∀ k < n, (s.permsAt (a + k)).allows kind = true := by
  induction n generalizing a with
  | zero => simp [State.firstDenied]
  | succ n ih =>
    simp only [State.firstDenied]
    by_cases ha : (s.permsAt a).allows kind = true
    · rw [if_pos ha, ih]
      constructor
      · intro h k hk
        cases k with
        | zero => simpa using ha
        | succ k => have := h k (by omega); rwa [show a + 1 + k = a + (k + 1) by omega] at this
      · intro h k hk
        have := h (k + 1) (by omega)
        rwa [show a + (k + 1) = a + 1 + k by omega] at this
    · rw [if_neg ha]
      constructor
      · intro h; cases h
      · intro h; exact absurd (by simpa using h 0 (by omega)) ha

/-- The address of a permission fault is the lowest one that denies the access (20_memory.md R85). -/
theorem firstDenied_eq_some {s : State} {kind : Access} {a n p : Nat} (h : s.firstDenied kind a n = some p) :
    a ≤ p ∧ p < a + n ∧ (s.permsAt p).allows kind = false ∧
      ∀ x, a ≤ x → x < p → (s.permsAt x).allows kind = true := by
  induction n generalizing a with
  | zero => simp [State.firstDenied] at h
  | succ n ih =>
    simp only [State.firstDenied] at h
    split at h
    · rename_i ha
      obtain ⟨h1, h2, h3, h4⟩ := ih h
      refine ⟨by omega, by omega, h3, fun x hx hp => ?_⟩
      by_cases hxa : x = a
      · rw [hxa]; exact ha
      · exact h4 x (by omega) hp
    · rename_i ha
      obtain rfl : a = p := by simpa using h
      exact ⟨Nat.le_refl _, by omega, by simpa using ha, fun x h1 h2 => by omega⟩

/-! ## Devices -/

theorem device_byteAt_store (bs : List Byte) :
    ∀ (d : Device) (off x : Nat), (d.store off bs).byteAt x =
      if h : off ≤ x ∧ x < off + bs.length then bs[x - off]'(by omega) else d.byteAt x := by
  induction bs with
  | nil => intro d off x; rw [dif_neg (by simp), Device.store]
  | cons b rest ih =>
    intro d off x
    rw [Device.store, ih]
    have hs : Device.byteAt { d with buffer := tablePut off b d.buffer } x
        = if x = off then b else d.byteAt x := by
      simp only [Device.byteAt, tableFind_put]
      split <;> simp
    simp only [hs, List.length_cons]
    by_cases hxa : x = off
    · subst hxa
      rw [dif_neg (by omega), if_pos rfl, dif_pos (by omega)]
      simp
    · by_cases hx : off + 1 ≤ x ∧ x < off + 1 + rest.length
      · rw [dif_pos hx, dif_pos (by omega)]
        have e : x - off = x - (off + 1) + 1 := by omega
        simp only [e, List.getElem_cons_succ]
      · rw [dif_neg hx, if_neg hxa, dif_neg (by omega)]

/-- A store in a device changes its buffer alone. -/
theorem device_store_fields (bs : List Byte) :
    ∀ (d : Device) (off : Nat), ∃ buf, d.store off bs = { d with buffer := buf } := by
  induction bs with
  | nil => intro d off; exact ⟨d.buffer, rfl⟩
  | cons b rest ih =>
    intro d off
    obtain ⟨buf, h⟩ := ih { d with buffer := tablePut off b d.buffer } (off + 1)
    exact ⟨buf, by rw [Device.store, h]⟩

@[simp] theorem device_store_start (d : Device) (off : Nat) (bs : List Byte) : (d.store off bs).start = d.start := by
  obtain ⟨buf, h⟩ := device_store_fields bs d off; rw [h]

@[simp] theorem device_store_mask (d : Device) (off : Nat) (bs : List Byte) : (d.store off bs).mask = d.mask := by
  obtain ⟨buf, h⟩ := device_store_fields bs d off; rw [h]

@[simp] theorem device_store_irq (d : Device) (off : Nat) (bs : List Byte) : (d.store off bs).irq = d.irq := by
  obtain ⟨buf, h⟩ := device_store_fields bs d off; rw [h]

theorem device_bytesAt_length (d : Device) (off n : Nat) : (d.bytesAt off n).length = n := by
  induction n generalizing off with
  | zero => rfl
  | succ n ih => simp [Device.bytesAt, ih]

theorem device_bytesAt_get (d : Device) (off n k : Nat) (h : k < n) :
    (d.bytesAt off n)[k]'(by rw [device_bytesAt_length]; exact h) = d.byteAt (off + k) := by
  induction n generalizing off k with
  | zero => omega
  | succ n ih =>
    cases k with
    | zero => rfl
    | succ k =>
      simp only [Device.bytesAt, List.getElem_cons_succ]
      rw [ih (off + 1) k (by omega)]
      congr 1; omega

theorem device_bytesAt_store (bs : List Byte) (d : Device) (off : Nat) :
    (d.store off bs).bytesAt off bs.length = bs := by
  apply List.ext_getElem
  · exact device_bytesAt_length _ _ _
  · intro k h1 h2
    rw [device_bytesAt_get _ _ _ _ h2, device_byteAt_store, dif_pos (by omega)]
    congr 1; omega

/-- A change that keeps a device's start and mask keeps what it claims. -/
theorem claims_congr {d d' : Device} (hs : d'.start = d.start) (hm : d'.mask = d.mask) (x : Nat) :
    d'.claims x = d.claims x := by simp [Device.claims, hs, hm]

/-- A device claims an address at or above its start. -/
theorem start_le_of_claims {d : Device} {a : Nat} (h : d.claims a = true) : d.start.toNat ≤ a := by
  have : a &&& d.mask.toNat = d.start.toNat := by simpa [Device.claims] using h
  rw [← this]; exact Nat.and_le_left

theorem claims_of_routeDevice {ds : List Device} {a : Nat} {d : Device} (h : routeDevice ds a = some d) :
    d.claims a = true := by
  simpa using List.find?_some h

theorem mem_of_routeDevice {ds : List Device} {a : Nat} {d : Device} (h : routeDevice ds a = some d) : d ∈ ds :=
  List.mem_of_find?_eq_some h

/-- The device an address is routed to after the device another address is routed to has changed: the same one,
changed exactly when it is that device. `f` keeps a device's start and mask. -/
theorem routeDevice_updateRouted (f : Device → Device) (hs : ∀ d, (f d).start = d.start) (hm : ∀ d, (f d).mask = d.mask)
    (a x : Nat) (ds : List Device) :
    routeDevice (updateRouted f a ds) x = routeDevice ds x ∨
      (∃ d, routeDevice ds a = some d ∧ routeDevice ds x = some d ∧
        routeDevice (updateRouted f a ds) x = some (f d)) := by
  induction ds with
  | nil => left; rfl
  | cons d rest ih =>
    simp only [updateRouted, routeDevice]
    by_cases hda : d.claims a = true
    · simp only [hda, if_true, List.find?_cons]
      rw [claims_congr (hs d) (hm d)]
      by_cases hdx : d.claims x = true
      · right; exact ⟨d, by simp, by simp [hdx], by simp [hdx]⟩
      · left; simp [hdx]
    · simp only [hda, Bool.false_eq_true, if_false, List.find?_cons]
      by_cases hdx : d.claims x = true
      · left; simp [hdx]
      · simpa [hdx, routeDevice] using ih

theorem routeDevice_updateRouted_same (f : Device → Device) (hs : ∀ d, (f d).start = d.start)
    (hm : ∀ d, (f d).mask = d.mask) (a : Nat) (ds : List Device) :
    routeDevice (updateRouted f a ds) a = (routeDevice ds a).map f := by
  induction ds with
  | nil => rfl
  | cons d rest ih =>
    simp only [updateRouted, routeDevice]
    by_cases hda : d.claims a = true
    · simp [hda, claims_congr (hs d) (hm d)]
    · simpa [hda, routeDevice] using ih

/-! ## Reads -/

theorem accessible_length_pos_array {s : State} {kind : Access} {a n : Nat} (hn : 1 ≤ n) (h : CellsAllow s kind a n) :
    s.arrayRangeOk a n = true := by
  obtain ⟨h1, h2, -⟩ := h
  simp only [State.arrayRangeOk, decide_eq_true_eq]
  omega

/-- When a bus read answers a value, and which (20_memory.md R80). -/
theorem busRead_ok_iff (s : State) (a n v : Nat) :
    busRead s a n = .ok v ↔ (1 ≤ n ∧ n ≤ 4) ∧ Accessible s .read a n ∧ v = s.valueAt a n := by
  unfold busRead State.valueAt Accessible CellsAllow DeviceServes
  by_cases hn : 1 ≤ n ∧ n ≤ 4
  · rw [if_neg (by simpa using hn)]
    by_cases ha : a < s.params.memoryStart
    · rw [if_pos ha, if_pos ha]
      cases hr : routeDevice s.devices a with
      | none => simp; intro; omega
      | some d =>
        simp only [Device.accepts, decide_eq_true_eq]
        by_cases hd : 0 < n ∧ n ≤ 4 ∧ a - d.start.toNat + n ≤ deviceBufferSize s.params.bufferSizing d.mask
        · rw [if_pos hd]
          simp only [Except.ok.injEq]
          constructor
          · intro h; exact ⟨hn, .inr ⟨ha, d, rfl, hd.2.2⟩, h.symm⟩
          · intro h; exact h.2.2.symm
        · rw [if_neg hd]
          simp only [reduceCtorEq, false_iff]
          rintro ⟨-, h | ⟨-, d', h, h'⟩, -⟩
          · omega
          · cases h; exact hd ⟨by omega, by omega, h'⟩
    · rw [if_neg ha, if_neg ha]
      by_cases hr : s.arrayRangeOk a n = true
      · rw [if_pos hr]
        have hr' : s.params.memoryStart ≤ a ∧ 0 < n ∧ a + n ≤ s.params.memoryEnd := by
          simpa [State.arrayRangeOk] using hr
        cases hd : s.firstDenied .read a n with
        | some p =>
          simp only [reduceCtorEq, false_iff]
          rintro ⟨-, ⟨-, -, h⟩ | ⟨h, -⟩, -⟩
          · rw [(firstDenied_eq_none s .read a n).2 h] at hd; cases hd
          · exact ha h
        | none =>
          have := (firstDenied_eq_none s .read a n).1 hd
          simp only [Except.ok.injEq]
          constructor
          · intro h; exact ⟨hn, .inl ⟨hr'.1, hr'.2.2, this⟩, h.symm⟩
          · intro h; exact h.2.2.symm
      · rw [if_neg hr]
        simp only [reduceCtorEq, false_iff]
        rintro ⟨-, h | ⟨h, -⟩, -⟩
        · exact hr (accessible_length_pos_array (kind := .read) hn.1 h)
        · exact ha h
  · rw [if_pos (by simpa using hn)]
    simp only [reduceCtorEq, false_iff]
    exact fun h => hn h.1

/-- The faults of a bus read; the state they leave is the state it was given (20_memory.md R80, R85). -/
theorem busRead_error {s : State} {a n : Nat} {r : Fault} (h : busRead s a n = .error r) :
    r = .bounds a n s ∨ ∃ p, r = .permission p .read s ∧ a ≤ p ∧ p < a + n := by
  unfold busRead at h
  split at h
  · left; cases h; rfl
  · split at h
    · split at h
      · left; cases h; rfl
      · split at h <;> cases h
        left; rfl
    · split at h
      · split at h
        · rename_i p hp
          have := firstDenied_eq_some hp
          right; cases h; exact ⟨p, rfl, this.1, this.2.1⟩
        · cases h
      · left; cases h; rfl

/-! ## Writes -/

/-- The state a successful bus write leaves (20_memory.md R81). -/
def written (s : State) (a n v : Nat) (source : String) : State :=
  if a < s.params.memoryStart then
    match routeDevice s.devices a with
    | some _ => s.setDevices (updateRouted (fun d => d.store (a - d.start.toNat) (beBytes n v)) a s.devices)
    | none => s
  else s.storeBytes source a (beBytes n v)

/-- When a bus write succeeds, and what it leaves (20_memory.md R81, R82). -/
theorem busWrite_ok_iff (s t : State) (a n v : Nat) (src : String) :
    busWrite s a n v src = .ok t ↔
      (1 ≤ n ∧ n ≤ 4) ∧ v < 2 ^ (8 * n) ∧ Accessible s .write a n ∧ t = written s a n v src := by
  unfold busWrite written Accessible CellsAllow DeviceServes
  by_cases hn : (1 ≤ n ∧ n ≤ 4) ∧ v < 2 ^ (8 * n)
  · rw [if_neg (by omega)]
    by_cases ha : a < s.params.memoryStart
    · rw [if_pos ha, if_pos ha]
      cases hr : routeDevice s.devices a with
      | none => simp; intro; omega
      | some d =>
        simp only [Device.accepts, decide_eq_true_eq]
        by_cases hd : 0 < n ∧ n ≤ 4 ∧ a - d.start.toNat + n ≤ deviceBufferSize s.params.bufferSizing d.mask
        · rw [if_pos hd]
          simp only [Except.ok.injEq]
          constructor
          · intro h; exact ⟨hn.1, hn.2, .inr ⟨ha, d, rfl, hd.2.2⟩, h.symm⟩
          · intro h; exact h.2.2.2.symm
        · rw [if_neg hd]
          simp only [reduceCtorEq, false_iff]
          rintro ⟨-, -, h | ⟨-, d', h, h'⟩, -⟩
          · omega
          · cases h; exact hd ⟨by omega, by omega, h'⟩
    · rw [if_neg ha, if_neg ha]
      by_cases hr : s.arrayRangeOk a n = true
      · rw [if_pos hr]
        have hr' : s.params.memoryStart ≤ a ∧ 0 < n ∧ a + n ≤ s.params.memoryEnd := by
          simpa [State.arrayRangeOk] using hr
        cases hd : s.firstDenied .write a n with
        | some p =>
          simp only [reduceCtorEq, false_iff]
          rintro ⟨-, -, ⟨-, -, h⟩ | ⟨h, -⟩, -⟩
          · rw [(firstDenied_eq_none s .write a n).2 h] at hd; cases hd
          · exact ha h
        | none =>
          have := (firstDenied_eq_none s .write a n).1 hd
          simp only [Except.ok.injEq]
          constructor
          · intro h; exact ⟨hn.1, hn.2, .inl ⟨hr'.1, hr'.2.2, this⟩, h.symm⟩
          · intro h; exact h.2.2.2.symm
      · rw [if_neg hr]
        simp only [reduceCtorEq, false_iff]
        rintro ⟨-, -, h | ⟨h, -⟩, -⟩
        · exact hr (accessible_length_pos_array (kind := .write) hn.1.1 h)
        · exact ha h
  · rw [if_pos (by omega)]
    simp only [reduceCtorEq, false_iff]
    exact fun h => hn ⟨h.1, h.2.1⟩

/-- The faults of a bus write; the state they leave is the state it was given (20_memory.md R81, R85). -/
theorem busWrite_error {s : State} {a n v : Nat} {src : String} {r : Fault} (h : busWrite s a n v src = .error r) :
    r = .overflow v n s ∨ r = .bounds a n s ∨ ∃ p, r = .permission p .write s ∧ a ≤ p ∧ p < a + n := by
  unfold busWrite at h
  split at h
  · left; cases h; rfl
  · right
    split at h
    · split at h
      · left; cases h; rfl
      · split at h <;> cases h
        left; rfl
    · split at h
      · split at h
        · rename_i p hp
          have := firstDenied_eq_some hp
          right; cases h; exact ⟨p, rfl, this.1, this.2.1⟩
        · cases h
      · left; cases h; rfl

theorem busWrite_error_left {s : State} {a n v : Nat} {src : String} {r : Fault} (h : busWrite s a n v src = .error r) :
    r.left = s := by
  rcases busWrite_error h with rfl | rfl | ⟨p, rfl, -⟩ <;> rfl

theorem busRead_error_left {s : State} {a n : Nat} {r : Fault} (h : busRead s a n = .error r) : r.left = s := by
  rcases busRead_error h with rfl | ⟨p, rfl, -⟩ <;> rfl

/-- A write changes memory, tags and device buffers alone. -/
theorem written_fields (s : State) (a n v : Nat) (src : String) :
    ∃ m t ds, written s a n v src = ((s.setMem m).setTags t).setDevices ds := by
  unfold written
  split
  · split
    · exact ⟨s.mem, s.tags, _, rfl⟩
    · exact ⟨s.mem, s.tags, s.devices, rfl⟩
  · obtain ⟨m, t, h⟩ := storeBytes_fields src (beBytes n v) s a
    exact ⟨m, t, s.devices, by rw [h]; rfl⟩

end Sys2Proof.Machine
end

