-- ==== Sys2Proof/Laws/Stored.lean ====
section
/-! SUPPORT. What a write leaves behind, in the terms of Safety.lean, and reads after writes. -/

namespace Sys2Proof.Machine

/-- A byte below the MemoryArray is the routed device's (20_memory.md R83). -/
theorem readByte_low {s : State} {x : Nat} (h : x < s.params.memoryStart) : s.readByte x =
    match routeDevice s.devices x with
    | some d =>
      if x - d.start.toNat < deviceBufferSize s.params.bufferSizing d.mask then some (d.byteAt (x - d.start.toNat)) else none
    | none => none := if_pos h

/-- Any other byte is a cell's (20_memory.md R60). -/
theorem readByte_high {s : State} {x : Nat} (h : ¬x < s.params.memoryStart) :
    s.readByte x = if x < s.params.memoryEnd then some (s.byteAt x) else none := if_neg h

theorem valueAt_low {s : State} {a n : Nat} {d : Device} (h : a < s.params.memoryStart)
    (hr : routeDevice s.devices a = some d) : s.valueAt a n = beValue (d.bytesAt (a - d.start.toNat) n) := by
  rw [State.valueAt, if_pos h, hr]

theorem valueAt_high {s : State} {a n : Nat} (h : ¬a < s.params.memoryStart) :
    s.valueAt a n = beValue (s.bytesAt a n) := by
  rw [State.valueAt, if_neg h]

/-- What one byte of the address space holds depends on the bounds, memory and devices alone. -/
theorem readByte_congr {s t : State} (hq : t.params = s.params) (hm : t.mem = s.mem) (hd : t.devices = s.devices) (x : Nat) :
    t.readByte x = s.readByte x := by
  simp only [State.readByte, State.byteAt, hq, hm, hd]

theorem byteAt_congr {s t : State} (hm : t.mem = s.mem) (x : Nat) : t.byteAt x = s.byteAt x := by
  simp only [State.byteAt, hm]

theorem permsAt_congr {s t : State} (h : t.perms = s.perms) (x : Nat) : t.permsAt x = s.permsAt x := by
  simp only [State.permsAt, h]

/-- Whether an access succeeds depends on the bounds, permissions and devices alone. -/
theorem accessible_congr {s t : State} (hq : t.params = s.params) (hp : t.perms = s.perms) (hd : t.devices = s.devices) (k : Access) (a n : Nat) :
    Accessible t k a n ↔ Accessible s k a n := by
  simp only [Accessible, CellsAllow, DeviceServes, State.permsAt, hq, hp, hd]

theorem bytesAt_congr_mem {s t : State} (hm : t.mem = s.mem) (a n : Nat) : t.bytesAt a n = s.bytesAt a n :=
  bytesAt_congr fun x _ _ => byteAt_congr hm x

theorem valueAt_congr {s t : State} (hq : t.params = s.params) (hm : t.mem = s.mem) (hd : t.devices = s.devices) (a n : Nat) :
    t.valueAt a n = s.valueAt a n := by
  simp only [State.valueAt, hq, hd, bytesAt_congr_mem hm]

theorem sameShared_of_fields {s t : State} (hq : t.params = s.params) (hm : t.mem = s.mem) (hp : t.perms = s.perms) (ht : t.tags = s.tags)
    (hl : t.tlb = s.tlb) (hd : t.devices = s.devices) : SameShared s t :=
  ⟨readByte_congr hq hm hd, hm, hp, ht, hl, hd⟩

/-- The value at an address is below 256 to the width. -/
theorem valueAt_lt (s : State) (a n : Nat) : s.valueAt a n < 256 ^ n := by
  unfold State.valueAt
  split
  · split
    · rename_i d _
      have := beValue_lt (d.bytesAt (a - d.start.toNat) n)
      rwa [device_bytesAt_length] at this
    · exact Nat.pos_of_ne_zero (by simp)
  · have := beValue_lt (s.bytesAt a n)
    rwa [bytesAt_length] at this

section
variable {s : State} {a n v : Nat} {src : String}

theorem written_array (ha : s.params.memoryStart ≤ a) : written s a n v src = s.storeBytes src a (beBytes n v) := by
  rw [written, if_neg (by omega)]

theorem written_device {d : Device} (ha : a < s.params.memoryStart) (hr : routeDevice s.devices a = some d) :
    written s a n v src
      = s.setDevices (updateRouted (fun d => d.store (a - d.start.toNat) (beBytes n v)) a s.devices) := by
  rw [written, if_pos ha, hr]

theorem storeBytes_params (bs : List Byte) : (s.storeBytes src a bs).params = s.params := by
  obtain ⟨m, t, h⟩ := storeBytes_fields src bs s a; rw [h]; rfl

theorem storeBytes_devices (bs : List Byte) : (s.storeBytes src a bs).devices = s.devices := by
  obtain ⟨m, t, h⟩ := storeBytes_fields src bs s a; rw [h]; rfl

theorem setDevices_readByte_low (ds : List Device) {x : Nat} (hx : x < s.params.memoryStart) :
    (s.setDevices ds).readByte x = match routeDevice ds x with
      | some d =>
      if x - d.start.toNat < deviceBufferSize s.params.bufferSizing d.mask then some (d.byteAt (x - d.start.toNat)) else none
      | none => none := readByte_low (s := s.setDevices ds) hx

theorem setDevices_readByte_array (ds : List Device) {x : Nat} (hx : ¬x < s.params.memoryStart) :
    (s.setDevices ds).readByte x = s.readByte x := by
  exact (readByte_high (s := s.setDevices ds) hx).trans (readByte_high (s := s) hx).symm

/-- A write leaves every byte of the address space outside its own as it was. -/
theorem written_readByte_others {x : Nat} (hx : ¬(a ≤ x ∧ x < a + n)) :
    (written s a n v src).readByte x = s.readByte x := by
  by_cases ha : a < s.params.memoryStart
  · cases hr : routeDevice s.devices a with
    | none => rw [written, if_pos ha, hr]
    | some d =>
      rw [written_device ha hr]
      by_cases hxs : x < s.params.memoryStart
      · have hsame := routeDevice_updateRouted (fun d => d.store (a - d.start.toNat) (beBytes n v))
          (fun d => device_store_start d _ _) (fun d => device_store_mask d _ _) a x s.devices
        rw [setDevices_readByte_low _ hxs, readByte_low hxs]
        rcases hsame with h | ⟨d', h1, h2, h3⟩
        · rw [h]
        · rw [hr] at h1; cases h1
          rw [h3, h2]
          have hca := start_le_of_claims (claims_of_routeDevice hr)
          have hcx := start_le_of_claims (claims_of_routeDevice h2)
          simp only [device_store_start, device_store_mask]
          rw [device_byteAt_store, dif_neg]
          rw [beBytes_length]; omega
      · exact setDevices_readByte_array _ hxs
  · rw [written_array (by omega)]
    simp only [State.readByte, storeBytes_devices, storeBytes_params]
    rw [byteAt_storeBytes, dif_neg (by rw [beBytes_length]; exact hx)]

theorem written_readByte_cell (ha : s.params.memoryStart ≤ a) (he : a + n ≤ s.params.memoryEnd) {k : Nat} (hk : k < n) :
    (written s a n v src).readByte (a + k) = some (storedByte n v k) := by
  rw [written_array ha]
  simp only [State.readByte, storeBytes_devices, storeBytes_params]
  rw [if_neg (by omega), if_pos (by omega), byteAt_storeBytes, dif_pos (by rw [beBytes_length]; omega)]
  have e : a + k - a = k := by omega
  simp only [e, beBytes_get n v k hk]

/-- A write leaves what Stored says. -/
theorem written_stored (h : Accessible s .write a n) : Stored src s (written s a n v src) a n v where
  cells := by
    intro ha k hk
    rcases h with ⟨-, he, -⟩ | ⟨h, -⟩
    · exact written_readByte_cell ha he hk
    · omega
  writer := by
    intro ha k hk
    rw [written_array ha, tagAt_storeBytes, if_pos (by rw [beBytes_length]; omega)]
  device := by
    intro ha d hr
    rw [written_device ha hr]
    refine ⟨d.store (a - d.start.toNat) (beBytes n v), ?_, by simp, by simp, by simp, ?_⟩
    · simp only [State.setDevices_devices]
      rw [routeDevice_updateRouted_same _ (fun d => device_store_start d _ _) (fun d => device_store_mask d _ _), hr]
      rfl
    · intro k hk
      rw [device_byteAt_store, dif_pos (by rw [beBytes_length]; omega)]
      have e : a - d.start.toNat + k - (a - d.start.toNat) = k := by omega
      simp only [e, beBytes_get n v k hk]
  others := fun x hx => written_readByte_others hx
  tags := by
    intro x hx
    by_cases ha : a < s.params.memoryStart
    · rw [written, if_pos ha]; split <;> rfl
    · rw [written_array (by omega), tagAt_storeBytes, if_neg (by rw [beBytes_length]; exact hx)]
  perms := by obtain ⟨m, t, ds, h⟩ := written_fields s a n v src; rw [h]; rfl
  tlb := by obtain ⟨m, t, ds, h⟩ := written_fields s a n v src; rw [h]; rfl
  params := by obtain ⟨m, t, ds, h⟩ := written_fields s a n v src; rw [h]; rfl

/-- Reading back what was written, at the same address and width. -/
theorem valueAt_written (h : Accessible s .write a n) : (written s a n v src).valueAt a n = v % 256 ^ n := by
  by_cases ha : a < s.params.memoryStart
  · rcases h with ⟨h, -⟩ | ⟨-, d, hr, -⟩
    · omega
    · rw [written_device ha hr]
      have hr' : routeDevice (updateRouted (fun d => d.store (a - d.start.toNat) (beBytes n v)) a s.devices) a =
          some (d.store (a - d.start.toNat) (beBytes n v)) := by
        rw [routeDevice_updateRouted_same _ (fun d => device_store_start d _ _) (fun d => device_store_mask d _ _), hr]; rfl
      rw [valueAt_low (s := s.setDevices (updateRouted (fun d => d.store (a - d.start.toNat) (beBytes n v)) a s.devices))
        ha hr', device_store_start]
      have := device_bytesAt_store (beBytes n v) d (a - d.start.toNat)
      rw [beBytes_length] at this
      rw [this, beValue_beBytes]
  · rw [written_array (by omega)]
    simp only [State.valueAt, storeBytes_params, if_neg ha]
    have := bytesAt_storeBytes src (beBytes n v) s a
    rw [beBytes_length] at this
    rw [this, beValue_beBytes]

/-- A write keeps every access possible that was possible. -/
theorem accessible_written {k : Access} {x m : Nat} :
    Accessible (written s a n v src) k x m ↔ Accessible s k x m := by
  by_cases ha : a < s.params.memoryStart
  · cases hr : routeDevice s.devices a with
    | none => rw [written, if_pos ha, hr]
    | some d =>
      rw [written_device ha hr]
      have hroute := routeDevice_updateRouted (fun d => d.store (a - d.start.toNat) (beBytes n v))
          (fun d => device_store_start d _ _) (fun d => device_store_mask d _ _) a x s.devices
      simp only [Accessible, CellsAllow, DeviceServes, State.setDevices_devices, State.setDevices_params]
      rcases hroute with h | ⟨d', h1, h2, h3⟩
      · rw [h]; rfl
      · rw [h3, h2]
        constructor
        · rintro (h | ⟨hx, e, he, hb⟩)
          · exact .inl h
          · cases he; exact .inr ⟨hx, d', rfl, by simpa using hb⟩
        · rintro (h | ⟨hx, e, he, hb⟩)
          · exact .inl h
          · cases he; exact .inr ⟨hx, _, rfl, by simpa using hb⟩
  · rw [written_array (by omega)]
    obtain ⟨m', t, h⟩ := storeBytes_fields src (beBytes n v) s a
    rw [h]; exact accessible_congr rfl rfl rfl _ _ _

end

end Sys2Proof.Machine
end

