-- ==== Sys2Proof/Laws/Agents.lean ====
section
/-! SUPPORT. What the acts of other agents can and cannot do to the unit (20_memory.md R102, 60_exceptions.md R310). -/

namespace Sys2Proof.Machine

theorem SameUnit.refl (s : State) : SameUnit s s := ⟨fun _ => rfl, rfl, rfl, rfl, rfl, rfl, rfl, rfl⟩

theorem SameUnit.trans {s t u : State} (h : SameUnit s t) (g : SameUnit t u) : SameUnit s u :=
  ⟨fun q => (g.regs q).trans (h.regs q), g.pc.trans h.pc, g.flags.trans h.flags, g.ie.trans h.ie,
    g.ivr.trans h.ivr, g.vmr.trans h.vmr, g.priv.trans h.priv, g.params.trans h.params⟩

/-- PEND is as before, or was empty and has been filled while IE = 1. -/
def PendFilled (s t : State) : Prop := t.pend = s.pend ∨ (s.pend = none ∧ s.ie = true)

theorem signal_cases (s : State) (v : Word) :
    s.signal v = s ∨ (s.ie = true ∧ s.pend = none ∧ s.signal v = s.setPend (some v)) := by
  unfold State.signal
  cases hi : s.ie <;> cases hp : s.pend <;> simp

/-- One act changes of the unit at most PEND, and the agenda not at all. -/
theorem act_unit (s : State) (x : AgentAct) :
    SameUnit s (act s x) ∧ PendFilled s (act s x) ∧ (act s x).agenda = s.agenda := by
  have refl : SameUnit s s ∧ PendFilled s s ∧ s.agenda = s.agenda := ⟨SameUnit.refl s, .inl rfl, rfl⟩
  have hsig : ∀ v, SameUnit s (s.signal v) ∧ PendFilled s (s.signal v) ∧ (s.signal v).agenda = s.agenda := by
    intro v
    rcases signal_cases s v with h | ⟨hi, hp, h⟩
    · rw [h]; exact refl
    · rw [h]; exact ⟨⟨fun _ => rfl, rfl, rfl, rfl, rfl, rfl, rfl, rfl⟩, .inr ⟨hp, hi⟩, rfl⟩
  cases x with
  | busWrite a n v src =>
    simp only [act]
    cases h : busWrite s a n v src with
    | error r => exact refl
    | ok t =>
      obtain ⟨-, -, -, rfl⟩ := (busWrite_ok_iff s t a n v src).1 h
      obtain ⟨m, g, ds, e⟩ := written_fields s a n v src
      rw [e]; exact ⟨⟨fun _ => rfl, rfl, rfl, rfl, rfl, rfl, rfl, rfl⟩, .inl rfl, rfl⟩
  | toggle bit a w =>
    simp only [act]
    split
    · exact ⟨⟨fun _ => rfl, rfl, rfl, rfl, rfl, rfl, rfl, rfl⟩, .inl rfl, rfl⟩
    · exact refl
  | flush => exact ⟨⟨fun _ => rfl, rfl, rfl, rfl, rfl, rfl, rfl, rfl⟩, .inl rfl, rfl⟩
  | signal v => exact hsig v
  | deviceSignal k =>
    simp only [act]
    split
    · exact hsig _
    · exact refl
  | deviceStore k off b => exact ⟨⟨fun _ => rfl, rfl, rfl, rfl, rfl, rfl, rfl, rfl⟩, .inl rfl, rfl⟩
  | tableWalk v va =>
    simp only [act]
    split
    · split
      · exact ⟨⟨fun _ => rfl, rfl, rfl, rfl, rfl, rfl, rfl, rfl⟩, .inl rfl, rfl⟩
      · exact refl
    · exact refl
  | tlbFill va e =>
    simp only [act]
    split
    · exact ⟨⟨fun _ => rfl, rfl, rfl, rfl, rfl, rfl, rfl, rfl⟩, .inl rfl, rfl⟩
    · exact refl

theorem acts_unit (acts : List AgentAct) (s : State) :
    SameUnit s (acts.foldl act s) ∧ PendFilled s (acts.foldl act s) ∧ (acts.foldl act s).agenda = s.agenda := by
  induction acts generalizing s with
  | nil => exact ⟨SameUnit.refl s, .inl rfl, rfl⟩
  | cons x rest ih =>
    obtain ⟨h1, p1, a1⟩ := act_unit s x
    obtain ⟨h2, p2, a2⟩ := ih (act s x)
    refine ⟨h1.trans h2, ?_, a2.trans a1⟩
    simp only [List.foldl_cons]
    rcases p1 with p1 | p1
    · rcases p2 with p2 | ⟨p2, i2⟩
      · exact .inl (p2.trans p1)
      · exact .inr ⟨p1 ▸ p2, h1.ie ▸ i2⟩
    · exact .inr p1

/-- At a landing point only PEND of the unit can change: from none to a vector, while IE = 1. -/
theorem land_unit (s : State) : SameUnit s (land s) ∧ PendFilled s (land s) ∧ (land s).agenda = s.agenda.tail := by
  unfold land
  split
  · rename_i h; rw [h]; exact ⟨SameUnit.refl s, .inl rfl, rfl⟩
  · rename_i acts rest h
    obtain ⟨h1, p1, a1⟩ := acts_unit acts (s.setAgenda rest)
    exact ⟨⟨h1.regs, h1.pc, h1.flags, h1.ie, h1.ivr, h1.vmr, h1.priv, h1.params⟩, p1, by rw [h]; exact a1⟩

/-- Nothing lands when no other agent acts. -/
theorem land_quiet {s : State} (h : s.Quiet) : land s = s := by
  have h : s.agenda = [] := h
  unfold land; rw [h]

@[simp] theorem land_reg (s : State) (q : Reg) : (land s).reg q = s.reg q := (land_unit s).1.regs q
@[simp] theorem land_pc (s : State) : (land s).pc = s.pc := (land_unit s).1.pc
@[simp] theorem land_flags (s : State) : (land s).flags = s.flags := (land_unit s).1.flags
@[simp] theorem land_ie (s : State) : (land s).ie = s.ie := (land_unit s).1.ie
@[simp] theorem land_ivr (s : State) : (land s).ivr = s.ivr := (land_unit s).1.ivr
@[simp] theorem land_vmr (s : State) : (land s).vmr = s.vmr := (land_unit s).1.vmr
@[simp] theorem land_params (s : State) : (land s).params = s.params := (land_unit s).1.params
@[simp] theorem land_priv (s : State) : (land s).priv = s.priv := (land_unit s).1.priv

/-! ## The results of Except, for `do` blocks -/

@[simp] theorem ok_bind {ε α β : Type} (x : α) (f : α → Except ε β) : (Except.ok x >>= f) = f x := rfl
@[simp] theorem error_bind {ε α β : Type} (e : ε) (f : α → Except ε β) : (Except.error e >>= f) = Except.error e := rfl

/-- From a bind that answers a value, the two values. -/
theorem bind_ok {ε α β : Type} {x : Except ε α} {f : α → Except ε β} {b : β} (h : (x >>= f) = .ok b) :
    ∃ a, x = .ok a ∧ f a = .ok b := by
  cases x with
  | ok a => exact ⟨a, rfl, h⟩
  | error e => cases h

/-- A bind that answers an error: it is the first part's, or the second's. -/
theorem bind_error {ε α β : Type} {x : Except ε α} {f : α → Except ε β} {e : ε} (h : (x >>= f) = .error e) :
    x = .error e ∨ ∃ a, x = .ok a ∧ f a = .error e := by
  cases x with
  | ok a => exact .inr ⟨a, rfl, h⟩
  | error e' => left; cases h; rfl

end Sys2Proof.Machine
end

