-- ==== Sys2Proof/Laws/Decode.lean ====
section
/-! SUPPORT. The laws of the codec: an instruction is its form, mnemonic and operands; what a mask extracts; what decoding
answers under any codec; and that the reference codec meets `Codec.Ok` (30_encoding.md R110 to R125). -/

namespace Sys2Proof

/-! ## An instruction is its form, mnemonic and operands (30_encoding.md R114) -/

@[simp] theorem build_self (i : Instr) : build i.form i.mnemonic i.operands = some i := by cases i <;> rfl

/-- What `build` answers has the form and the mnemonic it was given. -/
theorem build_some {f : Form} {m : Mnemonic} {o : Operands} {i : Instr} (h : build f m o = some i) :
    i.form = f ∧ i.mnemonic = m := by
  obtain ⟨src, dst, srcImm, dstImm, width, flags⟩ := o
  cases f <;> simp only [build, Option.bind_eq_bind, Option.bind_eq_some_iff] at h <;> (try obtain ⟨_, _, h⟩ := h) <;>
    (try obtain ⟨_, _, h⟩ := h) <;> (try obtain ⟨_, _, h⟩ := h) <;> cases m <;> cases h <;> exact ⟨rfl, rfl⟩

/-- What `build` answers is well formed when its width operand is legal, if it has one (30_encoding.md R115). -/
theorem build_wellFormed {f : Form} {m : Mnemonic} {o : Operands} {i : Instr} (h : build f m o = some i)
    (hw : ∀ w, o.width = some w → WidthOk w = true) : WellFormed i = true := by
  obtain ⟨src, dst, srcImm, dstImm, width, flags⟩ := o
  cases f <;> simp only [build, Option.bind_eq_bind, Option.bind_eq_some_iff] at h hw <;> (try obtain ⟨_, h0, h⟩ := h) <;>
    (try obtain ⟨_, _, h⟩ := h) <;> (try obtain ⟨_, _, h⟩ := h) <;> cases m <;> cases h <;>
    first | rfl | exact hw _ h0

/-! ## Fields (30_encoding.md R113) -/

/-- A contiguous mask extracts the bits from its lowest one on (30_encoding.md R113: the field is `W[hi:lo]`). -/
theorem extractMask_run {m len : Nat} (h : m = (2 ^ len - 1) * 2 ^ maskShift m) (w : Nat) :
    extractMask m w = w / 2 ^ maskShift m % 2 ^ len := by
  have e : m >>> maskShift m = 2 ^ len - 1 := by
    generalize maskShift m = k at h
    rw [Nat.shiftRight_eq_div_pow, h, Nat.mul_div_cancel _ (Nat.two_pow_pos k)]
  rw [extractMask, e, Nat.and_two_pow_sub_one_eq_mod, Nat.shiftRight_eq_div_pow]

theorem nibbles_toNat (x y : BitVec 4) : (nibbles x y).toNat = x.toNat * 16 + y.toNat := by
  revert x y; decide

theorem immBytes_value (i : Word) (rest : List Byte) :
    beValue (immBytes i ++ rest) = i.toNat * 256 ^ rest.length + beValue rest := by
  have h := i.isLt
  simp only [immBytes, List.cons_append, List.nil_append, beValue, List.length_cons, BitVec.extractLsb'_toNat,
    Nat.shiftRight_eq_div_pow]
  have e : i.toNat = (i.toNat / 2 ^ 24 % 2 ^ 8) * 256 ^ 3 + (i.toNat / 2 ^ 16 % 2 ^ 8) * 256 ^ 2
      + (i.toNat / 2 ^ 8 % 2 ^ 8) * 256 + i.toNat / 2 ^ 0 % 2 ^ 8 := by omega
  conv_rhs => rw [e]
  simp only [Nat.pow_succ, Nat.pow_zero]
  ring

theorem immBytes_length (i : Word) : (immBytes i).length = 4 := rfl

theorem FormRow.mask?_mem {F : FormRow} {n : FieldName} {m : Nat} (h : F.mask? n = some m) : (n, m) ∈ F.masks := by
  unfold FormRow.mask? at h
  cases hf : F.masks.find? fun p => p.1 == n with
  | none => rw [hf] at h; cases h
  | some p =>
    rw [hf] at h
    have h1 := List.mem_of_find?_eq_some hf
    have h2 : p.1 = n := by simpa using List.find?_some hf
    cases h
    rw [← h2]; exact h1

/-- A row that meets `FormRow.Ok` has a mask for exactly the fields of its form. -/
theorem FormRow.Ok.mask?_isSome {F : FormRow} (h : F.Ok) (n : FieldName) :
    (F.mask? n).isSome = true ↔ n ∈ F.form.fields := by
  rw [← h.fields n, FormRow.mask?, Option.isSome_map, List.find?_isSome]
  simp only [beq_iff_eq, List.mem_map]

/-! ## Registers by id (30_encoding.md R118) -/

/-- Sixteen ids and sixteen registers: an id names the register that has it. -/
theorem Codec.Ok.regOf_idOf {c : Codec} (h : c.Ok) (r : Reg) : c.regOf (c.idOf r) = r := by
  have hm := h.registers.2 r
  have hl : c.regIds.idxOf r < c.regIds.length := List.idxOf_lt_length_iff.2 hm
  have hl' := h.registers.1
  unfold Codec.regOf Codec.idOf
  have e : (BitVec.ofNat 4 (c.regIds.idxOf r)).toNat = c.regIds.idxOf r := by
    rw [BitVec.toNat_ofNat]; omega
  rw [e, List.getElem?_eq_getElem hl, List.getElem_idxOf hl]; rfl

/-! ## What decoding answers, under any codec -/

section
variable {c : Codec} {b0 : Byte} {F : FormRow}

theorem Codec.formOf_mem (h : c.formOf b0 = some F) : F ∈ c.forms := List.mem_of_find?_eq_some h

/-- The opcode a first byte selects its row by (30_encoding.md R111). -/
theorem Codec.formOf_opcode (h : c.formOf b0 = some F) :
    b0.toNat % 16 ∈ F.opcodes ∧ BitVec.ofNat 8 (F.typeCode * 16 + b0.toNat % 16) = b0 := by
  have h2 := List.find?_some h
  simp only [Bool.and_eq_true, beq_iff_eq, List.contains_eq_mem, decide_eq_true_eq] at h2
  refine ⟨h2.2, BitVec.eq_of_toNat_eq ?_⟩
  have := b0.isLt
  rw [BitVec.toNat_ofNat, h2.1]; omega

/-- A word is malformed exactly when its width field is illegal (30_encoding.md R115). -/
theorem Codec.decodeWord_illegal {w : Nat} (h : F.widthLegal w = false) :
    c.decodeWord F b0 w = .error (.malformedField w) := by
  rw [Codec.decodeWord, h]; rfl

/-- What decoding a word answers: the form's instruction of the first byte's mnemonic, with the word's operands. -/
theorem Codec.decodeWord_ok {w : Nat} {i : Instr} (h : c.decodeWord F b0 w = .ok i) :
    F.widthLegal w = true ∧ ∃ m, c.mnemonicOf b0 = some m ∧ build F.form m (c.operands F w) = some i := by
  unfold Codec.decodeWord at h
  split at h
  · rename_i hw
    refine ⟨hw, ?_⟩
    unfold Codec.record at h
    cases hm : c.mnemonicOf b0 with
    | none => rw [hm] at h; cases h
    | some m =>
      rw [hm] at h
      refine ⟨m, rfl, ?_⟩
      simp only [Option.map_some, Option.bind_some, Decoded.instr] at h
      split at h
      · rename_i j hj; cases h; exact hj
      · cases h
  · cases h

/-- The instruction a word decodes to has the form of the row and the mnemonic of the first byte (30_encoding.md R114). -/
theorem Codec.decodeWord_variant {w : Nat} {i : Instr} (h : c.decodeWord F b0 w = .ok i) :
    c.mnemonicOf b0 = some i.mnemonic ∧ i.form = F.form := by
  obtain ⟨-, m, hm, hb⟩ := Codec.decodeWord_ok h
  obtain ⟨h1, h2⟩ := build_some hb
  exact ⟨by rw [hm, h2], h1⟩

/-- An illegal first byte (30_encoding.md R111). -/
theorem Codec.decode_invalid (h : c.formOf b0 = none) (rest : List Byte) :
    c.decode (b0 :: rest) = .error (.invalidInstruction b0) := by
  simp only [Codec.decode, h]

/-- Decoding a byte string that starts with exactly one instruction's bytes decodes their word (30_encoding.md R112). -/
theorem Codec.decode_append {bs rest : List Byte} (hF : c.formOf b0 = some F) (hl : F.length = (b0 :: bs).length) :
    c.decode (b0 :: bs ++ rest) = (c.decodeWord F b0 (beValue (b0 :: bs))).map fun i => (i, rest) := by
  simp only [List.cons_append, Codec.decode, hF, List.length_append]
  rw [if_neg (by simp at hl; omega), hl]
  have e1 : (b0 :: (bs ++ rest)).take (b0 :: bs).length = b0 :: bs := List.take_left (l₁ := b0 :: bs) (l₂ := rest)
  have e2 : (b0 :: (bs ++ rest)).drop (b0 :: bs).length = rest := List.drop_left (l₁ := b0 :: bs) (l₂ := rest)
  rw [e1, e2]

/-- When `decode` answers, and what. -/
theorem Codec.decode_ok {bs rest : List Byte} {i : Instr} (h : c.decode bs = .ok (i, rest)) :
    ∃ b0 tl F, bs = b0 :: tl ∧ c.formOf b0 = some F ∧ F.length ≤ bs.length ∧
      c.decodeWord F b0 (beValue (bs.take F.length)) = .ok i ∧ rest = bs.drop F.length := by
  unfold Codec.decode at h
  split at h
  · cases h
  · rename_i b0 tl
    split at h
    · cases h
    · rename_i F hF
      split at h
      · cases h
      · rename_i hl
        cases hd : c.decodeWord F b0 (beValue ((b0 :: tl).take F.length)) with
        | error e => rw [hd] at h; cases h
        | ok j =>
          rw [hd] at h
          cases h
          exact ⟨b0, tl, F, rfl, hF, by simp only [List.length_cons]; omega, hd, rfl⟩

theorem Form.length_mem (f : Form) : f.length ∈ [1, 2, 3, 5, 6, 10] := by cases f <;> decide

/-- Under a codec that meets `Codec.Ok`, an instruction that decodes from a row has the row's length (30_encoding.md
R116). -/
theorem Codec.Ok.length_of_decodeWord (h : c.Ok) (hF : c.formOf b0 = some F) {w : Nat} {i : Instr}
    (hd : c.decodeWord F b0 w = .ok i) : i.length = F.length := by
  rw [Instr.length, (Codec.decodeWord_variant hd).2, (h.forms F (Codec.formOf_mem hF)).length]

/-- Every instruction `decodeWord` answers is well formed. -/
theorem Codec.decodeWord_wellFormed {w : Nat} {i : Instr} (hw : ∀ x, F.field? .width w = some x → x < 16)
    (h : c.decodeWord F b0 w = .ok i) : WellFormed i = true := by
  obtain ⟨hl, m, -, hb⟩ := Codec.decodeWord_ok h
  refine build_wellFormed hb fun v hv => ?_
  simp only [Codec.operands] at hv
  unfold FormRow.widthLegal at hl
  cases hf : F.field? .width w with
  | none => rw [hf] at hv; cases hv
  | some x =>
    rw [hf] at hv hl
    simp only [decide_eq_true_eq] at hl
    cases hv
    have := hw x hf
    simp only [WidthOk, BitVec.toNat_ofNat, decide_eq_true_eq]
    omega

end

/-! ## The reference codec -/

theorem referenceForms_ok : ∀ F ∈ referenceForms, F.Ok := by
  have key : ∀ F ∈ referenceForms, (F.typeCode < 16 ∧ ∀ o ∈ F.opcodes, o < 16) ∧ F.length = F.form.length ∧
      (∀ p ∈ F.masks, p.1 ∈ F.form.fields) ∧ (∀ n ∈ F.form.fields, n ∈ F.masks.map Prod.fst) ∧
      (F.masks.map Prod.fst).Nodup ∧
      (∀ p ∈ F.masks, p.2 = (2 ^ p.1.bits - 1) * 2 ^ maskShift p.2 ∧ p.2 < 256 ^ F.length) ∧
      (F.masks.Pairwise fun p q => p.2 &&& q.2 = 0) ∧
      F.mask? .instructionCode = some (0xFF * 256 ^ (F.length - 1)) := by decide
  intro F hF
  obtain ⟨h1, h2, h3, h4, h5, h6, h7, h8⟩ := key F hF
  exact ⟨h1, h2, fun n => ⟨fun h => by obtain ⟨p, hp, rfl⟩ := List.mem_map.1 h; exact h3 p hp, h4 n⟩, h5, h6, h7, h8⟩

/-- The instruction of a form and a mnemonic with every operand zero, where R125 has one. -/
def zeroInstr (f : Form) (m : Mnemonic) : Option Instr :=
  build f m ⟨some .A, some .A, some 0, some 0, some 0, some 0⟩

/-- The reference table of R122 to R125 encodes every instruction. -/
theorem reference_ok : Codec.reference.Ok where
  forms := referenceForms_ok
  oneRow := by decide
  selects := by
    have key : ∀ F ∈ referenceForms, ∀ o ∈ F.opcodes,
        Codec.reference.formOf (BitVec.ofNat 8 (F.typeCode * 16 + o)) = some F ∧
        ((Codec.reference.mnemonicOf (BitVec.ofNat 8 (F.typeCode * 16 + o))).bind (zeroInstr F.form)).isSome = true := by
      decide
    intro F hF o ho
    obtain ⟨h1, h2⟩ := key F hF o ho
    refine ⟨h1, ?_⟩
    cases hm : Codec.reference.mnemonicOf (BitVec.ofNat 8 (F.typeCode * 16 + o)) with
    | none => rw [hm] at h2; cases h2
    | some m =>
      rw [hm] at h2
      obtain ⟨i, hi⟩ := Option.isSome_iff_exists.1 h2
      obtain ⟨e1, e2⟩ := build_some hi
      exact ⟨i, by rw [e2], e1.symm⟩
  complete := by
    intro i
    have all : ∀ f m, (zeroInstr f m).isSome = true → ∃ F ∈ Codec.reference.forms, F.form = f ∧
        ∃ o ∈ F.opcodes, Codec.reference.mnemonicOf (BitVec.ofNat 8 (F.typeCode * 16 + o)) = some m := by
      intro f m; cases f <;> cases m <;> decide
    exact all i.form i.mnemonic (by cases i <;> rfl)
  registers := ⟨rfl, fun r => by cases r <;> decide⟩

/-- The reference numbering is that of 10_state.md R21. -/
theorem reference_idOf (r : Reg) : Codec.reference.idOf r = r.id := by cases r <;> rfl

@[simp] theorem reference_regOf_id (r : Reg) : Codec.reference.regOf r.id = r := by cases r <;> rfl

theorem bitvec_field {n x : Nat} {v : BitVec n} (h : x = v.toNat) : BitVec.ofNat n x = v := by
  rw [h, BitVec.ofNat_toNat, BitVec.setWidth_eq]

end Sys2Proof
end

