-- ==== Sys2Proof/Laws/Ops.lean ====
section
/-! SUPPORT. What the unit's own transactions, the stack and the interrupt operations do: once for every state, and once
for a quiet state, in which no other agent acts. -/

namespace Sys2Proof.Machine

/-! ## Writes keep the unit -/

section
variable (s : State) (a n v : Nat) (src : String)

@[simp] theorem written_reg (q : Reg) : (written s a n v src).reg q = s.reg q := by
  obtain ⟨m, t, ds, h⟩ := written_fields s a n v src; rw [h]; rfl
@[simp] theorem written_regs : (written s a n v src).regs = s.regs := by
  obtain ⟨m, t, ds, h⟩ := written_fields s a n v src; rw [h]; rfl
@[simp] theorem written_pc : (written s a n v src).pc = s.pc := by
  obtain ⟨m, t, ds, h⟩ := written_fields s a n v src; rw [h]; rfl
@[simp] theorem written_flags : (written s a n v src).flags = s.flags := by
  obtain ⟨m, t, ds, h⟩ := written_fields s a n v src; rw [h]; rfl
@[simp] theorem written_ie : (written s a n v src).ie = s.ie := by
  obtain ⟨m, t, ds, h⟩ := written_fields s a n v src; rw [h]; rfl
@[simp] theorem written_pend : (written s a n v src).pend = s.pend := by
  obtain ⟨m, t, ds, h⟩ := written_fields s a n v src; rw [h]; rfl
@[simp] theorem written_ivr : (written s a n v src).ivr = s.ivr := by
  obtain ⟨m, t, ds, h⟩ := written_fields s a n v src; rw [h]; rfl
@[simp] theorem written_vmr : (written s a n v src).vmr = s.vmr := by
  obtain ⟨m, t, ds, h⟩ := written_fields s a n v src; rw [h]; rfl
@[simp] theorem written_priv : (written s a n v src).priv = s.priv := by
  obtain ⟨m, t, ds, h⟩ := written_fields s a n v src; rw [h]; rfl
@[simp] theorem written_params : (written s a n v src).params = s.params := by
  obtain ⟨m, t, ds, h⟩ := written_fields s a n v src; rw [h]; rfl
@[simp] theorem written_perms : (written s a n v src).perms = s.perms := by
  obtain ⟨m, t, ds, h⟩ := written_fields s a n v src; rw [h]; rfl
@[simp] theorem written_tlb : (written s a n v src).tlb = s.tlb := by
  obtain ⟨m, t, ds, h⟩ := written_fields s a n v src; rw [h]; rfl
@[simp] theorem written_agenda : (written s a n v src).agenda = s.agenda := by
  obtain ⟨m, t, ds, h⟩ := written_fields s a n v src; rw [h]; rfl

end

/-! ## One read, one write -/

/-- When a read of the unit answers a value, and the state after it (00_scope.md R11). -/
theorem memRead_ok_iff (s t : State) (a n v : Nat) :
    memRead s a n = .ok (v, t) ↔
      (1 ≤ n ∧ n ≤ 4) ∧ Accessible (land s) .read a n ∧ v = (land s).valueAt a n ∧ t = land s := by
  unfold memRead
  cases h : busRead (land s) a n with
  | error r =>
    simp only [error_bind, reduceCtorEq, false_iff]
    rintro ⟨h1, h2, rfl, rfl⟩
    rw [(busRead_ok_iff _ _ _ _).2 ⟨h1, h2, rfl⟩] at h; cases h
  | ok w =>
    have := (busRead_ok_iff _ _ _ _).1 h
    simp only [ok_bind, pure, Except.pure, Except.ok.injEq, Prod.mk.injEq]
    constructor
    · rintro ⟨rfl, rfl⟩; exact ⟨this.1, this.2.1, this.2.2, rfl⟩
    · rintro ⟨-, -, rfl, rfl⟩; exact ⟨this.2.2, rfl⟩

theorem memRead_error {s : State} {a n : Nat} {r : Fault} (h : memRead s a n = .error r) :
    r = .bounds a n (land s) ∨ ∃ p, r = .permission p .read (land s) ∧ a ≤ p ∧ p < a + n := by
  unfold memRead at h
  rcases bind_error h with h | ⟨_, _, h⟩
  · exact busRead_error h
  · cases h

theorem memRead_error_left {s : State} {a n : Nat} {r : Fault} (h : memRead s a n = .error r) : r.left = land s := by
  rcases memRead_error h with rfl | ⟨p, rfl, -⟩ <;> rfl

theorem memRead_quiet {s : State} (hq : s.Quiet) {a n : Nat} (hn : 1 ≤ n ∧ n ≤ 4) (h : Accessible s .read a n) :
    memRead s a n = .ok (s.valueAt a n, s) :=
  (memRead_ok_iff _ _ _ _ _).2 (by rw [land_quiet hq]; exact ⟨hn, h, rfl, rfl⟩)

/-- When a write of the unit succeeds, and the state after it (00_scope.md R11). -/
theorem memWrite_ok_iff (s t : State) (a n v : Nat) :
    memWrite s a n v = .ok t ↔ (1 ≤ n ∧ n ≤ 4) ∧ v < 2 ^ (8 * n) ∧ Accessible (land s) .write a n ∧
      t = written (land s) a n v s.params.unitTag := busWrite_ok_iff _ _ _ _ _ _

theorem memWrite_error_left {s : State} {a n v : Nat} {r : Fault} (h : memWrite s a n v = .error r) :
    r.left = land s := busWrite_error_left h

theorem memWrite_quiet {s : State} (hq : s.Quiet) {a n v : Nat} (hn : 1 ≤ n ∧ n ≤ 4) (hv : v < 2 ^ (8 * n))
    (h : Accessible s .write a n) : memWrite s a n v = .ok (written s a n v s.params.unitTag) :=
  (memWrite_ok_iff _ _ _ _ _).2 (by rw [land_quiet hq]; exact ⟨hn, hv, h, rfl⟩)

theorem word_fits (v : Word) : v.toNat < 2 ^ (8 * 4) := v.isLt

theorem valueAt4_toNat (s : State) (a : Nat) : (BitVec.ofNat 32 (s.valueAt a 4)).toNat = s.valueAt a 4 := by
  have := valueAt_lt s a 4
  simp only [BitVec.toNat_ofNat]
  omega

/-! ## The stack -/

/-- When a push succeeds, and the state after it (10_state.md R24). -/
theorem push_ok_iff (s t : State) (v : Word) :
    push s v = .ok t ↔ Accessible (land (s.setReg .S (s.reg .S + 4))) .write (s.reg .S + 4).toNat 4 ∧
      t = written (land (s.setReg .S (s.reg .S + 4))) (s.reg .S + 4).toNat 4 v.toNat s.params.unitTag := by
  unfold push
  simp only [State.reg_setReg_same]
  rw [memWrite_ok_iff]
  constructor
  · rintro ⟨-, -, h1, h2⟩; exact ⟨h1, h2⟩
  · rintro ⟨h1, h2⟩; exact ⟨by omega, word_fits v, h1, h2⟩

/-- A push that faults has incremented S (42_control.md R210, R212). -/
theorem push_error_left {s : State} {v : Word} {r : Fault} (h : push s v = .error r) :
    r.left = land (s.setReg .S (s.reg .S + 4)) := memWrite_error_left h

theorem push_quiet {s : State} (hq : s.Quiet) (v : Word) (h : Accessible s .write (s.reg .S + 4).toNat 4) :
    push s v = .ok (written (s.setReg .S (s.reg .S + 4)) (s.reg .S + 4).toNat 4 v.toNat s.params.unitTag) := by
  have hq' : (s.setReg .S (s.reg .S + 4)).Quiet := hq
  rw [push_ok_iff, land_quiet hq']
  exact ⟨(accessible_congr rfl rfl rfl _ _ _).2 h, rfl⟩

theorem popInto_quiet {s : State} (hq : s.Quiet) (r : Reg) (h : Accessible s .read (s.reg .S).toNat 4) :
    popInto s r = .ok (
      let t := s.setReg r (BitVec.ofNat 32 (s.valueAt (s.reg .S).toNat 4))
      t.setReg .S (t.reg .S - 4)) := by
  unfold popInto
  rw [memRead_quiet hq (by omega) h]; rfl

theorem popInto_ok {s t : State} {r : Reg} (h : popInto s r = .ok t) :
    Accessible (land s) .read (s.reg .S).toNat 4 ∧
      ∃ u, u = (land s).setReg r (BitVec.ofNat 32 ((land s).valueAt (s.reg .S).toNat 4)) ∧
        t = u.setReg .S (u.reg .S - 4) := by
  unfold popInto at h
  obtain ⟨⟨v, u⟩, h1, h2⟩ := bind_ok h
  obtain ⟨-, h3, rfl, rfl⟩ := (memRead_ok_iff _ _ _ _ _).1 h1
  cases h2
  exact ⟨h3, _, rfl, rfl⟩

theorem popInto_error_left {s : State} {r : Reg} {e : Fault} (h : popInto s r = .error e) : e.left = land s := by
  unfold popInto at h
  rcases bind_error h with h | ⟨_, _, h⟩
  · exact memRead_error_left h
  · cases h

theorem callTo_quiet {s : State} (hq : s.Quiet) (target : Word) (h : Accessible s .write (s.reg .S + 4).toNat 4) :
    callTo s target = .ok ((written (s.setReg .S (s.reg .S + 4)) (s.reg .S + 4).toNat 4 s.pc.toNat
      s.params.unitTag).setPc target) := by
  unfold callTo
  rw [push_quiet hq _ h]; rfl

/-! ## The step -/

/-- A step is fetch, then exec with I advanced, then the interrupt check (40_step_and_fetch.md R150). -/
theorem step_of_fetch {s s1 : State} {i : Instr} {next : Word} (h : fetch s.pc.toNat s = .ok ((i, next), s1)) :
    step s = thenInterruptCheck (exec i (s1.setPc next)) := by
  unfold step; rw [h]

theorem step_of_fetch_error {s : State} {r : Fault} (h : fetch s.pc.toNat s = .error r) : step s = .fault r := by
  unfold step; rw [h]

end Sys2Proof.Machine
end

