-- ==== Sys2Proof/Laws/Fetch.lean ====
section
/-! SUPPORT. What a fetch does: with translation off and nobody else acting it is the decoding of the cells at the
address; and in every state it changes nothing of the unit but PEND (40_step_and_fetch.md R152 to R155). -/

namespace Sys2Proof.Machine

/-! ## Physical fetch by a quiet unit -/

theorem CellsAllow.mono {s : State} {k : Access} {a n b m : Nat} (h : CellsAllow s k a n) (h1 : a ≤ b) (h2 : b + m ≤ a + n) :
    CellsAllow s k b m := by
  obtain ⟨x, y, z⟩ := h
  refine ⟨by omega, by omega, fun j hj => ?_⟩
  have := z (b - a + j) (by omega)
  rwa [show a + (b - a + j) = b + j by omega] at this

theorem fetchByte_quiet {s : State} (hq : s.Quiet) {p : Nat} (h : CellsAllow s .execute p 1) :
    fetchByte s p = .ok (s.byteAt p, s) := by
  obtain ⟨h1, h2, h3⟩ := h
  have hx : (s.permsAt p).x = true := h3 0 (by omega)
  have hi : s.inArray p = true := by simp only [State.inArray, decide_eq_true_eq]; omega
  simp only [fetchByte, land_quiet hq]
  rw [if_neg (by simp [hi]), if_neg (by simp [hx])]

theorem fetchByte_outside {s : State} (hq : s.Quiet) {p : Nat} (h : s.inArray p = false) :
    fetchByte s p = .error (.bounds p 1 s) := by
  simp only [fetchByte, land_quiet hq]
  rw [if_pos (by simp [h])]

theorem fetchAddress_physical {s : State} (hv : s.vmr = 0) (va : Nat) : fetchAddress va s = .ok (va, s) := by
  rw [fetchAddress, if_pos hv]

theorem fetchBytes_physical {s : State} (hq : s.Quiet) (hv : s.vmr = 0) {n a : Nat} (h : CellsAllow s .execute a n) :
    fetchBytes n a s = .ok (s.bytesAt a n, s) := by
  induction n generalizing a with
  | zero => rfl
  | succ n ih =>
    rw [fetchBytes, fetchAddress_physical hv, ok_bind]
    simp only [fetchByte_quiet hq (h.mono (Nat.le_refl a) (by omega)), ok_bind]
    rw [ih (h.mono (by omega) (by omega))]; rfl

theorem validateAccess_off {s : State} (p : Bool) (xs ys : List Nat) : validateAccess p xs ys 0 s = .ok s := by
  rw [validateAccess, if_pos rfl]

theorem fetchFirst_physical {s : State} (hv : s.vmr = 0) (a : Nat) : fetchFirst a s = fetchByte s a := by
  rw [fetchFirst, hv, validateAccess_off, ok_bind, fetchAddress_physical hv]; rfl

theorem fetchRest_physical {s : State} (hv : s.vmr = 0) (a n : Nat) :
    fetchRest a n s = fetchBytes (n - 1) (a + 1) s := by
  rw [fetchRest]
  split
  · rfl
  · rw [hv, validateAccess_off]; rfl

/-- A quiet physical fetch whose first byte selects a form and whose bytes are all executable cells is the decoding of
their word. -/
theorem fetch_physical {s : State} (hq : s.Quiet) (hv : s.vmr = 0) {a : Nat} {F : FormRow}
    (hF : s.params.codec.formOf (s.byteAt a) = some F) (h1 : 1 ≤ F.length) (h : CellsAllow s .execute a F.length) :
    fetch a s = match s.params.codec.decodeWord F (s.byteAt a) (beValue (s.bytesAt a F.length)) with
      | .ok i => .ok ((i, BitVec.ofNat 32 (a + F.length)), s)
      | .error (.malformedField w) => .error (.decodeMalformed a w s)
      | .error _ => .error (.decodeInvalid a (s.byteAt a) s) := by
  obtain ⟨n, hn⟩ : ∃ n, F.length = n + 1 := ⟨F.length - 1, by omega⟩
  rw [fetch, fetchFirst_physical hv, fetchByte_quiet hq (h.mono (Nat.le_refl a) (by omega)), ok_bind]
  simp only [hF]
  rw [fetchRest_physical hv, fetchBytes_physical hq hv (h.mono (by omega) (by omega)), ok_bind, hn]
  rfl

/-- A quiet physical fetch of a byte that selects no form. -/
theorem fetch_physical_invalid {s : State} (hq : s.Quiet) (hv : s.vmr = 0) {a : Nat} (h : CellsAllow s .execute a 1)
    (hF : s.params.codec.formOf (s.byteAt a) = none) : fetch a s = .error (.decodeInvalid a (s.byteAt a) s) := by
  rw [fetch, fetchFirst_physical hv, fetchByte_quiet hq h, ok_bind]
  simp only [hF]

/-! ## Every fetch -/

/-- The states an operation of fetch answers with or leaves at a fault, against the state it is given. -/
def FetchRel (R : State → State → Prop) {α : Type} (s : State) (x : Except Fault (α × State)) : Prop :=
  match x with
  | .ok p => R s p.2
  | .error r => R s r.left

/-- What a relation must be so that fetch keeps to it: it holds across landing points and TLB fills. -/
structure FetchClosed (R : State → State → Prop) : Prop where
  refl  : ∀ s, R s s
  trans : ∀ s t u, R s t → R t u → R s u
  land  : ∀ s, R s (land s)
  fill  : ∀ s va e, va < 2 ^ 32 → R s (s.fillTlb va e)

section
variable {R : State → State → Prop} (c : FetchClosed R)

include c in
theorem FetchRel.bind {α β : Type} {s : State} {x : Except Fault (α × State)} {f : α × State → Except Fault (β × State)}
    (h : FetchRel R s x) (g : ∀ a, x = .ok a → FetchRel R a.2 (f a)) : FetchRel R s (x >>= f) := by
  cases x with
  | error r => exact h
  | ok a =>
    have := g a rfl
    rw [ok_bind]
    revert this
    cases f a with
    | ok b => exact fun this => c.trans _ _ _ h this
    | error r => exact fun this => c.trans _ _ _ h this

include c in
theorem memRead_rel (s : State) (a n : Nat) : FetchRel R s (memRead s a n) := by
  cases h : memRead s a n with
  | ok p =>
    obtain ⟨v, t⟩ := p
    obtain ⟨-, -, -, rfl⟩ := (memRead_ok_iff _ _ _ _ _).1 h
    exact c.land s
  | error r => simp only [FetchRel, memRead_error_left h]; exact c.land s

include c in
theorem tableEntry_rel (vmr : Word) (va : Nat) (s : State) : FetchRel R s (tableEntry vmr va s) := by
  unfold tableEntry
  split
  · exact c.refl s
  · rename_i hva
    simp only []
    split
    · exact c.land s
    · have h2 : FetchRel R s (memRead (land s) (tableEntryAddress vmr va) 2) := by
        have := memRead_rel c (land s) (tableEntryAddress vmr va) 2
        revert this
        cases memRead (land s) (tableEntryAddress vmr va) 2 <;> exact fun this => c.trans _ _ _ (c.land s) this
      refine h2.bind c fun p _ => ?_
      exact c.trans _ _ _ (c.land p.2) (c.fill _ _ _ (by omega))

include c in
theorem tableEntries_rel (vmr : Word) (xs : List Nat) (s : State) : FetchRel R s (tableEntries vmr xs s) := by
  induction xs generalizing s with
  | nil => exact c.refl s
  | cons va rest ih =>
    refine (tableEntry_rel c vmr va s).bind c fun p _ => ?_
    refine (ih p.2).bind c fun q _ => ?_
    exact c.refl q.2

theorem checkEntries_cases (p : Bool) (xs ys : List (Nat × BitVec 16)) (s : State) :
    checkEntries p xs ys s = .ok s ∨ ∃ r, checkEntries p xs ys s = .error r ∧ r.left = s := by
  unfold checkEntries
  split
  · exact .inr ⟨_, rfl, rfl⟩
  · split
    · exact .inr ⟨_, rfl, rfl⟩
    · split
      · exact .inr ⟨_, rfl, rfl⟩
      · exact .inl rfl

/-- The check of a list of addresses, in the form `FetchRel` speaks of. -/
theorem validateAccess_rel (c : FetchClosed R) (p : Bool) (xs ys : List Nat) (vmr : Word) (s : State) :
    (∀ t, validateAccess p xs ys vmr s = .ok t → R s t) ∧ (∀ r, validateAccess p xs ys vmr s = .error r → R s r.left) := by
  unfold validateAccess
  split
  · exact ⟨fun t h => by cases h; exact c.refl s, fun r h => by cases h⟩
  · simp only []
    have h1 := tableEntries_rel c vmr (xs ++ ys.filter fun a => !xs.contains a) s
    revert h1
    cases tableEntries vmr (xs ++ ys.filter fun a => !xs.contains a) s with
    | error e => exact fun h1 => ⟨fun t h => (by cases h), fun r h => (by cases h; exact h1)⟩
    | ok q =>
      intro h1
      simp only [ok_bind]
      rcases checkEntries_cases p (q.1.take xs.length) q.1 q.2 with hc | ⟨r, hc, hl⟩
      · rw [hc]; exact ⟨fun t h => (by cases h; exact h1), fun r h => (by cases h)⟩
      · rw [hc]; exact ⟨fun t h => (by cases h), fun r' h => (by cases h; rw [hl]; exact h1)⟩

include c in
theorem fetchAddress_rel (va : Nat) (s : State) : FetchRel R s (fetchAddress va s) := by
  unfold fetchAddress
  split
  · exact c.refl s
  · unfold translate
    refine (tableEntry_rel c s.vmr va s).bind c fun p hp => ?_
    have hva : va < 2 ^ 32 := by
      by_contra hge
      rw [tableEntry, if_pos (by omega)] at hp; cases hp
    exact c.trans _ _ _ (c.land p.2) (c.fill _ _ _ hva)

include c in
theorem fetchByte_rel (p : Nat) (s : State) : FetchRel R s (fetchByte s p) := by
  unfold fetchByte
  simp only []
  split
  · exact c.land s
  · split
    · exact c.land s
    · exact c.land s

include c in
theorem fetchBytes_rel (n va : Nat) (s : State) : FetchRel R s (fetchBytes n va s) := by
  induction n generalizing va s with
  | zero => exact c.refl s
  | succ n ih =>
    refine (fetchAddress_rel c va s).bind c fun p _ => ?_
    refine (fetchByte_rel c p.1 p.2).bind c fun q _ => ?_
    refine (ih (va + 1) q.2).bind c fun q' _ => ?_
    exact c.refl q'.2

include c in
theorem FetchRel.after {α : Type} {s : State} {x : Except Fault State} {f : State → Except Fault (α × State)}
    (h : (∀ t, x = .ok t → R s t) ∧ ∀ r, x = .error r → R s r.left) (g : ∀ t, FetchRel R t (f t)) :
    FetchRel R s (x >>= f) := by
  cases x with
  | error r => exact h.2 r rfl
  | ok t =>
    have h1 := h.1 t rfl
    have h2 := g t
    rw [ok_bind]
    revert h2
    cases f t <;> exact fun h2 => c.trans _ _ _ h1 h2

include c in
theorem fetchFirst_rel (a : Nat) (s : State) : FetchRel R s (fetchFirst a s) := by
  unfold fetchFirst
  refine FetchRel.after c (validateAccess_rel c s.priv [a] [] s.vmr s) fun t => ?_
  exact (fetchAddress_rel c a t).bind c fun p _ => fetchByte_rel c p.1 p.2

include c in
theorem fetchRest_rel (a n : Nat) (s : State) : FetchRel R s (fetchRest a n s) := by
  unfold fetchRest
  simp only []
  split
  · exact fetchBytes_rel c _ _ _
  · exact FetchRel.after c (validateAccess_rel c _ _ _ _ _) fun t => fetchBytes_rel c _ _ _

include c in
/-- What holds across landing points and TLB fills holds across a fetch, whether it answers or faults. -/
theorem fetch_rel (a : Nat) (s : State) : FetchRel R s (fetch a s) := by
  unfold fetch
  refine (fetchFirst_rel c a s).bind c fun ⟨b0, s1⟩ _ => ?_
  simp only []
  split
  · exact c.refl s1
  · rename_i F _
    refine (fetchRest_rel c a F.length s1).bind c fun ⟨bs, s2⟩ _ => ?_
    simp only []
    split <;> exact c.refl s2

end

/-! ## Two relations -/

/-- The unit is as before; PEND alone can have been filled, by another agent's signal. -/
def KeepsUnit (s t : State) : Prop := SameUnit s t ∧ PendFilled s t

theorem keepsUnit_closed : FetchClosed KeepsUnit where
  refl s := ⟨SameUnit.refl s, .inl rfl⟩
  trans s t u h g := by
    refine ⟨h.1.trans g.1, ?_⟩
    rcases h.2 with h2 | h2
    · rcases g.2 with g2 | ⟨g2, g3⟩
      · exact .inl (g2.trans h2)
      · exact .inr ⟨h2 ▸ g2, h.1.ie ▸ g3⟩
    · exact .inr h2
  land s := ⟨(land_unit s).1, (land_unit s).2.1⟩
  fill _ _ _ _ := ⟨⟨fun _ => rfl, rfl, rfl, rfl, rfl, rfl, rfl, rfl⟩, .inl rfl⟩

/-- From a quiet state, only the TLB differs. -/
def OnlyTlb (s t : State) : Prop := s.Quiet → t = s.setTlb t.tlb

theorem onlyTlb_closed : FetchClosed OnlyTlb where
  refl _ _ := rfl
  trans s t u h g hq := by
    have h := h hq
    have hq' : t.Quiet := by rw [h]; exact hq
    have g := g hq'
    rw [g, h]; rfl
  land s hq := by rw [land_quiet hq]; rfl
  fill _ _ _ _ _ := rfl

end Sys2Proof.Machine
end

