-- ==== Sys2Proof/Laws/Exec.lean ====
section
/-! SUPPORT. One principle for what an instruction, the interrupt check and a step can do: a relation between states that
holds across landing points, the unit's own writes and its own register writes holds across all of them, whether they
answer or fault. Provers choose the relation (an invariant, a register that stays). -/

namespace Sys2Proof.Machine

/-- SFSTOR as a read, a write that depends on it, and the restoring of A (43_system.md R236). -/
theorem conditionalStore_eq (m : FlagBits) (o : Operand) (s : State) :
    conditionalStore m o s = commit (memRead s (s.reg .A).toNat 4 >>= fun p =>
      let u := p.2.setReg .A (BitVec.ofNat 32 p.1)
      let f := compareCode (o.value s) (BitVec.ofNat 32 p.1)
      (if condHolds m f then memWrite u (s.reg .A).toNat 4 (o.value s).toNat else .ok u) >>= fun t =>
        .ok (t.setReg .A (s.reg .A), f)) := by
  unfold conditionalStore
  simp only []
  cases memRead s (s.reg .A).toNat 4 with
  | error r => rfl
  | ok p =>
    obtain ⟨x, u⟩ := p
    simp only [ok_bind, State.reg_setReg_same]
    split <;> rfl

/-- What a relation must be so that every instruction but ACTI, DACTI and HIRET keeps to it. -/
structure ExecClosed (R : State → State → Prop) : Prop where
  refl  : ∀ s, R s s
  trans : ∀ s t u, R s t → R t u → R s u
  land  : ∀ s, R s (land s)
  write : ∀ s t a n v, busWrite s a n v s.params.unitTag = .ok t → R s t
  reg   : ∀ s q v, R s (s.setReg q v)
  pc    : ∀ s v, R s (s.setPc v)
  flags : ∀ s v, R s (s.setFlags v)
  ivr   : ∀ s v, R s (s.setIvr v)

/-- The state an operation answers with, or leaves at its fault, against the state it is given. -/
def ResultRel (R : State → State → Prop) (s : State) (x : Except Fault State) : Prop :=
  match x with
  | .ok t => R s t
  | .error r => R s r.left

/-- The same for an instruction's outcome, which is never a refusal. -/
def OutcomeRel (R : State → State → Prop) (s : State) (x : Host.Outcome State Fault Refusal) : Prop :=
  match x with
  | .next t => R s t
  | .fault r => R s r.left
  | .refused _ => False

section
variable {R : State → State → Prop} (c : ExecClosed R)
include c
theorem memRead_result (s : State) (a n : Nat) : FetchRel R s (memRead s a n) := by
  cases h : memRead s a n with
  | ok p => obtain ⟨v, t⟩ := p; obtain ⟨-, -, -, rfl⟩ := (memRead_ok_iff _ _ _ _ _).1 h; exact c.land s
  | error r => simp only [FetchRel, memRead_error_left h]; exact c.land s

theorem memWrite_result (s : State) (a n v : Nat) : ResultRel R s (memWrite s a n v) := by
  unfold memWrite
  rw [← land_params s]
  cases h : busWrite (land s) a n v (land s).params.unitTag with
  | ok t => exact c.trans _ _ _ (c.land s) (c.write _ _ _ _ _ h)
  | error r => simp only [ResultRel, busWrite_error_left h]; exact c.land s

theorem ResultRel.after {s t : State} (h : R s t) {x : Except Fault State} (g : ResultRel R t x) : ResultRel R s x := by
  cases x <;> exact c.trans _ _ _ h g

theorem ResultRel.bind {s : State} {x : Except Fault State} {f : State → Except Fault State}
    (h : ResultRel R s x) (g : ∀ t, x = .ok t → ResultRel R t (f t)) : ResultRel R s (x >>= f) := by
  cases x with
  | error r => exact h
  | ok t => exact ResultRel.after c h (g t rfl)

theorem ResultRel.bindRead {α} {s : State} {x : Except Fault (α × State)} {f : α × State → Except Fault State}
    (h : FetchRel R s x) (g : ∀ p, x = .ok p → ResultRel R p.2 (f p)) : ResultRel R s (x >>= f) := by
  cases x with
  | error r => exact h
  | ok t => exact ResultRel.after c (s := s) (t := t.2) h (g t rfl)

theorem commitZero_result {s : State} {x : Except Fault State} (h : ResultRel R s x) : OutcomeRel R s (commitZero x) := by
  cases x with
  | error r => exact h
  | ok t => exact c.trans _ _ _ h (c.flags _ _)

theorem commit_result {s : State} {x : Except Fault (State × FlagBits)}
    (h : match x with | .ok p => R s p.1 | .error r => R s r.left) : OutcomeRel R s (commit x) := by
  cases x with
  | error r => exact h
  | ok t => exact c.trans _ _ _ h (c.flags _ _)

theorem push_result (s : State) (v : Word) : ResultRel R s (push s v) := by
  unfold push; exact ResultRel.after c (c.reg s _ _) (memWrite_result c _ _ _ _)

theorem popInto_result (s : State) (r : Reg) : ResultRel R s (popInto s r) := by
  unfold popInto; refine ResultRel.bindRead c (memRead_result c _ _ _) fun p _ => ?_
  exact c.trans _ _ _ (c.reg _ _ _) (c.reg _ _ _)

theorem callTo_result (s : State) (v : Word) : ResultRel R s (callTo s v) := by
  unfold callTo; exact ResultRel.bind c (push_result c s _) fun t _ => c.pc _ _

theorem enterHandler_result (hw : Bool) (v : Word) (s : State) : ResultRel R s (enterHandler hw v s) := by
  unfold enterHandler
  have : ∀ s, ResultRel R s (memRead s (vectorAddress s v) 4 >>= fun p => callTo p.2 (BitVec.ofNat 32 p.1)) := fun s =>
    ResultRel.bindRead c (memRead_result c _ _ _) fun p _ => callTo_result c _ _
  cases hw
  · exact this s
  · exact ResultRel.bind c (push_result c s _) fun t _ => this t

/-- What holds across landing points and the unit's own writes holds across every instruction, whether it answers or
faults, and no instruction is refused; the three that write IE ask that it holds across that write too. -/
theorem exec_result (i : Instr) (ie : i = .acti ∨ i = .dacti ∨ i = .hiret → ∀ s v, R s (s.setIe v)) (s : State) :
    OutcomeRel R s (exec i s) := by
  have data : ∀ f o d, OutcomeRel R s (dataOp f o d s) := fun f o d => commitZero_result c (c.reg s _ _)
  have jmp : ∀ m o, OutcomeRel R s (jumpOp m o s) := fun m o => commitZero_result c (by
    show R s _; split; exact c.pc _ _; exact c.refl _)
  have jmpr : ∀ m o, OutcomeRel R s (jumpRelativeOp m o s) := fun m o => commitZero_result c (by
    show R s _; split; exact c.pc _ _; exact c.refl _)
  have two : ∀ x y, ResultRel R s (.ok ((s.setReg .A x).setReg .B y)) := fun x y =>
    c.trans s (s.setReg .A x) _ (c.reg _ _ _) (c.reg _ _ _)
  have mul : ∀ o d, OutcomeRel R s (multiplyOp o d s) := fun o d => commitZero_result c (two _ _)
  have div : ∀ o d, OutcomeRel R s (divideOp o d s) := fun o d => commitZero_result c (by
    show ResultRel R s _; split; exact c.refl s; exact (c.trans _ _ _ (c.reg _ _ _) (c.reg _ _ _) : R s _))
  have cmp : ∀ o d, OutcomeRel R s (compareOp o d s) := fun o d => commit_result c (c.refl s)
  have int : ∀ o, OutcomeRel R s (softwareInt o s) := fun o =>
    commitZero_result c (by split; exact enterHandler_result c _ _ _; exact c.refl s)
  have ld : ∀ w o d, OutcomeRel R s (loadOp w o d s) := fun w o d =>
    commitZero_result c (ResultRel.bindRead c (memRead_result c _ _ _) fun p _ => c.reg _ _ _)
  have st : ∀ w o p, OutcomeRel R s (storeOp w o p s) := fun w o d => commitZero_result c (memWrite_result c _ _ _ _)
  have sf : ∀ m o, OutcomeRel R s (conditionalStore m o s) := by
    intro m o
    rw [conditionalStore_eq]
    refine commit_result c ?_
    have h1 := memRead_result c s (s.reg .A).toNat 4
    revert h1
    cases memRead s (s.reg .A).toNat 4 with
    | error r => exact id
    | ok p =>
      intro h1
      obtain ⟨x, u⟩ := p
      simp only [ok_bind]
      have h2 : ResultRel R u (if condHolds m (compareCode (o.value s) (BitVec.ofNat 32 x)) = true then
          memWrite (u.setReg .A (BitVec.ofNat 32 x)) (s.reg .A).toNat 4 (o.value s).toNat
          else .ok (u.setReg .A (BitVec.ofNat 32 x))) := by
        split
        · exact ResultRel.after c (c.reg _ _ _) (memWrite_result c _ _ _ _)
        · exact c.reg _ _ _
      revert h2
      cases (if condHolds m (compareCode (o.value s) (BitVec.ofNat 32 x)) = true then
          memWrite (u.setReg .A (BitVec.ofNat 32 x)) (s.reg .A).toNat 4 (o.value s).toNat
          else .ok (u.setReg .A (BitVec.ofNat 32 x))) with
      | error r => exact fun h2 => c.trans _ _ _ h1 h2
      | ok t => exact fun h2 =>
          c.trans _ _ _ (c.trans _ _ _ h1 h2) (c.reg _ _ _)
  have hir : (∀ s v, R s (s.setIe v)) → OutcomeRel R s (execHiret s) := by
    intro ie
    refine commit_result c ?_
    unfold returnFromInterrupt
    have h1 := popInto_result c s .A
    revert h1
    simp only []
    cases popInto s .A with
    | error r => exact id
    | ok t =>
      intro h1
      rw [ok_bind]
      have h2 := popInto_result c t .A
      revert h2
      cases popInto t .A with
      | error r => exact fun h2 => c.trans _ _ _ h1 h2
      | ok u => exact fun h2 =>
          c.trans _ _ _ (c.trans _ _ _ (c.trans _ _ _ (c.trans _ _ _ (c.trans _ _ _ h1 h2) (c.reg _ _ _)) (c.pc _ _)) (c.flags _ _)) (ie _ _)
  have hret : OutcomeRel R s (execRet s) := by
    refine commitZero_result c (ResultRel.bindRead c (memRead_result c _ _ _) fun p _ => ?_)
    exact c.trans p.2 (p.2.setReg .S (p.2.reg .S - 4)) _ (c.reg _ _ _) (c.pc _ _)
  cases i
  case notReg r => exact commitZero_result c (x := .ok (s.setReg r (s.reg r ^^^ 0xFFFFFFFF))) (c.reg s _ _)
  case sivrReg r => exact commitZero_result c (x := .ok (s.setIvr (s.reg r))) (c.ivr s _)
  case acti => exact commitZero_result c (x := .ok (s.setIe true)) (ie (.inl rfl) s _)
  case dacti => exact commitZero_result c (x := .ok (s.setIe false)) (ie (.inr (.inl rfl)) s _)
  case nop => exact commitZero_result c (x := .ok s) (c.refl s)
  case ret => exact hret
  case hiret => exact hir (ie (.inr (.inr rfl)))
  case callReg r => exact commitZero_result c (callTo_result c s _)
  case callImm v => exact commitZero_result c (callTo_result c s _)
  case pushReg r => exact commitZero_result c (push_result c s _)
  case pushImm v => exact commitZero_result c (push_result c s _)
  case popReg r => exact commitZero_result c (popInto_result c s r)
  case movReg r d => exact data (fun _ src => src) (.reg r) d
  case movImm v d => exact data (fun _ src => src) (.imm v) d
  all_goals first
    | exact data _ _ _ | exact mul _ _ | exact div _ _ | exact cmp _ _ | exact jmp _ _ | exact jmpr _ _
    | exact int _ | exact ld _ _ _ | exact st _ _ _ | exact sf _ _

end

/-! ## The interrupt check and the step -/

/-- What a relation must be so that every step keeps to it. -/
structure StepClosed (R : State → State → Prop) : Prop extends ExecClosed R where
  ie   : ∀ s v, R s (s.setIe v)
  pend : ∀ s v, R s (s.setPend v)
  fill : ∀ s va e, va < 2 ^ 32 → R s (s.fillTlb va e)

section
variable {R : State → State → Prop} (c : StepClosed R)
include c

theorem interruptCheck_result (s : State) : ResultRel R s (interruptCheck s) := by
  have h := c.toExecClosed
  unfold interruptCheck takeHardwareInterrupt
  simp only []
  have hl : R s (land s) := c.land s
  split
  · rename_i v _
    split
    · refine ResultRel.after h hl (ResultRel.after h (c.ie _ false) ?_)
      refine ResultRel.bind h (enterHandler_result h _ _ _) fun t _ => ?_
      exact c.trans _ _ _ (c.flags _ _) (c.pend _ _)
    · exact hl
  · exact hl

/-- What holds across landing points, TLB fills and the unit's own writes holds across every step. -/
theorem step_result (s : State) : OutcomeRel R s (step s) := by
  have h := c.toExecClosed
  unfold step
  have hf := fetch_rel (R := R) ⟨c.refl, c.trans, c.land, c.fill⟩ s.pc.toNat s
  revert hf
  cases fetch s.pc.toNat s with
  | error r => exact id
  | ok p =>
    obtain ⟨⟨i, next⟩, t⟩ := p
    intro hf
    have he := exec_result h i (fun _ => c.ie) (t.setPc next)
    have ht : R s (t.setPc next) := c.trans _ _ _ hf (c.pc _ _)
    simp only []
    revert he
    cases exec i (t.setPc next) with
    | refused r => exact fun he => he.elim
    | fault r => exact fun he => c.trans _ _ _ ht he
    | next u =>
      intro he
      have hc := interruptCheck_result c u
      have hu : R s u := c.trans _ _ _ ht he
      simp only [thenInterruptCheck]
      revert hc
      cases interruptCheck u <;> exact fun hc => c.trans _ _ _ hu hc

end

end Sys2Proof.Machine
end

