-- ==== Sys2Proof/Laws/Invariant.lean ====
section
/-! SUPPORT. Every operation on memory, permissions, tags, the TLB and devices keeps the invariant, the acts of other
agents among them. -/

namespace Sys2Proof.Machine

/-- The invariant speaks of the parameters and the shared state alone. -/
theorem Inv.congr {s t : State} (h : Inv s) (hq : t.params = s.params) (hm : t.mem = s.mem) (hp : t.perms = s.perms) (ht : t.tags = s.tags)
    (hl : t.tlb = s.tlb) (hd : t.devices = s.devices) : Inv t where
  params := hq ▸ h.params
  memWf := hm ▸ h.memWf
  memCells := by have := h.memCells; simp only [State.inArray] at this ⊢; rwa [hq, hm]
  permsRising := hp ▸ h.permsRising
  permsListed := hp ▸ h.permsListed
  permsCells := by have := h.permsCells; simp only [State.inArray] at this ⊢; rwa [hq, hp]
  tagsRising := ht ▸ h.tagsRising
  tagsCells := by have := h.tagsCells; simp only [State.inArray] at this ⊢; rwa [hq, ht]
  tlbRising := hl ▸ h.tlbRising
  tlbPages := hl ▸ h.tlbPages
  devicesWf := by rw [hq, hd]; exact h.devicesWf

/-- Every write of a cell keeps the canonical form of memory. -/
theorem memory_wf_set {m : Memory} (h : Memory.wf m) (a : Nat) (b : Byte) : Memory.wf (tableSet (0 : Byte) a b m) := by
  refine ⟨keysRising_set 0 a b h.1, ?_⟩
  intro c hc
  rcases mem_tableSet hc with ⟨rfl, hb⟩ | hc
  · exact hb
  · exact h.2 c hc

theorem Inv.setByte {s : State} (h : Inv s) {a : Nat} (ha : s.inArray a = true) (b : Byte) : Inv (s.setByte a b) :=
  { h with
    memWf := memory_wf_set h.memWf a b
    memCells := by
      intro c hc
      rcases mem_tableSet hc with ⟨rfl, -⟩ | hc
      · exact ha
      · exact h.memCells c hc }

theorem Inv.setTag {s : State} (h : Inv s) {a : Nat} (ha : s.inArray a = true) (w : String) : Inv (s.setTag a w) :=
  { h with
    tagsRising := keysRising_put a w h.tagsRising
    tagsCells := by
      intro c hc
      rcases mem_tablePut hc with rfl | hc
      · exact ha
      · exact h.tagsCells c hc }

theorem Inv.toggle {s : State} (h : Inv s) {a : Nat} (ha : s.inArray a = true) (bit : Access) (w : String) :
    Inv (s.toggle bit a w) := by
  refine Inv.setTag (s := s.setPerms (tableSet Perms.default a ((s.permsAt a).flip bit) s.perms)) ?_ ha w
  exact { h with
    permsRising := keysRising_set _ a _ h.permsRising
    permsListed := by
      intro c hc
      rcases mem_tableSet hc with ⟨rfl, hv⟩ | hc
      · exact hv
      · exact h.permsListed c hc
    permsCells := by
      intro c hc
      rcases mem_tableSet hc with ⟨rfl, -⟩ | hc
      · exact ha
      · exact h.permsCells c hc }

theorem Inv.storeBytes {bs : List Byte} (src : String) : ∀ {s : State} {a : Nat}, Inv s →
    (∀ x, a ≤ x → x < a + bs.length → s.inArray x = true) → Inv (s.storeBytes src a bs) := by
  induction bs with
  | nil => intro s a h _; exact h
  | cons b rest ih =>
    intro s a h hx
    have ha := hx a (Nat.le_refl _) (by simp)
    exact ih ((h.setByte ha b).setTag ha src) fun x h1 h2 => hx x (by omega) (by simp at h2 ⊢; omega)

theorem Device.Wf.store {bs : List Byte} {p : Params} : ∀ {d : Device} {off : Nat}, d.Wf p →
    off + bs.length ≤ deviceBufferSize p.bufferSizing d.mask → (d.store off bs).Wf p := by
  induction bs with
  | nil => intro d off h _; exact h
  | cons b rest ih =>
    intro d off h hb
    refine ih (d := { d with buffer := tablePut off b d.buffer }) ⟨h.registrable, keysRising_put off b h.rising, ?_⟩
      (by simp at hb ⊢; omega)
    intro c hc
    rcases mem_tablePut hc with rfl | hc
    · simp at hb ⊢; omega
    · exact h.inBuffer c hc

theorem Inv.fillTlb {s : State} (h : Inv s) {va : Nat} (hva : va < 2 ^ 32) (e : BitVec 16) : Inv (s.fillTlb va e) :=
  { h with
    tlbRising := keysRising_put _ _ h.tlbRising
    tlbPages := by
      intro c hc
      rcases mem_tablePut hc with rfl | hc
      · refine ⟨?_, rfl⟩
        show virtualPage va < 2 ^ 13
        unfold virtualPage
        omega
      · exact h.tlbPages c hc }

/-- The devices after one of them has changed. -/
theorem mem_updateRouted {f : Device → Device} {a : Nat} {ds : List Device} {d : Device}
    (h : d ∈ updateRouted f a ds) : d ∈ ds ∨ ∃ e, routeDevice ds a = some e ∧ d = f e := by
  induction ds with
  | nil => cases h
  | cons c rest ih =>
    simp only [updateRouted] at h
    by_cases hc : c.claims a = true
    · rw [if_pos hc] at h
      rcases List.mem_cons.1 h with rfl | h
      · exact .inr ⟨c, by simp [routeDevice, hc], rfl⟩
      · exact .inl (List.mem_cons_of_mem _ h)
    · rw [if_neg hc] at h
      rcases List.mem_cons.1 h with rfl | h
      · exact .inl (by simp)
      · rcases ih h with h | ⟨e, he, rfl⟩
        · exact .inl (List.mem_cons_of_mem _ h)
        · exact .inr ⟨e, by simpa [routeDevice, hc] using he, rfl⟩

theorem inv_written {s : State} (h : Inv s) {a n v : Nat} {src : String}
    (ha : Accessible s .write a n) : Inv (written s a n v src) := by
  rcases ha with ⟨h1, h2, -⟩ | ⟨h1, d, hr, hb⟩
  · rw [written_array h1]
    refine h.storeBytes src ?_
    intro x hx1 hx2
    rw [beBytes_length] at hx2
    simp only [State.inArray, decide_eq_true_eq]; omega
  · rw [written_device h1 hr]
    refine { h with devicesWf := ?_ }
    intro e he
    rcases mem_updateRouted he with he | ⟨c, hc, rfl⟩
    · exact h.devicesWf e he
    · rw [hr] at hc; cases hc
      exact (h.devicesWf d (mem_of_routeDevice hr)).store (by rw [beBytes_length]; exact hb)

theorem Inv.busWrite {s t : State} (h : Inv s) {a n v : Nat} {src : String} (hw : busWrite s a n v src = .ok t) :
    Inv t := by
  obtain ⟨-, -, ha, rfl⟩ := (busWrite_ok_iff _ _ _ _ _ _).1 hw
  exact inv_written h ha

/-- Every act of another agent keeps the invariant. -/
theorem Inv.act {s : State} (h : Inv s) (x : AgentAct) : Inv (act s x) := by
  have hsig : ∀ v, Inv (s.signal v) := by
    intro v
    rcases signal_cases s v with e | ⟨-, -, e⟩
    · rw [e]; exact h
    · rw [e]; exact h.congr rfl rfl rfl rfl rfl rfl
  cases x with
  | busWrite a n v src =>
    simp only [Machine.act]
    split
    · rename_i t e; exact h.busWrite e
    · exact h
  | toggle bit a w =>
    simp only [Machine.act]
    split
    · rename_i ha; exact h.toggle ha bit w
    · exact h
  | flush =>
    exact { h with tlbRising := List.Pairwise.nil, tlbPages := fun c hc => by cases hc }
  | signal v => exact hsig v
  | deviceSignal k =>
    simp only [Machine.act]
    split
    · exact hsig _
    · exact h
  | deviceStore k off b =>
    refine { h with devicesWf := ?_ }
    intro d hd
    change d ∈ s.devices.modify k _ at hd
    obtain ⟨j, hj, rfl⟩ := List.getElem_of_mem hd
    rw [List.getElem_modify]
    have hj' : j < s.devices.length := by simpa using hj
    have hwf := h.devicesWf s.devices[j] (List.getElem_mem hj')
    split
    · split
      · rename_i hb; exact hwf.store (by simpa using hb)
      · exact hwf
    · exact hwf
  | tableWalk v va =>
    simp only [Machine.act]
    split
    · rename_i hc
      split
      · exact h.fillTlb hc.1 _
      · exact h
    · exact h
  | tlbFill va e =>
    simp only [Machine.act]
    split
    · rename_i hc; exact h.fillTlb hc e
    · exact h

theorem inv_acts (acts : List AgentAct) : ∀ {s : State}, Inv s → Inv (acts.foldl act s) := by
  induction acts with
  | nil => exact fun h => h
  | cons x rest ih => exact fun h => ih (h.act x)

/-- Whatever lands keeps the invariant. -/
theorem Inv.land {s : State} (h : Inv s) : Inv (land s) := by
  unfold Machine.land
  split
  · exact h
  · exact inv_acts _ (h.congr rfl rfl rfl rfl rfl rfl)

/-- Memories in canonical form that read alike are equal: equal memories are equal data. -/
theorem memory_ext {m m' : Memory} (h : Memory.wf m) (h' : Memory.wf m')
    (e : ∀ a, (tableFind a m).getD 0 = (tableFind a m').getD 0) : m = m' :=
  table_ext 0 h.1 h'.1 h.2 h'.2 e

theorem reset_memory_wf : Memory.wf State.reset.mem := by decide

end Sys2Proof.Machine
end

