-- ==== Sys2Proof/Laws/PerInstr.lean ====
section
/-! SUPPORT. Families of facts about every instruction as syntax, one lemma per constructor. -/

/-- The head of the byte string of R124: its first byte selects, in the reference tables, a row of the instruction's form
with the length of the string, and the instruction's mnemonic (30_encoding.md R116, R122, R125). -/
def Sys2Proof.Laws.EncodeHead.Statement (x : Sys2Proof.Instr) : Prop :=
  ∃ b F, (Sys2Proof.encode x).head? = some b ∧ Sys2Proof.Codec.reference.formOf b = some F ∧ F.form = x.form ∧
    F.length = (Sys2Proof.encode x).length ∧ Sys2Proof.Codec.reference.mnemonicOf b = some x.mnemonic

namespace Sys2Proof.Laws.EncodeHead

/-- The parts of a statement, for a first byte whose row the tables give. -/
theorem of_table {x : Instr} (b : Byte) (hh : (encode x).head? = some b)
    (h : ((Codec.reference.formOf b).map fun F => (F.form, F.length)) = some (x.form, (encode x).length))
    (hm : Codec.reference.mnemonicOf b = some x.mnemonic) : Statement x := by
  cases hF : Codec.reference.formOf b with
  | none => rw [hF] at h; cases h
  | some F =>
    rw [hF] at h
    simp only [Option.map_some, Option.some.injEq, Prod.mk.injEq] at h
    exact ⟨b, F, hh, hF, h.1, h.2, hm⟩

theorem movReg (s : Reg) (d : Reg) : Statement (.movReg s d) :=
  of_table 0x10 rfl rfl rfl
theorem addReg (s : Reg) (d : Reg) : Statement (.addReg s d) :=
  of_table 0x11 rfl rfl rfl
theorem subReg (s : Reg) (d : Reg) : Statement (.subReg s d) :=
  of_table 0x12 rfl rfl rfl
theorem andReg (s : Reg) (d : Reg) : Statement (.andReg s d) :=
  of_table 0x13 rfl rfl rfl
theorem orReg (s : Reg) (d : Reg) : Statement (.orReg s d) :=
  of_table 0x14 rfl rfl rfl
theorem xorReg (s : Reg) (d : Reg) : Statement (.xorReg s d) :=
  of_table 0x15 rfl rfl rfl
theorem shlReg (s : Reg) (d : Reg) : Statement (.shlReg s d) :=
  of_table 0x16 rfl rfl rfl
theorem shrReg (s : Reg) (d : Reg) : Statement (.shrReg s d) :=
  of_table 0x17 rfl rfl rfl
theorem cmpReg (s : Reg) (d : Reg) : Statement (.cmpReg s d) :=
  of_table 0x18 rfl rfl rfl
theorem mulReg (s : Reg) (d : Reg) : Statement (.mulReg s d) :=
  of_table 0x19 rfl rfl rfl
theorem divReg (s : Reg) (d : Reg) : Statement (.divReg s d) :=
  of_table 0x1A rfl rfl rfl
theorem movImm (i : Word) (d : Reg) : Statement (.movImm i d) :=
  of_table 0x20 rfl rfl rfl
theorem addImm (i : Word) (d : Reg) : Statement (.addImm i d) :=
  of_table 0x21 rfl rfl rfl
theorem subImm (i : Word) (d : Reg) : Statement (.subImm i d) :=
  of_table 0x22 rfl rfl rfl
theorem andImm (i : Word) (d : Reg) : Statement (.andImm i d) :=
  of_table 0x23 rfl rfl rfl
theorem orImm (i : Word) (d : Reg) : Statement (.orImm i d) :=
  of_table 0x24 rfl rfl rfl
theorem xorImm (i : Word) (d : Reg) : Statement (.xorImm i d) :=
  of_table 0x25 rfl rfl rfl
theorem shlImm (i : Word) (d : Reg) : Statement (.shlImm i d) :=
  of_table 0x26 rfl rfl rfl
theorem shrImm (i : Word) (d : Reg) : Statement (.shrImm i d) :=
  of_table 0x27 rfl rfl rfl
theorem cmpImm (i : Word) (d : Reg) : Statement (.cmpImm i d) :=
  of_table 0x28 rfl rfl rfl
theorem mulImm (i : Word) (d : Reg) : Statement (.mulImm i d) :=
  of_table 0x29 rfl rfl rfl
theorem divImm (i : Word) (d : Reg) : Statement (.divImm i d) :=
  of_table 0x2A rfl rfl rfl
theorem notReg (r : Reg) : Statement (.notReg r) :=
  of_table 0x30 rfl rfl rfl
theorem callReg (r : Reg) : Statement (.callReg r) :=
  of_table 0x31 rfl rfl rfl
theorem pushReg (r : Reg) : Statement (.pushReg r) :=
  of_table 0x32 rfl rfl rfl
theorem popReg (r : Reg) : Statement (.popReg r) :=
  of_table 0x33 rfl rfl rfl
theorem intReg (r : Reg) : Statement (.intReg r) :=
  of_table 0x34 rfl rfl rfl
theorem sivrReg (r : Reg) : Statement (.sivrReg r) :=
  of_table 0x35 rfl rfl rfl
theorem callImm (i : Word) : Statement (.callImm i) :=
  of_table 0x41 rfl rfl rfl
theorem pushImm (i : Word) : Statement (.pushImm i) :=
  of_table 0x42 rfl rfl rfl
theorem intImm (i : Word) : Statement (.intImm i) :=
  of_table 0x44 rfl rfl rfl
theorem jmpReg (m : FlagBits) (r : Reg) : Statement (.jmpReg m r) :=
  of_table 0x50 rfl rfl rfl
theorem jmprReg (m : FlagBits) (r : Reg) : Statement (.jmprReg m r) :=
  of_table 0x51 rfl rfl rfl
theorem sfstorReg (m : FlagBits) (r : Reg) : Statement (.sfstorReg m r) :=
  of_table 0x52 rfl rfl rfl
theorem jmpImm (m : FlagBits) (i : Word) : Statement (.jmpImm m i) :=
  of_table 0x60 rfl rfl rfl
theorem jmprImm (m : FlagBits) (i : Word) : Statement (.jmprImm m i) :=
  of_table 0x61 rfl rfl rfl
theorem sfstorImm (m : FlagBits) (i : Word) : Statement (.sfstorImm m i) :=
  of_table 0x62 rfl rfl rfl
theorem memrRegReg (w : BitVec 4) (s : Reg) (d : Reg) : Statement (.memrRegReg w s d) :=
  of_table 0x70 rfl rfl rfl
theorem memwRegReg (w : BitVec 4) (s : Reg) (d : Reg) : Statement (.memwRegReg w s d) :=
  of_table 0x71 rfl rfl rfl
theorem memrImmReg (w : BitVec 4) (i : Word) (d : Reg) : Statement (.memrImmReg w i d) :=
  of_table 0x80 rfl rfl rfl
theorem memwImmReg (w : BitVec 4) (i : Word) (d : Reg) : Statement (.memwImmReg w i d) :=
  of_table 0x81 rfl rfl rfl
theorem memwRegImm (w : BitVec 4) (s : Reg) (j : Word) : Statement (.memwRegImm w s j) :=
  of_table 0x91 rfl rfl rfl
theorem memwImmImm (w : BitVec 4) (i : Word) (j : Word) : Statement (.memwImmImm w i j) :=
  of_table 0xA1 rfl rfl rfl
theorem ret : Statement .ret :=
  of_table 0xF0 rfl rfl rfl
theorem hiret : Statement .hiret :=
  of_table 0xF1 rfl rfl rfl
theorem acti : Statement .acti :=
  of_table 0xF2 rfl rfl rfl
theorem dacti : Statement .dacti :=
  of_table 0xF3 rfl rfl rfl
theorem nop : Statement .nop :=
  of_table 0xFF rfl rfl rfl

end Sys2Proof.Laws.EncodeHead
end

