-- ==== Sys2Proof/Laws/Translate.lean ====
section
/-! SUPPORT. What translation does when no other agent acts: each lookup answers the entry `State.entryAt` of the state
before the fetch, whatever pages of the same fetch have been filled since. -/

namespace Sys2Proof.Machine

/-! ## TLB lookups and fills -/

theorem tableFind_mem {β : Type} {k : Nat} {v : β} {t : List (Nat × β)} (h : tableFind k t = some v) : (k, v) ∈ t := by
  induction t with
  | nil => cases h
  | cons p rest ih =>
    obtain ⟨j, w⟩ := p
    simp only [tableFind] at h
    split at h
    · rename_i e; cases h; subst e; simp
    · exact List.mem_cons_of_mem _ (ih h)

/-- Putting the value a table already holds changes nothing. -/
theorem tablePut_same {β : Type} {k : Nat} {v : β} {t : List (Nat × β)} (hI : KeysRising t)
    (h : tableFind k t = some v) : tablePut k v t = t := by
  induction t with
  | nil => cases h
  | cons p rest ih =>
    obtain ⟨j, w⟩ := p
    simp only [tableFind] at h
    simp only [tablePut]
    by_cases e : j = k
    · rw [if_pos e] at h; cases h; subst e; simp
    · rw [if_neg e] at h
      have := (List.pairwise_cons.1 hI).1 _ (tableFind_mem h)
      simp only at this
      rw [if_neg (by omega), if_neg (by omega), ih (List.pairwise_cons.1 hI).2 h]

theorem tlbLookup_fillTlb (s : State) (va x : Nat) (e : BitVec 16) :
    (s.fillTlb va e).tlbLookup x = if x / 2 ^ 19 = va / 2 ^ 19 then some ⟨physicalBase e, e⟩ else s.tlbLookup x := by
  simp only [State.fillTlb, State.tlbLookup, virtualPage, State.setTlb, tableFind_put]

theorem fillTlb_same {s : State} {va : Nat} {e : BitVec 16} (hI : KeysRising s.tlb)
    (h : s.tlbLookup va = some ⟨physicalBase e, e⟩) : s.fillTlb va e = s := by
  have h2 : s.fillTlb va e = s.setTlb (tablePut (virtualPage va) ⟨physicalBase e, e⟩ s.tlb) := rfl
  rw [h2, tablePut_same hI h]; rfl

theorem physicalBase_eq (e : BitVec 16) : physicalBase e = BitVec.ofNat 32 (e.toNat % 2 ^ 13 * 2 ^ 19) := by
  unfold physicalBase
  apply BitVec.eq_of_toNat_eq
  have h1 : (e &&& 0x1FFF).toNat = e.toNat % 2 ^ 13 := by
    rw [BitVec.toNat_and]; exact Nat.and_two_pow_sub_one_eq_mod e.toNat 13
  simp only [BitVec.toNat_shiftLeft, BitVec.toNat_setWidth, BitVec.toNat_ofNat, h1, Nat.shiftLeft_eq]
  omega

theorem physicalAddress_eq (e : BitVec 16) (va : Nat) :
    physicalAddress e va = e.toNat % 2 ^ 13 * 2 ^ 19 + va % 2 ^ 19 := by
  unfold physicalAddress
  have h2 : va &&& 0x7FFFF = va % 2 ^ 19 := Nat.and_two_pow_sub_one_eq_mod va 19
  have h3 : (BitVec.ofNat 32 (e.toNat % 2 ^ 13 * 2 ^ 19)).toNat = e.toNat % 2 ^ 13 * 2 ^ 19 := by
    simp only [BitVec.toNat_ofNat]; omega
  rw [h2, physicalBase_eq, h3, ← Nat.shiftLeft_eq, ← Nat.shiftLeft_add_eq_or_of_lt (by omega)]

theorem entryAt_page {s : State} {x y : Nat} (h : x / 2 ^ 19 = y / 2 ^ 19) : s.entryAt x = s.entryAt y := by
  unfold State.entryAt State.tlbLookup virtualPage; rw [h]

theorem tlbLookup_page {s : State} {x y : Nat} (h : x / 2 ^ 19 = y / 2 ^ 19) : s.tlbLookup x = s.tlbLookup y := by
  unfold State.tlbLookup virtualPage; rw [h]

theorem Inv.tlbLookup_eq {s : State} (hI : Inv s) {x : Nat} {e : TlbEntry} (h : s.tlbLookup x = some e) :
    e = ⟨physicalBase (s.entryAt x), s.entryAt x⟩ := by
  have he : s.entryAt x = e.entry := by unfold State.entryAt; rw [h]
  have hm : (virtualPage x, e) ∈ s.tlb := tableFind_mem h
  have := (hI.tlbPages _ hm).2
  simp only at this
  rw [he, ← this]

/-! ## A fetch under way -/

/-- `t` is `s` but for the TLB, in which the pages of the addresses of `A` have been filled with their entries. -/
structure FilledOn (s t : State) (A : List Nat) : Prop where
  only   : t = s.setTlb t.tlb
  rising : KeysRising t.tlb
  filled : ∀ va ∈ A, t.tlbLookup va = some ⟨physicalBase (s.entryAt va), s.entryAt va⟩
  others : ∀ x, (∀ va ∈ A, va / 2 ^ 19 ≠ x / 2 ^ 19) → t.tlbLookup x = s.tlbLookup x
  same   : (∀ va ∈ A, (s.tlbLookup va).isSome = true) → t = s

namespace FilledOn
variable {s t : State} {A : List Nat}

theorem start (hI : Inv s) : FilledOn s s [] := ⟨rfl, hI.tlbRising, by simp, fun _ _ => rfl, fun _ => rfl⟩

theorem lookup (h : FilledOn s t A) (x : Nat) :
    t.tlbLookup x = s.tlbLookup x ∨ t.tlbLookup x = some ⟨physicalBase (s.entryAt x), s.entryAt x⟩ := by
  by_cases hx : ∃ va ∈ A, va / 2 ^ 19 = x / 2 ^ 19
  · obtain ⟨va, hva, e⟩ := hx
    right; rw [tlbLookup_page e.symm, h.filled va hva, entryAt_page e]
  · left; exact h.others x fun va hva e => hx ⟨va, hva, e⟩

theorem entryAt (h : FilledOn s t A) (x : Nat) : t.entryAt x = s.entryAt x := by
  rcases h.lookup x with e | e
  · unfold State.entryAt; rw [e, h.only]; rfl
  · unfold State.entryAt; rw [e]; rfl

theorem quiet (h : FilledOn s t A) (hq : s.Quiet) : t.Quiet := by rw [h.only]; exact hq

theorem accessible (h : FilledOn s t A) (k : Access) (a n : Nat) : Accessible t k a n ↔ Accessible s k a n := by
  rw [h.only]; exact accessible_congr rfl rfl rfl _ _ _

theorem fill (hI : Inv s) (h : FilledOn s t A) (va : Nat) : FilledOn s (t.fillTlb va (s.entryAt va)) (va :: A) := by
  refine ⟨?_, keysRising_put _ _ h.rising, ?_, ?_, ?_⟩
  · have h0 := h.only
    generalize t.tlb = L at h0
    subst h0
    rfl
  · intro x hx
    rw [tlbLookup_fillTlb]
    split
    · rename_i e; rw [entryAt_page e]
    · rename_i e
      rcases List.mem_cons.1 hx with rfl | hx
      · exact absurd rfl e
      · exact h.filled x hx
  · intro x hx
    rw [tlbLookup_fillTlb, if_neg (fun e => hx va (by simp) e.symm)]
    exact h.others x fun y hy => hx y (by simp [hy])
  · intro hh
    obtain ⟨x, hx⟩ := Option.isSome_iff_exists.1 (hh va (by simp))
    rw [fillTlb_same h.rising]
    · exact h.same fun y hy => hh y (by simp [hy])
    · rcases h.lookup va with e | e
      · rw [e, hx, hI.tlbLookup_eq hx]
      · exact e

/-- A readable entry is the one of the state before the fetch. -/
theorem tableEntry_eq (hI : Inv s) (hq : s.Quiet) (h : FilledOn s t A) {va : Nat} (hr : EntryReadable s va) :
    ∃ u, tableEntry s.vmr va t = .ok (s.entryAt va, u) ∧ FilledOn s u (va :: A) := by
  have hqt := h.quiet hq
  unfold tableEntry
  rw [if_neg (by have := hr.1; omega)]
  simp only [land_quiet hqt]
  cases hl : t.tlbLookup va with
  | some e =>
    have he : t.entryAt va = e.entry := by unfold State.entryAt; rw [hl]
    rw [h.entryAt] at he
    have hb : e = ⟨physicalBase (s.entryAt va), s.entryAt va⟩ := by
      rcases h.lookup va with e' | e'
      · rw [hl] at e'; exact hI.tlbLookup_eq e'.symm
      · rw [hl] at e'; exact Option.some.inj e'
    refine ⟨t, by simp only [he], ?_⟩
    have := h.fill hI va
    rwa [fillTlb_same h.rising (by rw [hl, hb])] at this
  | none =>
    have hs : s.tlbLookup va = none := by
      rcases h.lookup va with e' | e' <;> rw [hl] at e'
      · exact e'.symm
      · cases e'
    have hacc : Accessible s .read (s.vmr.toNat + va / 2 ^ 19 * 2) 2 := by
      rcases hr.2 with h' | h'
      · rw [hs] at h'; cases h'
      · exact h'
    have hm : memRead t (tableEntryAddress s.vmr va) 2 = .ok (t.valueAt (tableEntryAddress s.vmr va) 2, t) :=
      memRead_quiet hqt (by omega) ((h.accessible _ _ _).2 hacc)
    have hv : BitVec.ofNat 16 (t.valueAt (tableEntryAddress s.vmr va) 2) = s.entryAt va := by
      unfold State.entryAt; rw [hs, h.only]; rfl
    simp only [hm, ok_bind, land_quiet hqt, hv]
    exact ⟨_, rfl, h.fill hI va⟩

theorem tableEntries_eq (hI : Inv s) (hq : s.Quiet) (l : List Nat) : ∀ {t : State} {A : List Nat}, FilledOn s t A →
    (∀ va ∈ l, EntryReadable s va) →
    ∃ u, tableEntries s.vmr l t = .ok (l.map fun a => (a, s.entryAt a), u) ∧ FilledOn s u (l.reverse ++ A) := by
  induction l with
  | nil => intro t A h _; exact ⟨t, rfl, h⟩
  | cons va l ih =>
    intro t A h hr
    obtain ⟨u, h1, h2⟩ := h.tableEntry_eq hI hq (hr va (by simp))
    obtain ⟨w, h3, h4⟩ := ih h2 fun x hx => hr x (by simp [hx])
    refine ⟨w, ?_, by simpa using h4⟩
    simp only [tableEntries, h1, ok_bind, h3]; rfl

/-- The access check of a fetch runs its three passes over the entries of the state before the fetch. -/
theorem validateAccess_eq (hI : Inv s) (hq : s.Quiet) (hv : s.vmr ≠ 0) (h : FilledOn s t A) (l : List Nat)
    (hr : ∀ va ∈ l, EntryReadable s va) :
    ∃ u, FilledOn s u (l.reverse ++ A) ∧ validateAccess s.priv l [] s.vmr t =
      checkEntries s.priv (l.map fun a => (a, s.entryAt a)) (l.map fun a => (a, s.entryAt a)) u := by
  obtain ⟨u, h1, h2⟩ := h.tableEntries_eq hI hq l hr
  refine ⟨u, h2, ?_⟩
  unfold validateAccess; rw [if_neg hv]
  simp only [List.filter_nil, List.append_nil, h1, ok_bind]
  rw [List.take_of_length_le (by simp)]

/-- The physical address of a fetch byte is that of the state before the fetch. -/
theorem fetchAddress_eq (hI : Inv s) (hq : s.Quiet) (hv : s.vmr ≠ 0) (h : FilledOn s t A) {va : Nat}
    (hr : EntryReadable s va) : ∃ u, fetchAddress va t = .ok (s.physicalAt va, u) ∧ FilledOn s u (va :: va :: A) := by
  have hvt : t.vmr = s.vmr := by rw [h.only]; rfl
  obtain ⟨u, h1, h2⟩ := h.tableEntry_eq hI hq hr
  refine ⟨u.fillTlb va (s.entryAt va), ?_, h2.fill hI va⟩
  unfold fetchAddress; rw [hvt, if_neg hv]
  unfold Machine.translate; rw [h1, ok_bind]
  simp only [land_quiet (h2.quiet hq), physicalAddress_eq]; rfl

theorem fetchByte_eq (hq : s.Quiet) (h : FilledOn s t A) {p : Nat} (hc : CellsAllow s .execute p 1) :
    fetchByte t p = .ok (s.byteAt p, t) := by
  have : CellsAllow t .execute p 1 := by rw [h.only]; exact hc
  rw [fetchByte_quiet (h.quiet hq) this, h.only]; rfl

/-- Once every byte of an instruction is filled, the TLB is as `TlbFilled` says. -/
theorem tlbFilled {a n : Nat} (h : FilledOn s t A) (h1 : ∀ k < n, a + k ∈ A) (h2 : ∀ x ∈ A, ∃ k < n, x = a + k) :
    TlbFilled s t a n := by
  refine ⟨h.only, fun k hk => by rw [h.filled _ (h1 k hk), physicalBase_eq], fun x hx => h.others x fun va hva => ?_⟩
  obtain ⟨k, hk, rfl⟩ := h2 va hva; exact hx k hk

end FilledOn

/-- Every entry permits the fetch: the check passes. -/
theorem checkEntries_ok {p : Bool} {l : List Nat} {e : Nat → BitVec 16} {u : State}
    (h : ∀ a ∈ l, EntryPermits p (e a)) :
    checkEntries p (l.map fun a => (a, e a)) (l.map fun a => (a, e a)) u = .ok u := by
  unfold checkEntries
  simp only [List.find?_map, Function.comp_def, entryExecutable, entryAvailable, entryPrivileged]
  have h1 : l.find? (fun a => !(e a).getLsbD 15) = none := by rw [List.find?_eq_none]; intro a ha; simp [(h a ha).1]
  have h2 : l.find? (fun a => !(e a).getLsbD 13) = none := by rw [List.find?_eq_none]; intro a ha; simp [(h a ha).2.1]
  have h3 : l.find? (fun a => (e a).getLsbD 14 && !p) = none := by
    rw [List.find?_eq_none]; intro a ha
    have := (h a ha).2.2
    cases hb : (e a).getLsbD 14
    · simp
    · simp [this hb]
  simp only [h1, h2, h3, Option.map_none]

end Sys2Proof.Machine
end

