-- ==== Sys2Proof/Tests/Slice0.lean ====
section
/-! SUPPORT. Tests. Expected values come from spec/95_test_vectors.md (the section is named beside each group), from the
encoding tables of 30_encoding.md, or from the rule named. The last part shows, for each obligation with hypotheses, a
state and operands that meet them, for each of its clauses. -/

namespace Sys2Proof.Tests
open Sys2Proof Sys2Proof.Machine

/-! ## Helpers -/

/-- Cells from `a` given by the host. -/
def put (a : Nat) (bs : List Byte) (s : State) : State := s.storeBytes "host" a bs
/-- The default state of 95_test_vectors.md section 0, with an instruction's bytes at I. -/
def prog (bs : List Byte) : State := put 0x40000000 bs State.reset
/-- A 4-byte word in memory. -/
def word (a w : Nat) (s : State) : State := put a (beBytes 4 w) s
/-- One cell with one permission bit flipped. -/
def deny (k : Access) (a : Nat) (s : State) : State := s.toggle k a "host"
/-- The outcome is a next state of which `p` holds. -/
def nextIs (o : Host.Outcome State Fault Refusal) (p : State → Bool) : Bool :=
  match o with
  | .next t => p t
  | .fault _ => false
  | .refused _ => false
/-- The outcome is a fault of which `p` holds. -/
def faultIs (o : Host.Outcome State Fault Refusal) (p : Fault → Bool) : Bool :=
  match o with
  | .next _ => false
  | .fault r => p r
  | .refused _ => false
/-- The result is an error of which `p` holds. -/
def errorIs {α : Type} (x : Except Fault α) (p : Fault → Bool) : Bool :=
  match x with
  | .ok _ => false
  | .error r => p r
/-- The result is a value of which `p` holds. -/
def okIs {α : Type} (x : Except Fault α) (p : α → Bool) : Bool :=
  match x with
  | .ok a => p a
  | .error _ => false

/-- The bytes decode, under the reference codec, to an instruction and a rest. -/
def decodes (bs : List Byte) (i : Instr) (rest : List Byte) : Bool :=
  match decode bs with
  | .ok x => decide (x = (i, rest))
  | .error _ => false
/-- The bytes are refused, under the reference codec, for a reason. -/
def rejects (bs : List Byte) (e : DecodeReject) : Bool :=
  match decode bs with
  | .ok _ => false
  | .error r => decide (r = e)

/-! ## WellFormed: each check refuses an ill-formed term (30_encoding.md R115, R121) -/

theorem test_wf_memrRegReg : WellFormed (.memrRegReg 0 .A .B) = false := by decide
theorem test_wf_memwRegReg : WellFormed (.memwRegReg 5 .A .B) = false := by decide
theorem test_wf_memrImmReg : WellFormed (.memrImmReg 0 0x40000100 .C) = false := by decide
theorem test_wf_memwImmReg : WellFormed (.memwImmReg 15 1 .C) = false := by decide
theorem test_wf_memwRegImm : WellFormed (.memwRegImm 8 .A 0x40000100) = false := by decide
theorem test_wf_memwImmImm : WellFormed (.memwImmImm 5 1 0x40000100) = false := by decide
theorem test_wf_accepts : WellFormed (.memrRegReg 1 .A .B) = true ∧ WellFormed (.memwImmImm 4 1 2) = true := by decide

/-! ## Decoding: a word for every constructor, from the byte strings of R124 and the first bytes of R125 -/

theorem test_decode_regReg :
    decodes [0x10, 0x12] (.movReg .B .C) [] = true ∧ decodes [0x11, 0x70] (.addReg .S .A) [] = true ∧
    decodes [0x12, 0x8F] (.subReg .A2 .S2) [] = true ∧ decodes [0x13, 0x23] (.andReg .C .D) [] = true ∧
    decodes [0x14, 0x45] (.orReg .E .F) [] = true ∧ decodes [0x15, 0x6E] (.xorReg .G .G2) [] = true ∧
    decodes [0x16, 0x9A] (.shlReg .B2 .C2) [] = true ∧ decodes [0x17, 0xBC] (.shrReg .D2 .E2) [] = true ∧
    decodes [0x18, 0xD0] (.cmpReg .F2 .A) [] = true ∧ decodes [0x19, 0x23] (.mulReg .C .D) [] = true ∧
    decodes [0x1A, 0x01] (.divReg .A .B) [] = true := by decide

theorem test_decode_immReg :
    decodes [0x20, 0x12, 0x34, 0x56, 0x78, 0x0A] (.movImm 0x12345678 .C2) [] = true ∧
    decodes [0x21, 0, 0, 0, 1, 0] (.addImm 1 .A) [] = true ∧ decodes [0x22, 0, 0, 0, 7, 2] (.subImm 7 .C) [] = true ∧
    decodes [0x23, 0, 0, 0xFF, 0, 0] (.andImm 0xFF00 .A) [] = true ∧
    decodes [0x24, 0, 0, 0, 0x0F, 3] (.orImm 0x0F .D) [] = true ∧
    decodes [0x25, 0xFF, 0xFF, 0xFF, 0xFF, 4] (.xorImm 0xFFFFFFFF .E) [] = true ∧
    decodes [0x26, 0, 0, 0, 0x20, 5] (.shlImm 32 .F) [] = true ∧ decodes [0x27, 0, 0, 0, 0x1F, 6] (.shrImm 31 .G) [] = true ∧
    decodes [0x28, 0, 0, 0, 3, 7] (.cmpImm 3 .S) [] = true ∧ decodes [0x29, 0x80, 0, 0, 0, 8] (.mulImm 0x80000000 .A2) [] = true ∧
    decodes [0x2A, 0, 0, 0, 0x0A, 2] (.divImm 10 .C) [] = true := by decide

theorem test_decode_single :
    decodes [0x30, 0x03] (.notReg .D) [] = true ∧ decodes [0x31, 0x07] (.callReg .S) [] = true ∧
    decodes [0x32, 0x0E] (.pushReg .G2) [] = true ∧ decodes [0x33, 0x01] (.popReg .B) [] = true ∧
    decodes [0x34, 0x02] (.intReg .C) [] = true ∧ decodes [0x35, 0x0F] (.sivrReg .S2) [] = true ∧
    decodes [0x41, 0x40, 0, 1, 0] (.callImm 0x40000100) [] = true ∧
    decodes [0x42, 0x12, 0x34, 0x56, 0x78] (.pushImm 0x12345678) [] = true ∧
    decodes [0x44, 0xFF, 0xFF, 0xFF, 0xFE] (.intImm 0xFFFFFFFE) [] = true := by decide

theorem test_decode_flags :
    decodes [0x50, 0x22] (.jmpReg 0b010 .C) [] = true ∧ decodes [0x51, 0x73] (.jmprReg 0b111 .D) [] = true ∧
    decodes [0x52, 0x4F] (.sfstorReg 0b100 .S2) [] = true ∧
    decodes [0x60, 0x04, 0x40, 0, 0, 0x20] (.jmpImm 0b100 0x40000020) [] = true ∧
    decodes [0x61, 0x01, 0xFF, 0xFF, 0xFF, 0xEE] (.jmprImm 0b001 0xFFFFFFEE) [] = true ∧
    decodes [0x62, 0x03, 0, 0, 0, 7] (.sfstorImm 0b011 7) [] = true := by decide

theorem test_decode_width :
    decodes [0x70, 0x01, 0x12] (.memrRegReg 1 .B .C) [] = true ∧ decodes [0x71, 0x03, 0x10] (.memwRegReg 3 .B .A) [] = true ∧
    decodes [0x80, 0x40, 0, 1, 0, 0x22] (.memrImmReg 2 0x40000100 .C) [] = true ∧
    decodes [0x81, 0, 0, 0xAB, 0xCD, 0x21] (.memwImmReg 2 0xABCD .B) [] = true ∧
    decodes [0x91, 0x1A, 0x40, 0, 2, 0] (.memwRegImm 1 .C2 0x40000200) [] = true ∧
    decodes [0xA1, 0x04, 0xDE, 0xAD, 0xBE, 0xEF, 0x40, 0, 1, 0] (.memwImmImm 4 0xDEADBEEF 0x40000100) [] = true := by decide

theorem test_decode_plain :
    decodes [0xF0] .ret [] = true ∧ decodes [0xF1] .hiret [] = true ∧ decodes [0xF2] .acti [] = true ∧
    decodes [0xF3] .dacti [] = true ∧ decodes [0xFF, 0x11] .nop [0x11] = true := by decide

/-- Section 2.2: illegal first bytes, malformed widths, padding. -/
theorem test_decode_rejects :
    rejects [0x00] (.invalidInstruction 0x00) = true ∧ rejects [0x43] (.invalidInstruction 0x43) = true ∧
    rejects [0x1B] (.invalidInstruction 0x1B) = true ∧ rejects [0xB0] (.invalidInstruction 0xB0) = true ∧
    rejects [0xF4] (.invalidInstruction 0xF4) = true ∧
    rejects [0x80, 0x40, 0, 1, 0, 0x02] (.malformedField 0x804000010002) = true ∧
    rejects [0x70, 0x05, 0x12] (.malformedField 0x700512) = true ∧
    rejects [0x91, 0xF0, 0x40, 0, 2, 0] (.malformedField 0x91F040000200) = true := by decide
theorem test_decode_padding :
    decodes [0x20, 0, 0, 0, 0xFF, 0xF1] (.movImm 0xFF .B) [] = true ∧ decodes [0x30, 0xF0] (.notReg .A) [] = true ∧
    decodes [0x50, 0x82] (.jmpReg 0 .C) [] = true := by decide
/-- The encoder of R117 from the masks of R123, on the examples of section 2.1. -/
theorem test_encode :
    Codec.reference.encode .nop = some [0xFF] ∧ Codec.reference.encode (.addReg .B .A) = some [0x11, 0x10] ∧
    Codec.reference.encode (.movImm 0xFF .B) = some [0x20, 0, 0, 0, 0xFF, 1] ∧
    Codec.reference.encode (.popReg .B) = some [0x33, 1] ∧
    Codec.reference.encode (.callImm 0x40000100) = some [0x41, 0x40, 0, 1, 0] ∧
    Codec.reference.encode (.sfstorReg 0b001 .B) = some [0x52, 0x11] ∧
    Codec.reference.encode (.jmpImm 0b100 0x40000020) = some [0x60, 4, 0x40, 0, 0, 0x20] := by decide
theorem test_encode_width :
    Codec.reference.encode (.memrRegReg 4 .A .A) = some [0x70, 4, 0] ∧
    Codec.reference.encode (.memrImmReg 2 0x40000100 .C) = some [0x80, 0x40, 0, 1, 0, 0x22] ∧
    Codec.reference.encode (.memwRegImm 4 .A 0x40000200) = some [0x91, 0x40, 0x40, 0, 2, 0] ∧
    Codec.reference.encode (.memwImmImm 4 0xDEADBEEF 0x40000100) =
      some [0xA1, 4, 0xDE, 0xAD, 0xBE, 0xEF, 0x40, 0, 1, 0] := by decide

/-- Another REG_ID (00_scope.md R7): B numbered before A. -/
def renumbered : Codec :=
  { Codec.reference with regIds := [.B, .A, .C, .D, .E, .F, .G, .S, .A2, .B2, .C2, .D2, .E2, .F2, .G2, .S2] }
/-- Another FORM_TABLE too: MOV and ADD between registers have each other's opcode. -/
def altCodec : Codec :=
  { renumbered with opcodes := ⟨0x1, 0x0, .ADD⟩ :: ⟨0x1, 0x1, .MOV⟩ :: Codec.reference.opcodes }
/-- Other values of MEMORY_START and MEMORY_END too. -/
def altParams : Params := ⟨0x1000, 0x2000, altCodec, .complement, "cpu1"⟩
/-- The bytes that are ADD B, A under the reference codec are MOV A, B here, and the bounds move too. -/
theorem test_other_params :
    nextIs (step (put 0x1FFE [0x11, 0x10] (((State.constructed altParams).setPc 0x1FFE).setReg .A 5)))
      (fun t => t.reg .B == 5 && t.reg .A == 5 && t.pc == 0x2000) = true ∧
    faultIs (step ((State.constructed altParams).setPc 0x2000)) (fun r => r.code == 3) = true ∧
    okIs (setupCore 0x1FFF (State.constructed altParams)) (fun _ => true) = true := by decide

/-- A row of spec/opcode_table.json, whose bit 15 is the top bit of the first byte (log 15). -/
theorem test_tableWord : decodeTableWord 16 0x1110 = some (.addReg .B .A) ∧ decodeTableWord 8 0xFF = some .nop := by decide
theorem test_withFetchWord : nextIs (step (State.reset.withFetchWord 48 0x20000000FF01))
    (fun t => t.reg .B == 0xFF && t.pc == 0x40000006) = true := by decide

/-! ## Data processing (section 3) -/

theorem test_mov : nextIs (step (prog [0x20, 0, 0, 0, 0xFF, 1]))
    (fun t => t.reg .B == 0xFF && t.pc == 0x40000006 && t.flags == 0) = true := by decide
theorem test_mov_reg : nextIs (step ((prog [0x10, 0x12]).setReg .B 0x55))
    (fun t => t.reg .C == 0x55 && t.reg .B == 0x55 && t.pc == 0x40000002) = true := by decide
theorem test_add_wraps : nextIs (step ((prog [0x21, 0, 0, 0, 1, 0]).setReg .A 0xFFFFFFFF))
    (fun t => t.reg .A == 0 && t.flags == 0) = true := by decide
theorem test_sub_wraps : nextIs (step ((prog [0x22, 0, 0, 0, 7, 2]).setReg .C 5)) (fun t => t.reg .C == 0xFFFFFFFE) = true := by
  decide
theorem test_and : nextIs (step ((prog [0x23, 0, 0, 0xFF, 0, 0]).setReg .A 0x12345678)) (fun t => t.reg .A == 0x5600) = true := by
  decide
theorem test_or : nextIs (step ((prog [0x24, 0, 0, 0, 0x0F, 0]).setReg .A 0xF0)) (fun t => t.reg .A == 0xFF) = true := by decide
theorem test_xor : nextIs (step ((prog [0x25, 0xFF, 0xFF, 0xFF, 0xFF, 0]).setReg .A 0xFF))
    (fun t => t.reg .A == 0xFFFFFF00) = true := by decide
theorem test_shl : nextIs (step ((prog [0x26, 0, 0, 0, 1, 0]).setReg .A 0x80000001)) (fun t => t.reg .A == 2) = true := by decide
theorem test_shl_unmasked : nextIs (step (((prog [0x16, 0x10]).setReg .A 1).setReg .B 0xFFFFFFFF)) (fun t => t.reg .A == 0) = true := by
  decide
theorem test_shr : nextIs (step ((prog [0x27, 0, 0, 0, 0x1F, 0]).setReg .A 0x80000000)) (fun t => t.reg .A == 1) = true := by decide
theorem test_shr_unmasked : nextIs (step ((prog [0x27, 0, 0, 0, 0x21, 0]).setReg .A 0xFFFFFFFF)) (fun t => t.reg .A == 0) = true := by
  decide
theorem test_not : nextIs (step ((prog [0x30, 0]).setReg .A 0xFFFF)) (fun t => t.reg .A == 0xFFFF0000) = true := by decide
theorem test_cmp_lower : nextIs (step ((prog [0x28, 0, 0, 0, 3, 0]).setReg .A 5)) (fun t => t.flags == 0b010 && t.reg .A == 5) = true := by
  decide
theorem test_cmp_unsigned : nextIs (step (prog [0x28, 0xFF, 0xFF, 0xFF, 0xFF, 0])) (fun t => t.flags == 0b001) = true := by decide
theorem test_mul : nextIs (step (((prog [0x19, 0x23]).setReg .C 0x10000).setReg .D 0x10001))
    (fun t => t.reg .A == 0x10000 && t.reg .B == 0 && t.reg .C == 0x10000 && t.reg .D == 0x10001) = true := by decide
theorem test_mul_aliased : nextIs (step (((prog [0x19, 0x10]).setReg .A 3).setReg .B 4)) (fun t => t.reg .A == 12 && t.reg .B == 0) = true := by
  decide
theorem test_div : nextIs (step (((prog [0x1A, 0x01]).setReg .A 7).setReg .B 2)) (fun t => t.reg .A == 3 && t.reg .B == 1) = true := by
  decide
theorem test_div_zero : faultIs (step ((((prog [0x2A, 0, 0, 0, 10, 2]).setReg .A 1).setReg .B 2).setFlags 0b100))
    (fun r => r.code == 9 && r.left.reg .A == 1 && r.left.reg .B == 2 && r.left.flags == 0b100 && r.left.pc == 0x40000006) = true := by
  decide

/-! ## Stack and control transfer (section 4) -/

/-- A stack pointer inside memory. -/
def stack (s : State) : State := s.setReg .S 0x40001000

theorem test_call : nextIs (step (stack (prog [0x41, 0x40, 0, 1, 0])))
    (fun t => t.reg .S == 0x40001004 && t.valueAt 0x40001004 4 == 0x40000005 && t.pc == 0x40000100) = true := by decide
theorem test_call_s : nextIs (step (stack (prog [0x31, 0x07])))
    (fun t => t.reg .S == 0x40001004 && t.valueAt 0x40001004 4 == 0x40000002 && t.pc == 0x40001000) = true := by decide
theorem test_ret : nextIs (step (word 0x40001004 0x40000005 ((prog [0xF0]).setReg .S 0x40001004)))
    (fun t => t.pc == 0x40000005 && t.reg .S == 0x40001000) = true := by decide
theorem test_ret_fault : faultIs (step (prog [0xF0]))
    (fun r => r.code == 3 && r.left.reg .S == 0 && r.left.pc == 0x40000001) = true := by decide
theorem test_push_s : nextIs (step (stack (prog [0x32, 0x07])))
    (fun t => t.reg .S == 0x40001004 && t.valueAt 0x40001004 4 == 0x40001000) = true := by decide
theorem test_push_imm : nextIs (step (stack (prog [0x42, 0x12, 0x34, 0x56, 0x78])))
    (fun t => t.byteAt 0x40001004 == 0x12 && t.byteAt 0x40001007 == 0x78 && t.pc == 0x40000005) = true := by decide
theorem test_pop : nextIs (step (word 0x40001004 0xCAFEBABE ((prog [0x33, 0x01]).setReg .S 0x40001004)))
    (fun t => t.reg .B == 0xCAFEBABE && t.reg .S == 0x40001000) = true := by decide
theorem test_pop_s : nextIs (step (word 0x40001004 0x40001000 ((prog [0x33, 0x07]).setReg .S 0x40001004)))
    (fun t => t.reg .S == 0x40000FFC) = true := by decide
theorem test_jmp_taken : nextIs (step ((prog [0x60, 4, 0x40, 0, 0, 0x20]).setFlags 0b100))
    (fun t => t.pc == 0x40000020 && t.flags == 0) = true := by decide
theorem test_jmp_mask0_falls_through : nextIs (step ((prog [0x60, 0, 0x40, 0, 0, 0x20]).setFlags 0b010))
    (fun t => t.pc == 0x40000006 && t.flags == 0) = true := by decide
theorem test_jmpr_backwards : nextIs (step (prog [0x61, 0, 0xFF, 0xFF, 0xFF, 0xFA])) (fun t => t.pc == 0x40000000) = true := by decide
theorem test_jmpr_reg : nextIs (step ((prog [0x51, 0x03]).setReg .D 0x10)) (fun t => t.pc == 0x40000012) = true := by decide

/-! ## Interrupt and system instructions (sections 5 and 9) -/

/-- IVR and S as section 5 has them. -/
def intState (bs : List Byte) : State := (stack (prog bs)).setIvr 0x40000800

theorem test_int : nextIs (step (word 0x40000808 0x40000400 ((intState [0x44, 0, 0, 0, 2]).setIe true)))
    (fun t => t.reg .S == 0x40001004 && t.valueAt 0x40001004 4 == 0x40000005 && t.pc == 0x40000400 && t.ie) = true := by decide
theorem test_int_disabled : nextIs (step ((intState [0x44, 0, 0, 0, 2]).setFlags 0b100))
    (fun t => t.reg .S == 0x40001000 && t.pc == 0x40000005 && t.flags == 0) = true := by decide
theorem test_hiret : nextIs (step (word 0x40001004 4 (word 0x40001008 0x40000005
      (((prog [0xF1]).setReg .S 0x40001008).setReg .A 7))))
    (fun t => t.pc == 0x40000005 && t.flags == 0b100 && t.reg .S == 0x40001000 && t.reg .A == 7 && t.ie) = true := by decide
theorem test_hiret_flags : nextIs (step (word 0x40001004 0xFFFFFFFA (word 0x40001008 0x40000005 ((prog [0xF1]).setReg .S 0x40001008))))
    (fun t => t.flags == 0b010) = true := by decide
theorem test_acti_takes_pending : nextIs (step (word 0x4000080C 0x40000600 ((intState [0xF2]).setPend (some 3))))
    (fun t => t.ie == false && t.valueAt 0x40001004 4 == 0 && t.valueAt 0x40001008 4 == 0x40000001 &&
      t.reg .S == 0x40001008 && t.pc == 0x40000600 && t.pend == none) = true := by decide
theorem test_acti : nextIs (step (prog [0xF2])) (fun t => t.ie && t.flags == 0) = true := by decide
theorem test_dacti_keeps_pend : nextIs (step (((intState [0xF3]).setIe true).setPend (some 3)))
    (fun t => t.ie == false && t.pend == some 3) = true := by decide
theorem test_sivr : nextIs (step ((prog [0x35, 0x02]).setReg .C 0x40000800)) (fun t => t.ivr == 0x40000800) = true := by decide
theorem test_nop : nextIs (step ((prog [0xFF]).setFlags 0b010)) (fun t => t.flags == 0 && t.pc == 0x40000001) = true := by decide

/-- A word 5 at 0x40000200 and its address in A. -/
def lockState (bs : List Byte) : State := word 0x40000200 5 ((prog bs).setReg .A 0x40000200)

theorem test_sfstor_stores : nextIs (step (lockState [0x52, 0x70]))
    (fun t => t.valueAt 0x40000200 4 == 0x40000200 && t.reg .A == 0x40000200 && t.flags == 0b001) = true := by decide
theorem test_sfstor_write_fault : faultIs (step (deny .write 0x40000202 ((lockState [0x52, 0x11]).setReg .B 9)))
    (fun r => r.code == 4 && r.left.reg .A == 5 && r.left.valueAt 0x40000200 4 == 5) = true := by decide
theorem test_interrupt_entry : nextIs (step (word 0x40000808 0x40000400
      (((intState [0x28, 0, 0, 0, 1, 0]).setIe true).setPend (some 2))))
    (fun t => t.valueAt 0x40001004 4 == 1 && t.valueAt 0x40001008 4 == 0x40000006 && t.reg .S == 0x40001008 &&
      t.pc == 0x40000400 && t.flags == 0 && t.ie == false && t.pend == none) = true := by decide
theorem test_interrupt_entry_fault :
    faultIs (step ((((intState [0xFF]).setIvr 0x400FFFFA).setIe true).setPend (some 2)))
      (fun r => r.code == 3 && r.left.ie == false && r.left.pend == some 2) = true := by decide

/-! ## Memory access and the bus (sections 6 and 7) -/

theorem test_memr_two_bytes : nextIs (step (word 0x40000100 0x12345678 (prog [0x80, 0x40, 0, 1, 0, 0x22])))
    (fun t => t.reg .C == 0x1234 && t.pc == 0x40000006) = true := by decide
theorem test_memr_bounds : faultIs (step (prog [0x80, 0x40, 0x0F, 0xFF, 0xFF, 0x20]))
    (fun r => decide (r = .bounds 0x400FFFFF 2 ((prog [0x80, 0x40, 0x0F, 0xFF, 0xFF, 0x20]).setPc 0x40000006))) = true := by decide
theorem test_memw : nextIs (step (((prog [0x71, 0x03, 0x10]).setReg .A 0x40000100).setReg .B 0x123456))
    (fun t => t.bytesAt 0x40000100 4 == [0x12, 0x34, 0x56, 0]) = true := by decide
theorem test_memw_overflow : faultIs (step ((prog [0x91, 0x10, 0x40, 0, 1, 0]).setReg .A 0x100))
    (fun r => r.code == 8 && r.left.byteAt 0x40000100 == 0) = true := by decide

/-- The device of section 7: base 0x1000, mask 0xFFFFF000. -/
def dev : Device := ⟨0x1000, 0xFFFFF000, none, []⟩
theorem test_device_buffer_size :
    deviceBufferSize .complement dev.mask = 0xFFF ∧ deviceBufferSize .complementPlusOne dev.mask = 0x1000 ∧
    deviceBufferSize (.listed [(0xFFFFF000, 8)]) dev.mask = 8 ∧ deviceBufferSize (.listed [(0xFFFFF000, 8)]) 0xFFFFFF00 = 0xFF := by
  decide
/-- The byte 0xFFF of the buffer exists under the other reading of 93_implementation_defined.md item 8. -/
theorem test_device_other_size :
    okIs (busRead ((State.reset.setParams { Config.params with bufferSizing := .complementPlusOne }).setDevices [dev]) 0x1FFF 1)
      (fun _ => true) = true ∧
    errorIs (busRead ((State.reset.setParams { Config.params with bufferSizing := .complementPlusOne }).setDevices [dev]) 0x1FFF 2)
      (fun r => r.code == 3) = true := by decide
theorem test_device_past_buffer :
    errorIs (busRead (State.reset.setDevices [dev]) 0x1FFF 1) (fun r => r.code == 3) = true := by decide
theorem test_device_read_after_write :
    okIs ((busWrite (State.reset.setDevices [dev]) 0x1FFB 4 0x11223344 "host").bind fun t => busRead t 0x1FFC 2)
      (fun v => v == 0x2233) = true := by decide
theorem test_cell_permissions :
    okIs ((busWrite State.reset 0x40000000 1 0xAB "host").bind fun t => busRead t 0x40000000 1) (fun v => v == 0xAB) = true ∧
    errorIs (busRead (deny .read 0x40000000 State.reset) 0x40000000 1) (fun r => r.code == 4) = true := by decide
theorem test_fetch_checks_x : faultIs (step (deny .execute 0x40000000 (prog [0xFF]))) (fun r => r.code == 4 && r.left.pc == 0x40000000) = true ∧
    nextIs (step (deny .read 0x40000000 (prog [0xFF]))) (fun t => t.pc == 0x40000001) = true := by decide

/-! ## Translation (section 8) and reset (section 9) -/

/-- VMR at 0x40000000, and I at a virtual address. -/
def virtual (pc : Word) (s : State) : State := (s.setVmr 0x40000000).setPc pc

theorem test_noExecute_first : faultIs (step (virtual 0x10 (put 0x40000000 [0x40, 0] State.reset))) (fun r => r.code == 5) = true := by
  decide
theorem test_notAvailable_before_denied : faultIs (step (virtual 0x10 (put 0x40000000 [0xC0, 0] State.reset))) (fun r => r.code == 6) = true := by
  decide
/-- The page of the fourth row of section 8: entry 0xE801 for page 0x800, a NOP at its physical address. -/
def privPage : State := virtual 0x40000000 (put 0x40080000 [0xFF] (put 0x40001000 [0xE8, 0x01] State.reset))
theorem test_accessDenied : faultIs (step privPage)
    (fun r => r.code == 7 && r.left.pc == 0x40000000 && (r.left.tlbLookup 0x40000000).isSome) = true := by decide
theorem test_privileged_runs : nextIs (step (setPrivileged true privPage)) (fun t => t.pc == 0x40000001) = true := by decide
theorem test_second_page_checked :
    faultIs (step (virtual 0x7FFFC (put 0x4007FFFC [0x20] (put 0x40000000 [0xA8, 0, 0x80, 0] State.reset))))
      (fun r => r.code == 6 && r.left.pc == 0x7FFFC && (r.left.tlbLookup 0).isSome && (r.left.tlbLookup 0x80000).isSome) = true := by
  decide
theorem test_stale_entry_used :
    nextIs (step (virtual 0x11 ((put 0x40000010 [0xFF, 0xFF] State.reset).fillTlb 0 0xA800))) (fun t => t.pc == 0x12) = true := by
  decide
theorem test_past_2_32 :
    faultIs (step (virtual 0xFFFFFFFE (put 0x4007FFFE [0x20] (put 0x40003FFE [0xA8, 0] State.reset))))
      (fun r => r.code == 3 && r.left.pc == 0xFFFFFFFE) = true := by decide
theorem test_setupCore :
    errorIs (setupCore 0x3FFFFFFF (State.constructed Config.params)) (fun r => r.code == 10) = true ∧
    errorIs (setupCore 0x40100000 (State.constructed Config.params)) (fun r => r.code == 10) = true ∧
    okIs (setupCore 0x400FFFFF (State.constructed Config.params)) (fun t => t.pc == 0x400FFFFF) = true := by decide
/-- A load is checked against the W bits (20_memory.md R62, log 23) and stores all or nothing. -/
theorem test_loadBinary_checks_w :
    errorIs (loadBinary 0x40000000 [1, 2, 3] "host" (deny .write 0x40000001 State.reset))
      (fun r => decide (r = .permission 0x40000001 .write (deny .write 0x40000001 State.reset))) = true ∧
    okIs (loadBinary 0x400FFFFE [1, 2] "host" State.reset)
      (fun t => t.byteAt 0x400FFFFF == 2 && t.tagAt 0x400FFFFF == "host") = true := by decide
/-- The InitError of a bad mask carries the device, mask and all (log 19). -/
theorem test_registerDevice_error :
    errorIs (registerDevice ⟨0x2001, 0xFFFFFFF8, none, []⟩ State.reset)
      (fun r => decide (r = .init (.device ⟨0x2001, 0xFFFFFFF8, none, []⟩) State.reset)) = true := by decide
/-- Another unit's fill overwrites an entry of the shared TLB; its atomic walk does not (20_memory.md R73, R76; log 25). -/
theorem test_other_unit_fills :
    ((act (State.reset.fillTlb 0 0xA800) (.tlbFill 0x10 0xA801)).tlbLookup 0 == some ⟨0x40080000, 0xA801⟩) = true ∧
    ((act (put 0x40000000 [0xA8, 1] (State.reset.fillTlb 0 0xA800)) (.tableWalk 0x40000000 0x10)).tlbLookup 0 ==
      some ⟨0x40000000, 0xA800⟩) = true := by decide
theorem test_reset_zero_faults : faultIs (step (resetUnit 0 State.reset)) (fun r => decide (r = .bounds 0 1 (resetUnit 0 State.reset))) = true := by
  decide

/-! ## Witnesses: states and operands that meet the hypotheses of each obligation, clause by clause -/

theorem not_accessible_low {s : State} {k : Access} {a n : Nat} (h : a < s.params.memoryStart)
    (hr : routeDevice s.devices a = none) : ¬Accessible s k a n := by
  rintro (⟨h1, -⟩ | ⟨-, d, h2, -⟩)
  · exact absurd h1 (by omega)
  · rw [hr] at h2; cases h2

theorem not_accessible_denied {s : State} {k : Access} {a n : Nat} (h : s.params.memoryStart ≤ a) (j : Nat) (hj : j < n)
    (hd : (s.permsAt (a + j)).allows k = false) : ¬Accessible s k a n := by
  rintro (⟨-, -, h1⟩ | ⟨h1, -⟩)
  · rw [h1 j hj] at hd; cases hd
  · omega

theorem not_accessible_past {s : State} {k : Access} {a n : Nat} (h : s.params.memoryStart ≤ a) (he : s.params.memoryEnd < a + n) :
    ¬Accessible s k a n := by
  rintro (⟨-, h1, -⟩ | ⟨h1, -⟩) <;> omega

/-- Every cell of the array reads, writes and executes at reset, up to its last one. -/
theorem accessible_plain (k : Access) (a n : Nat) (h1 : Config.params.memoryStart ≤ a) (h2 : a + n ≤ Config.params.memoryEnd) :
    Accessible State.reset k a n := .inl ⟨h1, h2, fun _ _ => by cases k <;> rfl⟩

theorem renumbered_ok : renumbered.Ok :=
  ⟨reference_ok.forms, reference_ok.oneRow, reference_ok.selects, reference_ok.complete, rfl, fun r => by cases r <;> decide⟩

/-- The reference codec, and one with another register numbering, meet the hypothesis; well-formed instructions at the ends of their operands' ranges. -/
theorem witness_DecodeOfEncodeIsIdentity :
    Codec.reference.Ok ∧ renumbered.Ok ∧ WellFormed (.memwImmImm 1 0 0) = true ∧ WellFormed (.memwImmImm 4 0xFFFFFFFF 0xFFFFFFFF) = true ∧
    WellFormed .nop = true := ⟨reference_ok, renumbered_ok, by decide, by decide, by decide⟩
/-- Widths 1 and 4 are legal, 0, 5 and 15 are not; a form without a width field; a fetch that reads the malformed word. -/
theorem witness_WidthFieldDecidesDecoding :
    Codec.reference.Ok ∧ ∃ F, Codec.reference.formOf 0x70 = some F ∧ F.length = 3 ∧ F.field? .width 0x700100 = some 1 ∧
      F.field? .width 0x700400 = some 4 ∧ F.field? .width 0x700012 = some 0 ∧ F.field? .width 0x700512 = some 5 ∧
      F.field? .width 0x700F12 = some 15 :=
  ⟨reference_ok, _, rfl, by decide, by decide, by decide, by decide, by decide, by decide⟩
theorem witness_WidthFieldDecidesDecoding_noField :
    ∃ F, Codec.reference.formOf 0xFF = some F ∧ F.length = 1 ∧ F.field? .width 0xFF = none := ⟨_, rfl, rfl, rfl⟩
theorem witness_WidthFieldDecidesDecoding_fetch :
    okIs (fetchFirst 0x40000000 (prog [0x70, 5, 0x12])) (fun p => p.1 == 0x70) = true ∧
    okIs (fetchRest 0x40000000 3 (prog [0x70, 5, 0x12])) (fun p => p.1 == [5, 0x12]) = true ∧
    (prog [0x70, 5, 0x12]).params.codec = Codec.reference ∧ (prog [0x70, 5, 0x12]).Quiet ∧ (prog [0x70, 5, 0x12]).vmr = 0 ∧
    CellsAllow (prog [0x70, 5, 0x12]) .execute 0x40000000 3 ∧ (prog [0x70, 5, 0x12]).bytesAt 0x40000000 3 = [0x70, 5, 0x12] :=
  ⟨by decide, by decide, rfl, rfl, rfl, ⟨by decide, by decide, by decide⟩, by decide⟩
/-- Byte 0x00 at I, as in empty memory, and the last illegal byte 0xFE. -/
theorem witness_UnlistedFirstByteIsInvalid :
    okIs (fetchFirst 0x40000000 State.reset) (fun p => p.1 == 0x00) = true ∧ State.reset.params.codec = Codec.reference ∧
    State.reset.Quiet ∧ State.reset.vmr = 0 ∧ CellsAllow State.reset .execute State.reset.pc.toNat 1 ∧ State.reset.byteAt State.reset.pc.toNat = 0x00 ∧
    (prog [0xFE]).byteAt (prog [0xFE]).pc.toNat = 0xFE :=
  ⟨by decide, rfl, rfl, rfl, ⟨by decide, by decide, by decide⟩, rfl, by decide⟩
theorem witness_FirstByteFixesLength :
    Codec.reference.Ok ∧ decodes [0x11, 0x10] (.addReg .B .A) [] = true ∧
    decodes [0x11, 0x23, 0xFF] (.addReg .C .D) [0xFF] = true := ⟨reference_ok, by decide, by decide⟩
theorem witness_PaddingBitsAreIgnored :
    decodes [0x30, 0xF0] (.notReg .A) [] = true ∧ ∃ F, Codec.reference.formOf 0x30 = some F ∧ F.length = 2 ∧
      beValue [0x30, 0xF0] &&& F.fieldBits = beValue [0x30, 0x00] &&& F.fieldBits := ⟨by decide, _, rfl, rfl, rfl⟩
/-- The default parameters meet R8. -/
theorem params_ok : Config.params.Ok := ⟨by decide, by decide, reference_ok⟩
theorem witness_StepRunsDecodedInstruction :
    okIs (fetch 0x40000000 (prog [0x11, 0x10])) (fun p => p.1.1 == .addReg .B .A && p.1.2 == 0x40000002) = true ∧
    (prog [0x11, 0x10]).params.Ok ∧ (prog [0x11, 0x10]).Quiet ∧ (prog [0x11, 0x10]).vmr = 0 ∧
    CellsAllow (prog [0x11, 0x10]) .execute 0x40000000 2 ∧
    decodes ((prog [0x11, 0x10]).bytesAt 0x40000000 2) (.addReg .B .A) [] = true :=
  ⟨by decide, params_ok, rfl, rfl, ⟨by decide, by decide, by decide⟩, by decide⟩
/-- The last byte of the array. -/
theorem witness_StepRunsDecodedInstruction_end :
    okIs (fetch 0x400FFFFF (put 0x400FFFFF [0xFF] State.reset)) (fun p => p.1.2 == 0x40100000) = true := by decide

/-- A state of the invariant with no device: its lists are decided. -/
theorem inv_of_lists {s : State} (h0 : s.params = Config.params) (h1 : Memory.wf s.mem) (h2 : ∀ c ∈ s.mem, s.inArray c.1 = true) (h3 : KeysRising s.perms)
    (h4 : ∀ c ∈ s.perms, c.2 ≠ Perms.default) (h5 : ∀ c ∈ s.perms, s.inArray c.1 = true) (h6 : KeysRising s.tags)
    (h7 : ∀ c ∈ s.tags, s.inArray c.1 = true) (h8 : KeysRising s.tlb)
    (h9 : ∀ c ∈ s.tlb, c.1 < 2 ^ 13 ∧ c.2.base = physicalBase c.2.entry) (h10 : s.devices = []) : Inv s :=
  ⟨h0 ▸ params_ok, h1, h2, h3, h4, h5, h6, h7, h8, h9, by rw [h10]; simp⟩

/-- Page 0x800 in the TLB with E, P and A set, and a NOP in its page. -/
def tlbState : State := setPrivileged true (virtual 0x40000000 ((put 0x40080000 [0xFF] State.reset).fillTlb 0x40000000 0xE801))
theorem inv_tlbState : Inv tlbState :=
  inv_of_lists rfl (by decide) (by decide) (by decide) (by decide) (by decide) (by decide) (by decide) (by decide) (by decide) rfl
/-- Where every cell has its initial permissions, any cells of the array allow any access. -/
theorem cellsAllow_plain {s : State} (hp : s.perms = []) (k : Access) {a n : Nat} (h1 : s.params.memoryStart ≤ a)
    (h2 : a + n ≤ s.params.memoryEnd) : CellsAllow s k a n :=
  ⟨h1, h2, fun j _ => by unfold State.permsAt; rw [hp]; cases k <;> rfl⟩

/-- A hit: the page is in the TLB, and the table word at VMR is another one. -/
theorem witness_TranslatedStepRunsDecodedInstruction_hit :
    Inv tlbState ∧ tlbState.Quiet ∧ tlbState.vmr ≠ 0 ∧ EntryReadable tlbState 0x40000000 ∧
    EntryPermits tlbState.priv (tlbState.entryAt 0x40000000) ∧
    CellsAllow tlbState .execute (tlbState.physicalAt 0x40000000) 1 ∧
    tlbState.byteAt (tlbState.physicalAt 0x40000000) = 0xFF ∧ decodes [0xFF] .nop [] = true :=
  ⟨inv_tlbState, rfl, by decide, ⟨by decide, .inl (by decide)⟩, ⟨by decide, by decide, fun _ => rfl⟩,
    cellsAllow_plain rfl _ (by decide) (by decide), by decide, by decide⟩

/-- P5 step 1 of 95_test_vectors.md: the table lies in memory and the TLB is empty. -/
def missState : State := setPrivileged true privPage
theorem inv_missState : Inv missState :=
  inv_of_lists rfl (by decide) (by decide) (by decide) (by decide) (by decide) (by decide) (by decide) (by decide) (by decide) rfl
/-- A miss: the step walks the table, fills the TLB, and runs the NOP. -/
theorem witness_TranslatedStepRunsDecodedInstruction_miss :
    Inv missState ∧ missState.Quiet ∧ missState.vmr ≠ 0 ∧ missState.tlbLookup 0x40000000 = none ∧
    EntryReadable missState 0x40000000 ∧ EntryPermits missState.priv (missState.entryAt 0x40000000) ∧
    CellsAllow missState .execute (missState.physicalAt 0x40000000) 1 ∧
    missState.byteAt (missState.physicalAt 0x40000000) = 0xFF ∧
    nextIs (step missState) (fun t => t.tlbLookup 0x40000000 == some ⟨0x40080000, 0xE801⟩) = true :=
  ⟨inv_missState, rfl, by decide, by decide, ⟨by decide, .inr (.inl (cellsAllow_plain rfl _ (by decide) (by decide)))⟩,
    ⟨by decide, by decide, fun _ => rfl⟩, cellsAllow_plain rfl _ (by decide) (by decide), by decide, by decide⟩

/-- The unit at virtual address 0x7FFFC, four bytes before the end of page 0, where a `MOV` of six bytes begins; the table
entries of pages 0 and 1. -/
def cross (e0 e1 : Byte) : State := virtual 0x7FFFC (put 0x4007FFFC [0x20] (put 0x40000000 [e0, 0, e1, 0] State.reset))
theorem cross_readable (e0 e1 : Byte) (k : Nat) (h : k < 6) : EntryReadable (cross e0 e1) ((cross e0 e1).pc.toNat + k) := by
  have hp : (cross e0 e1).pc.toNat = 0x7FFFC := rfl
  refine ⟨by omega, .inr (.inl (cellsAllow_plain rfl _ ?_ ?_))⟩
  · show 0x40000000 ≤ 0x40000000 + _; omega
  · show 0x40000000 + ((cross e0 e1).pc.toNat + k) / 2 ^ 19 * 2 + 2 ≤ 0x40100000; omega
/-- Phase 1: a page without E, one with E and not A, one with E, A and P; and a table outside memory. -/
theorem witness_TranslatedStepMakesAccessCheck_first :
    Inv (cross 0x20 0) ∧ (cross 0x20 0).Quiet ∧ (cross 0x20 0).vmr ≠ 0 ∧
    ((cross 0x20 0).entryAt 0x7FFFC).getLsbD 15 = false ∧
    (((cross 0x80 0).entryAt 0x7FFFC).getLsbD 15 = true ∧ ((cross 0x80 0).entryAt 0x7FFFC).getLsbD 13 = false) ∧
    (((cross 0xE0 0).entryAt 0x7FFFC).getLsbD 15 = true ∧ ((cross 0xE0 0).entryAt 0x7FFFC).getLsbD 13 = true ∧
      ((cross 0xE0 0).entryAt 0x7FFFC).getLsbD 14 = true ∧ (cross 0xE0 0).priv = false) ∧
    ¬EntryReadable (State.reset.setVmr 0x10) 0x40000000 :=
  ⟨inv_of_lists rfl (by decide) (by decide) (by decide) (by decide) (by decide) (by decide) (by decide) (by decide)
    (by decide) rfl, rfl, by decide, by decide, by decide, by decide,
    fun h => h.2.elim (fun h => nomatch h) (not_accessible_low (by decide) rfl)⟩
/-- Phase 2, where page 0 permits the fetch: byte 4 is the first of page 1, which lacks E, or A, or has P. -/
theorem witness_TranslatedStepMakesAccessCheck_rest :
    Inv (cross 0xA8 0) ∧ EntryPermits (cross 0xA8 0).priv ((cross 0xA8 0).entryAt 0x7FFFC) ∧
    CellsAllow (cross 0xA8 0) .execute ((cross 0xA8 0).physicalAt 0x7FFFC) 1 ∧
    (∃ F, (cross 0xA8 0).params.codec.formOf ((cross 0xA8 0).byteAt ((cross 0xA8 0).physicalAt 0x7FFFC)) = some F ∧
      F.length = 6) ∧
    faultIs (step (cross 0xA8 0x20)) (fun r => r.code == 5) = true ∧
    faultIs (step (cross 0xA8 0x80)) (fun r => r.code == 6) = true ∧
    faultIs (step (cross 0xA8 0xE0)) (fun r => r.code == 7 && r.left.pc == 0x7FFFC && (r.left.tlbLookup 0x80000).isSome) = true :=
  ⟨inv_of_lists rfl (by decide) (by decide) (by decide) (by decide) (by decide) (by decide) (by decide) (by decide)
    (by decide) rfl, ⟨by decide, by decide, fun h => absurd h (by decide)⟩, cellsAllow_plain rfl _ (by decide) (by decide),
    ⟨_, rfl, by decide⟩, by decide, by decide, by decide⟩
/-- The entries of pages 0 and 1 meet the premises of each clause at k = 4. -/
theorem witness_TranslatedStepMakesAccessCheck_entries :
    (∀ j, j < 4 → ((cross 0xA8 0x20).entryAt (0x7FFFC + j)).getLsbD 15 = true ∧
      ((cross 0xA8 0x80).entryAt (0x7FFFC + j)).getLsbD 13 = true ∧ ((cross 0xA8 0xE0).entryAt (0x7FFFC + j)).getLsbD 14 = false) ∧
    (∀ j, j < 6 → ((cross 0xA8 0x80).entryAt (0x7FFFC + j)).getLsbD 15 = true ∧
      ((cross 0xA8 0xE0).entryAt (0x7FFFC + j)).getLsbD 15 = true ∧ ((cross 0xA8 0xE0).entryAt (0x7FFFC + j)).getLsbD 13 = true) ∧
    ((cross 0xA8 0x20).entryAt 0x80000).getLsbD 15 = false ∧ ((cross 0xA8 0x80).entryAt 0x80000).getLsbD 13 = false ∧
    ((cross 0xA8 0xE0).entryAt 0x80000).getLsbD 14 = true := by decide
/-- A hit; a miss whose entry can be read, the last page's entry included; one whose entry cannot. -/
theorem witness_EntryComesFromTlbElseTable :
    tlbState.Quiet ∧ (tlbState.tlbLookup 0x4007FFFF).isSome = true ∧ State.reset.tlbLookup 0xFFFFFFFF = none ∧
    Accessible State.reset .read ((0x40000000 : Word).toNat + 0xFFFFFFFF / 2 ^ 19 * 2) 2 ∧
    ¬Accessible State.reset .read ((0x3FFFBFFF : Word).toNat + 0xFFFFFFFF / 2 ^ 19 * 2) 2 :=
  ⟨rfl, by decide, rfl, accessible_plain _ _ _ (by decide) (by decide), not_accessible_low (by decide) rfl⟩
theorem witness_TranslationIsPageBasePlusOffset :
    okIs (translate 0x40000000 0x4007FFFF tlbState) (fun p => p.1 == 0x400FFFFF) = true := by decide
/-- The entries 0x8000 and 0xE000 of section 1, S2, and an entry without E. -/
def twoPages : State := put 0x40000000 [0x80, 0, 0xE0, 0, 0x60, 0] State.reset
theorem witness_AccessChecksRunInPriorityOrder :
    okIs (validateAccess false [0x123] [0x456] 0 State.reset) (fun t => decide (t = State.reset)) = true ∧
    errorIs (tableEntries 0x10 [0x10] State.reset) (fun r => r.code == 3) = true ∧
    errorIs (validateAccess false [0x00000010] [] 0x40000000 twoPages) (fun r => r.code == 6) = true ∧
    errorIs (validateAccess false [0x00080010] [] 0x40000000 twoPages) (fun r => r.code == 7) = true ∧
    okIs (validateAccess true [0x00080010] [] 0x40000000 twoPages) (fun _ => true) = true ∧
    errorIs (validateAccess false [0x10, 0x00100000] [] 0x40000000 twoPages) (fun r => r.code == 5) = true := by decide
theorem witness_AccessChecksRunInPriorityOrder_entries :
    okIs (tableEntries 0x40000000 [0x10, 0x80010, 0x100010] twoPages)
      (fun p => p.1 == [(0x10, 0x8000), (0x80010, 0xE000), (0x100010, 0x6000)]) = true := by decide
theorem witness_FetchPortChangesOnlyTlb :
    privPage.Quiet ∧ errorIs (fetchInstructionAtAddress 0x40000000 privPage) (fun r => r.code == 7) = true ∧
    okIs (fetchInstructionAtAddress 0x40000000 (prog [0xFF])) (fun p => p.1.1 == .nop) = true := by decide
/-- A fetch fault, and a DIV by 0. -/
theorem witness_FaultsLeaveInstructionPointer :
    State.reset.Quiet ∧ errorIs (fetch State.reset.pc.toNat State.reset) (fun r => r.code == 1) = true ∧
    (prog [0x1A, 0x12]).params.Ok ∧ okIs (fetch 0x40000000 (prog [0x1A, 0x12])) (fun p => p.1.1 == .divReg .B .C) = true ∧
    faultIs (exec (.divReg .B .C) ((prog [0x1A, 0x12]).setPc 0x40000002)) (fun r => r.code == 9) = true :=
  ⟨rfl, by decide, params_ok, by decide, by decide⟩
/-- The first and last cell, the addresses just outside, and a cell that does not execute. -/
theorem witness_FetchByteReadsExecutableCells :
    State.reset.Quiet ∧ okIs (fetchByte State.reset 0x40000000) (fun _ => true) = true ∧
    okIs (fetchByte State.reset 0x400FFFFF) (fun _ => true) = true ∧
    errorIs (fetchByte State.reset 0x3FFFFFFF) (fun r => r.code == 3) = true ∧
    errorIs (fetchByte State.reset 0x40100000) (fun r => r.code == 3) = true ∧
    ((deny .execute 0x40000000 State.reset).permsAt 0x40000000).x = false := by decide
/-- Byte 20 00 in the last two cells: the third byte is missing. -/
theorem witness_UndecodableFetchFaults :
    ∃ F, Codec.reference.formOf 0x20 = some F ∧ 2 < F.length ∧ 0x400FFFFE + 2 = Config.params.memoryEnd ∧
      (put 0x400FFFFE [0x20, 0] State.reset).params.Ok ∧ (put 0x400FFFFE [0x20, 0] State.reset).Quiet ∧ (put 0x400FFFFE [0x20, 0] State.reset).byteAt 0x400FFFFE = 0x20 ∧
      CellsAllow (put 0x400FFFFE [0x20, 0] State.reset) .execute 0x400FFFFE 2 :=
  ⟨_, rfl, by decide, by decide, params_ok, rfl, by decide, ⟨by decide, by decide, by decide⟩⟩
theorem witness_UndecodableFetchFaults_decode :
    Codec.reference.formOf 0x00 = none ∧ okIs (fetchFirst 0x40000000 State.reset) (fun p => p.1 == 0) = true ∧
    okIs (fetchRest 0x40000000 3 (prog [0x70, 0, 0x12])) (fun p => beValue (0x70 :: p.1) == 0x700012) = true := by decide

/-- IE = 1, vector 2 pending, a stack and a vector table. -/
def pendingState : State := word 0x40000808 0x40000400 (((intState [0xFF]).setIe true).setPend (some 2))
theorem witness_SignalFillsEmptySlot :
    ((intState []).setIe true).ie = true ∧ ((intState []).setIe true).pend = none ∧
    ¬(State.reset.ie = true ∧ State.reset.pend = none) ∧ ¬(pendingState.ie = true ∧ pendingState.pend = none) := by decide
theorem pendingState_accessible : Accessible pendingState .write (pendingState.reg .S + 4).toNat 4 ∧
    Accessible pendingState .read (pendingState.ivr.toNat + 4 * (2 : Word).toNat) 4 ∧
    Accessible pendingState .write (pendingState.reg .S + 8).toNat 4 :=
  ⟨.inl ⟨by decide, by decide, by decide⟩, .inl ⟨by decide, by decide, by decide⟩, .inl ⟨by decide, by decide, by decide⟩⟩
/-- All three accesses possible; the vector table at 4*2 = 8 with IVR = 0, which no device serves. -/
theorem witness_InterruptCheckEntersHandler :
    pendingState.Quiet ∧ pendingState.pend = some 2 ∧ pendingState.ie = true ∧ State.reset.pend = none ∧
    ¬Accessible (pendingState.setIvr 0) .read ((pendingState.setIvr 0).ivr.toNat + 4 * (2 : Word).toNat) 4 :=
  ⟨rfl, rfl, rfl, rfl, not_accessible_low (by decide) rfl⟩
/-- IE = 0 and a signal that lands in the fetch of a NOP, in a fetch that faults, in a RET, in an ACTI; IE = 1. -/
theorem witness_SignalsReachEnabledUnitOnly :
    (State.reset.setAgenda [[.signal 3]]).ie = false ∧
    okIs (fetch 0x40000000 ((prog [0xFF]).setAgenda [[.signal 3]])) (fun p => p.2.agenda == [] && p.2.pend == none) = true ∧
    errorIs (fetch 0x40000000 (State.reset.setAgenda [[.signal 3]])) (fun r => r.left.agenda == []) = true ∧
    nextIs (exec .ret ((stack State.reset).setAgenda [[.signal 3]])) (fun t => t.agenda == [] && t.pend == none) = true ∧
    faultIs (exec .ret (State.reset.setAgenda [[.signal 3]])) (fun r => r.left.agenda == []) = true ∧
    nextIs (exec .acti (State.reset.setAgenda [[.signal 3]])) (fun t => t.pend == none) = true ∧
    ((State.reset.setIe true).setAgenda [[.signal 3]]).ie = true ∧ ((State.reset.setIe true).setAgenda [[.signal 3]]).pend = none := by
  decide
theorem witness_HiretUndoesInterruptEntry :
    pendingState.params.Ok ∧ pendingState.Quiet ∧ pendingState.pend = some 2 ∧ pendingState.ie = true ∧
    CellsAllow pendingState .write ((pendingState.reg .S).toNat + 4) 8 ∧
    CellsAllow pendingState .read ((pendingState.reg .S).toNat + 4) 8 ∧
    Accessible pendingState .read (pendingState.ivr.toNat + 4 * (2 : Word).toNat) 4 :=
  ⟨params_ok, rfl, rfl, rfl, ⟨by decide, by decide, by decide⟩, ⟨by decide, by decide, by decide⟩, pendingState_accessible.2.1⟩
/-- The two pushes into the last eight cells of the array. -/
theorem witness_HiretUndoesInterruptEntry_end :
    CellsAllow (pendingState.setReg .S 0x400FFFF4) .write (((pendingState.setReg .S 0x400FFFF4).reg .S).toNat + 4) 8 ∧
    CellsAllow (pendingState.setReg .S 0x400FFFF4) .read (((pendingState.setReg .S 0x400FFFF4).reg .S).toNat + 4) 8 :=
  ⟨⟨by decide, by decide, by decide⟩, ⟨by decide, by decide, by decide⟩⟩
/-- Two readable words; S outside memory; S at the first cell, so that the second word is in device space. -/
theorem witness_HiretRestoresSavedState :
    (Accessible (stack State.reset) .read ((stack State.reset).reg .S).toNat 4 ∧
      Accessible (stack State.reset) .read ((stack State.reset).reg .S - 4).toNat 4) ∧
    ¬Accessible State.reset .read (State.reset.reg .S).toNat 4 ∧
    (Accessible (State.reset.setReg .S 0x40000000) .read ((State.reset.setReg .S 0x40000000).reg .S).toNat 4 ∧
      ¬Accessible (State.reset.setReg .S 0x40000000) .read ((State.reset.setReg .S 0x40000000).reg .S - 4).toNat 4) :=
  ⟨⟨.inl ⟨by decide, by decide, by decide⟩, .inl ⟨by decide, by decide, by decide⟩⟩, not_accessible_low (by decide) rfl,
    .inl ⟨by decide, by decide, by decide⟩, not_accessible_low (by decide) rfl⟩
/-- Software INT: disabled; taken; no table; no stack (S wraps to 0). -/
theorem witness_IntCallsHandler :
    State.reset.ie = false ∧ pendingState.ie = true ∧
    (Accessible pendingState .read (pendingState.ivr.toNat + 4 * (2 : Word).toNat) 4 ∧
      Accessible pendingState .write (pendingState.reg .S + 4).toNat 4) ∧
    ¬Accessible State.reset .read (State.reset.ivr.toNat + 4 * (0xFFFFFFFF : Word).toNat) 4 ∧
    ¬Accessible (pendingState.setReg .S 0xFFFFFFFC) .write ((pendingState.setReg .S 0xFFFFFFFC).reg .S + 4).toNat 4 :=
  ⟨rfl, rfl, ⟨pendingState_accessible.2.1, pendingState_accessible.1⟩, not_accessible_past (by decide) (by decide),
    not_accessible_low (by decide) rfl⟩
/-- Hardware-sourced: the second push alone impossible, the first push at the end of the array. -/
theorem witness_IntCallsHandler_secondPush :
    Accessible (pendingState.setReg .S 0x400FFFF8) .write ((pendingState.setReg .S 0x400FFFF8).reg .S + 4).toNat 4 ∧
    Accessible (pendingState.setReg .S 0x400FFFF8) .read (pendingState.ivr.toNat + 4 * (2 : Word).toNat) 4 ∧
    ¬Accessible (pendingState.setReg .S 0x400FFFF8) .write ((pendingState.setReg .S 0x400FFFF8).reg .S + 8).toNat 4 :=
  ⟨.inl ⟨by decide, by decide, by decide⟩, pendingState_accessible.2.1, not_accessible_past (by decide) (by decide)⟩

/-- Both forms of the operand hypothesis of the data-processing statements. -/
theorem witness_MovCopiesSource :
    ((∃ r, Instr.movReg .B .A = .movReg r .A ∧ State.reset.reg .B = State.reset.reg r) ∨ Instr.movReg .B .A = .movImm 0 .A) ∧
    ((∃ r, Instr.movImm 0xFFFFFFFF .A = .movReg r .A ∧ (0xFFFFFFFF : Word) = State.reset.reg r) ∨
      Instr.movImm 0xFFFFFFFF .A = .movImm 0xFFFFFFFF .A) := ⟨.inl ⟨.B, rfl, rfl⟩, .inr rfl⟩
theorem witness_AddAndSubWrapModulo32 :
    (∃ r, Instr.addReg .B .A = .addReg r .A ∧ State.reset.reg .B = State.reset.reg r) ∧
    (∃ r, Instr.subReg .A .A = .subReg r .A ∧ State.reset.reg .A = State.reset.reg r) := ⟨⟨.B, rfl, rfl⟩, ⟨.A, rfl, rfl⟩⟩
theorem witness_LogicalOperationsAreBitwise :
    (((∃ r, Instr.andReg .B .A = .andReg r .A ∧ State.reset.reg .B = State.reset.reg r) ∨ Instr.andReg .B .A = .andImm 0 .A) ∧
      Bool.and = Bool.and) ∧
    ((∃ r, Instr.orImm 1 .A = .orReg r .A ∧ (1 : Word) = State.reset.reg r) ∨ Instr.orImm 1 .A = .orImm 1 .A) ∧
    ((∃ r, Instr.xorImm 1 .A = .xorReg r .A ∧ (1 : Word) = State.reset.reg r) ∨ Instr.xorImm 1 .A = .xorImm 1 .A) :=
  ⟨⟨.inl ⟨.B, rfl, rfl⟩, rfl⟩, .inr rfl, .inr rfl⟩
theorem witness_ShiftCountsAreNotMasked :
    (∃ r, Instr.shlReg .B .A = .shlReg r .A ∧ (State.reset.setReg .B 32).reg .B = (State.reset.setReg .B 32).reg r) ∧
    32 ≤ ((State.reset.setReg .B 32).reg .B).toNat ∧ (∃ r, Instr.shrReg .B .A = .shrReg r .A ∧ State.reset.reg .B = State.reset.reg r) :=
  ⟨⟨.B, rfl, rfl⟩, by decide, ⟨.B, rfl, rfl⟩⟩
theorem witness_CmpSetsExactlyOneFlag :
    ((∃ r, Instr.cmpImm 5 .A = .cmpReg r .A ∧ (5 : Word) = State.reset.reg r) ∨ Instr.cmpImm 5 .A = .cmpImm 5 .A) ∧
    (((0 : Word).toNat : Int) - (State.reset.reg .A).toNat = 0) ∧ (((5 : Word).toNat : Int) - (State.reset.reg .A).toNat > 0) ∧
    (((5 : Word).toNat : Int) - ((State.reset.setReg .A 6).reg .A).toNat < 0) := ⟨.inr rfl, by decide, by decide, by decide⟩
theorem witness_MulWritesLowProductAndZero :
    (∃ r, Instr.mulReg .A .B = .mulReg r .B ∧ State.reset.reg .A = State.reset.reg r) ∨ Instr.mulReg .A .B = .mulImm 0 .B :=
  .inl ⟨.A, rfl, rfl⟩
/-- A zero and a nonzero divisor. -/
theorem witness_DivDividesSourceByDestination :
    ((∃ r, Instr.divImm 10 .C = .divReg r .C ∧ (10 : Word) = State.reset.reg r) ∨ Instr.divImm 10 .C = .divImm 10 .C) ∧
    State.reset.reg .C = 0 ∧ (State.reset.setReg .C 3).reg .C ≠ 0 := ⟨.inr rfl, rfl, by decide⟩

/-- A push at the last word of the array, one a word further, and one at address 0 after S wraps. -/
theorem witness_CallPushesReturnAddress :
    Accessible (State.reset.setReg .S 0x400FFFF8) .write ((State.reset.setReg .S 0x400FFFF8).reg .S + 4).toNat 4 ∧
    ¬Accessible (State.reset.setReg .S 0x400FFFFC) .write ((State.reset.setReg .S 0x400FFFFC).reg .S + 4).toNat 4 ∧
    ¬Accessible (State.reset.setReg .S 0xFFFFFFFC) .write ((State.reset.setReg .S 0xFFFFFFFC).reg .S + 4).toNat 4 :=
  ⟨.inl ⟨by decide, by decide, by decide⟩, not_accessible_past (by decide) (by decide), not_accessible_low (by decide) rfl⟩
theorem witness_CallPushesReturnAddress_forms :
    ((∃ r, Instr.callReg .S = .callReg r ∧ State.reset.reg .S = State.reset.reg r) ∨ Instr.callReg .S = .callImm 0) ∧
    ((∃ r, Instr.pushReg .S = .pushReg r ∧ State.reset.reg .S = State.reset.reg r) ∨ Instr.pushReg .S = .pushImm 0) :=
  ⟨.inl ⟨.S, rfl, rfl⟩, .inl ⟨.S, rfl, rfl⟩⟩
/-- A readable word at the first cell, and none at S = 0; the same for POP. -/
theorem witness_RetPopsReturnAddress :
    State.reset.Quiet ∧ Accessible (State.reset.setReg .S 0x40000000) .read ((State.reset.setReg .S 0x40000000).reg .S).toNat 4 ∧
    ¬Accessible State.reset .read (State.reset.reg .S).toNat 4 :=
  ⟨rfl, .inl ⟨by decide, by decide, by decide⟩, not_accessible_low (by decide) rfl⟩
theorem witness_PushStoresOperand : Accessible (stack State.reset) .write ((stack State.reset).reg .S + 4).toNat 4 ∧
    ¬Accessible State.reset .write (State.reset.reg .S + 4).toNat 4 :=
  ⟨.inl ⟨by decide, by decide, by decide⟩, not_accessible_low (by decide) rfl⟩
theorem witness_PopLoadsThenDecrements : Accessible (stack State.reset) .read ((stack State.reset).reg .S).toNat 4 ∧
    ¬Accessible State.reset .read (State.reset.reg .S).toNat 4 :=
  ⟨.inl ⟨by decide, by decide, by decide⟩, not_accessible_low (by decide) rfl⟩
theorem witness_StackRoundTrips :
    (stack State.reset).Quiet ∧ Accessible (stack State.reset) .write ((stack State.reset).reg .S + 4).toNat 4 ∧
    Accessible (stack State.reset) .read ((stack State.reset).reg .S + 4).toNat 4 :=
  ⟨rfl, .inl ⟨by decide, by decide, by decide⟩, .inl ⟨by decide, by decide, by decide⟩⟩
/-- Mask 0 with FLAGS 0, a shared bit, and masks that fail. -/
theorem witness_JmpIsConditionalAbsolute :
    CondTrue 0 0 ∧ CondTrue 0b110 0b010 ∧ ¬CondTrue 0 0b010 ∧ ¬CondTrue 0b111 0 ∧
    ((∃ r, Instr.jmpReg 0 .C = .jmpReg 0 r ∧ State.reset.reg .C = State.reset.reg r) ∨ Instr.jmpReg 0 .C = .jmpImm 0 0) := by
  refine ⟨?_, ?_, ?_, ?_, .inl ⟨.C, rfl, rfl⟩⟩ <;> unfold CondTrue <;> decide
theorem witness_JmprIsConditionalRelative :
    ((∃ r, Instr.jmprImm 0 0xFFFFFFFA = .jmprReg 0 r ∧ (0xFFFFFFFA : Word) = State.reset.reg r) ∨
      Instr.jmprImm 0 0xFFFFFFFA = .jmprImm 0 0xFFFFFFFA) ∧
    ¬(0xFFFFFFFA : Word).toNat < 2 ^ 31 ∧ (0x7FFFFFFF : Word).toNat < 2 ^ 31 := ⟨.inr rfl, by decide, by decide⟩
/-- SFSTOR on a readable and writable word, with a condition that holds and one that fails. -/
theorem witness_SfstorStoresOnFreshComparison :
    (lockState []).Quiet ∧ Accessible (lockState []) .read ((lockState []).reg .A).toNat 4 ∧
    Accessible (lockState []) .write ((lockState []).reg .A).toNat 4 ∧
    CondTrue 0b001 (codeOf (9 : Word).toNat ((lockState []).valueAt 0x40000200 4)) ∧
    ¬CondTrue 0 (codeOf (5 : Word).toNat ((lockState []).valueAt 0x40000200 4)) := by
  refine ⟨rfl, .inl ⟨by decide, by decide, by decide⟩, .inl ⟨by decide, by decide, by decide⟩, ?_, ?_⟩ <;>
    unfold CondTrue <;> decide
/-- A in device space without a device; a word that reads but does not write. -/
theorem witness_SfstorStoresOnFreshComparison_faults :
    ¬Accessible State.reset .read (State.reset.reg .A).toNat 4 ∧
    Accessible (deny .write 0x40000202 (lockState [])) .read ((lockState []).reg .A).toNat 4 ∧
    ¬Accessible (deny .write 0x40000202 (lockState [])) .write ((lockState []).reg .A).toNat 4 :=
  ⟨not_accessible_low (by decide) rfl, .inl ⟨by decide, by decide, by decide⟩,
    not_accessible_denied (by decide) 2 (by decide) (by decide)⟩
/-- Widths 1 and 4 at the end of the array, and a read past it. -/
theorem witness_MemrLoadsZeroExtended :
    1 ≤ (1 : BitVec 4).toNat ∧ (4 : BitVec 4).toNat ≤ 4 ∧ Accessible State.reset .read (0x400FFFFF : Word).toNat (1 : BitVec 4).toNat ∧
    Accessible State.reset .read (0x400FFFFC : Word).toNat (4 : BitVec 4).toNat ∧
    ¬Accessible State.reset .read (0x400FFFFD : Word).toNat (4 : BitVec 4).toNat ∧
    ((∃ r, Instr.memrRegReg 4 .A .A = .memrRegReg 4 r .A ∧ State.reset.reg .A = State.reset.reg r) ∨
      Instr.memrRegReg 4 .A .A = .memrImmReg 4 0 .A) :=
  ⟨by decide, by decide, accessible_plain _ _ _ (by decide) (by decide), accessible_plain _ _ _ (by decide) (by decide),
    not_accessible_past (by decide) (by decide), .inl ⟨.A, rfl, rfl⟩⟩
/-- A value that just fits, one that just does not, and a store that is denied. -/
theorem witness_MemwStoresValueThatFits :
    ((0xFF : Word).toNat < 2 ^ (8 * (1 : BitVec 4).toNat)) ∧ (2 ^ (8 * (1 : BitVec 4).toNat) ≤ (0x100 : Word).toNat) ∧
    ((0xFFFFFFFF : Word).toNat < 2 ^ (8 * (4 : BitVec 4).toNat)) ∧
    Accessible State.reset .write (0x400FFFFF : Word).toNat (1 : BitVec 4).toNat ∧
    ¬Accessible (deny .write 0x40000102 State.reset) .write (0x40000100 : Word).toNat (4 : BitVec 4).toNat :=
  ⟨by decide, by decide, by decide, accessible_plain _ _ _ (by decide) (by decide),
    not_accessible_denied (by decide) 2 (by decide) (by decide)⟩
theorem witness_MemwStoresValueThatFits_forms :
    (∃ r d, Instr.memwRegReg 3 .B .A = .memwRegReg 3 r d ∧ State.reset.reg .B = State.reset.reg r ∧ State.reset.reg .A = State.reset.reg d) ∧
    (∃ d, Instr.memwImmReg 2 7 .B = .memwImmReg 2 7 d ∧ State.reset.reg .B = State.reset.reg d) ∧
    (∃ r, Instr.memwRegImm 1 .A 9 = .memwRegImm 1 r 9 ∧ State.reset.reg .A = State.reset.reg r) :=
  ⟨⟨.B, .A, rfl, rfl, rfl⟩, ⟨.B, rfl, rfl⟩, ⟨.A, rfl, rfl⟩⟩

/-- A device with an 8-byte buffer less one: offsets 0 to 6. -/
def dev7 : Device := ⟨0x2000, 0xFFFFFFF8, none, []⟩
/-- Cells, and a device's last bytes, are accessible; a byte past the buffer, a routing miss and a denied cell are not. -/
theorem witness_BusReadFollowsCheckOrder :
    ¬(1 ≤ 0 ∧ 0 ≤ 4) ∧ Accessible State.reset .read 0x400FFFFC 4 ∧ Accessible (State.reset.setDevices [dev7]) .read 0x2003 4 ∧
    ¬Accessible State.reset .read 0x2003 4 ∧ ¬Accessible (deny .read 0x40000003 State.reset) .read 0x40000000 4 :=
  ⟨by decide, accessible_plain _ _ _ (by decide) (by decide), .inr ⟨by decide, dev7, rfl, by decide⟩,
    not_accessible_low (by decide) rfl, not_accessible_denied (by decide) 3 (by decide) (by decide)⟩
theorem witness_BusWriteStoresAllOrNothing :
    2 ^ (8 * 1) ≤ 0x1FF ∧ 0xFFFF < 2 ^ (8 * 2) ∧ ¬(1 ≤ 5 ∧ 5 ≤ 4) ∧ Accessible State.reset .write 0x40000000 4 ∧
    Accessible (State.reset.setDevices [dev7]) .write 0x2000 1 ∧
    ¬Accessible (deny .write 0x40000003 State.reset) .write 0x40000000 4 :=
  ⟨by decide, by decide, by decide, accessible_plain _ _ _ (by decide) (by decide), .inr ⟨by decide, dev7, rfl, by decide⟩,
    not_accessible_denied (by decide) 3 (by decide) (by decide)⟩
theorem witness_MixedWidthAccessesAreBigEndian :
    CellsAllow State.reset .read 0x400FFFFC 4 ∧ CellsAllow State.reset .write 0x400FFFFC 4 :=
  ⟨⟨by decide, by decide, by decide⟩, ⟨by decide, by decide, by decide⟩⟩
/-- Two devices that both match: the first is used, to the last byte of its buffer, and not past it. -/
theorem witness_FirstMatchingDeviceIsUsed :
    (State.reset.setDevices [dev7, dev7]).devices = [] ++ dev7 :: [dev7] ∧ 0x2003 &&& dev7.mask.toNat = dev7.start.toNat ∧
    0x2003 - dev7.start.toNat + 4 ≤ deviceBufferSize State.reset.params.bufferSizing dev7.mask ∧ deviceBufferSize State.reset.params.bufferSizing dev7.mask < 0x2004 - dev7.start.toNat + 4 ∧
    (∀ e ∈ [dev7], 0x3000 &&& e.mask.toNat ≠ e.start.toNat) ∧ 0x3FFFFFFF < State.reset.params.memoryStart := by decide
theorem witness_ResetAndSetupPorts_params : State.reset.params.Ok := params_ok
theorem witness_ResetAndSetupPorts :
    (Config.params.memoryStart ≤ 0x40000000 ∧ 0x40000000 < Config.params.memoryEnd) ∧ (Config.params.memoryStart ≤ 0x400FFFFF ∧ 0x400FFFFF < Config.params.memoryEnd) ∧
    ¬(Config.params.memoryStart ≤ 0x40100000 ∧ 0x40100000 < Config.params.memoryEnd) ∧ ¬(Config.params.memoryStart ≤ 0x3FFFFFFF ∧ 0x3FFFFFFF < Config.params.memoryEnd) := by
  decide
/-- A device that may be registered; one that starts at MEMORY_START; one whose start is not under its mask. -/
theorem witness_RegisterDeviceChecksPlacement :
    (dev7.start.toNat < Config.params.memoryStart ∧ dev7.start &&& dev7.mask = dev7.start) ∧
    ¬((0x40000000 : Word).toNat < Config.params.memoryStart ∧ (0x40000000 : Word) &&& 0xFFFFFFF8 = 0x40000000) ∧
    ¬((0x2001 : Word).toNat < Config.params.memoryStart ∧ (0x2001 : Word) &&& 0xFFFFFFF8 = 0x2001) := by decide
/-- Both sizings a state may have. -/
theorem witness_RegisterDeviceChecksPlacement_sizing :
    State.reset.params.bufferSizing = .complement ∧
    (State.reset.setParams { Config.params with bufferSizing := .complementPlusOne }).params.bufferSizing = .complementPlusOne :=
  ⟨rfl, rfl⟩
theorem witness_TogglePortsFlipOneBit :
    (Config.params.memoryStart ≤ 0x40000000 ∧ 0x40000000 < Config.params.memoryEnd) ∧ (Config.params.memoryStart ≤ 0x400FFFFF ∧ 0x400FFFFF < Config.params.memoryEnd) := by
  decide
theorem inv_reset : Inv State.reset :=
  inv_of_lists rfl (by decide) (by decide) (by decide) (by decide) (by decide) (by decide) (by decide) (by decide) (by decide) rfl
/-- Each port that can fail succeeds somewhere. -/
theorem witness_PortsKeepInvariant :
    Inv State.reset ∧ okIs (setupCore 0x40000000 State.reset) (fun _ => true) = true ∧
    okIs (memoryWriteAtAddressForLength 0x40000000 4 1 "host" State.reset) (fun _ => true) = true ∧
    okIs (togglePort .write 0x40000000 "host" State.reset) (fun _ => true) = true ∧ dev7.buffer = [] ∧
    okIs (registerDevice dev7 State.reset) (fun _ => true) = true ∧
    okIs (loadBinary 0x40000000 [0xFF, 0xF0] "host" State.reset) (fun _ => true) = true ∧
    okIs (fetchInstructionAtAddress 0x40000000 (prog [0xFF])) (fun _ => true) = true ∧
    okIs (boot State.reset.params [dev7] 0x40000000 [0xFF] "host" true 0x40000000 0x40000000) (fun _ => true) = true :=
  ⟨inv_reset, by decide, by decide, by decide, rfl, by decide, by decide, by decide, by decide⟩
/-- States of the invariant in which a step completes and in which it faults. -/
theorem witness_StepKeepsInvariant : Inv tlbState ∧ nextIs (step tlbState) (fun _ => true) = true ∧ Inv State.reset ∧
    faultIs (step State.reset) (fun r => r.code == 1) = true := ⟨inv_tlbState, by decide, inv_reset, by decide⟩
theorem witness_RegistersOutsideDestinationsKeep :
    nextIs (exec (.popReg .B) (stack State.reset)) (fun _ => true) = true ∧
    nextIs (exec (.sfstorImm 0b111 7) (lockState [])) (fun _ => true) = true := by decide
/-- A form that stores nothing, and one that stores. -/
theorem witness_MemoryOutsideStoreKeeps :
    (stack State.reset).Quiet ∧ nextIs (exec .ret (stack State.reset)) (fun _ => true) = true ∧ storesTo .ret (stack State.reset) = none ∧
    nextIs (exec (.pushImm 7) (stack State.reset)) (fun _ => true) = true ∧
    storesTo (.pushImm 7) (stack State.reset) = some (0x40001004, 4, 7) := by decide
theorem witness_FlagsAreCommitted :
    nextIs (exec (.cmpImm 5 .A) State.reset) (fun _ => true) = true ∧ nextIs (exec .hiret (stack State.reset)) (fun _ => true) = true ∧
    faultIs (exec .ret (State.reset.setFlags 0b100)) (fun _ => true) = true := by decide
/-- An instruction that changes IE, one that changes IVR, and steps that complete and fault with VMR and PRIV set. -/
theorem witness_ControlRegistersChangeOnlyByTheirInstructions :
    nextIs (exec .acti State.reset) (fun t => t.ie != State.reset.ie) = true ∧
    nextIs (exec (.sivrReg .S) (stack State.reset)) (fun t => t.ivr != (stack State.reset).ivr) = true ∧
    pendingState.pend = some 2 ∧ nextIs (exec .nop pendingState) (fun _ => true) = true ∧
    nextIs (step tlbState) (fun t => t.priv) = true ∧ faultIs (step privPage) (fun r => r.left.vmr == 0x40000000) = true := by decide
theorem witness_OnlyControlTransfersMoveI :
    nextIs (exec (.jmpImm 0 0x40000020) State.reset) (fun t => t.pc != State.reset.pc) = true ∧
    nextIs (exec (.intImm 2) pendingState) (fun t => t.pc != pendingState.pc) = true := by decide
theorem witness_PrivMattersOnlyUnderTranslation : (prog [0xFF]).vmr = 0 ∧ (prog [0xFF]).Quiet := by decide
theorem witness_TlbEntriesStayUntilFlush :
    Inv tlbState ∧ tlbState.Quiet ∧ nextIs (step tlbState) (fun _ => true) = true ∧
    tlbState.tlbLookup 0x40000000 = some ⟨0x40080000, 0xE801⟩ := ⟨inv_tlbState, rfl, by decide, by decide⟩
/-- A step that faults with the page in the TLB. -/
theorem witness_TlbEntriesStayUntilFlush_fault :
    Inv (tlbState.setPriv false) ∧ (tlbState.setPriv false).Quiet ∧ faultIs (step (tlbState.setPriv false)) (fun _ => true) = true ∧
    ((tlbState.setPriv false).tlbLookup 0x40000000).isSome = true :=
  ⟨inv_of_lists rfl (by decide) (by decide) (by decide) (by decide) (by decide) (by decide) (by decide) (by decide)
    (by decide) rfl, rfl, by decide, by decide⟩

end Sys2Proof.Tests
end

namespace Sys2Proof.Machine

/-! ## The invariant through the host's ports (O49) -/

/-- A newly built unit on a new bus lists nothing, so only its parameters matter. -/
theorem inv_constructed {p : Params} (hp : p.Ok) : Inv (State.constructed p) where
  params := hp
  memWf := ⟨List.Pairwise.nil, fun _ hc => nomatch hc⟩
  memCells _ hc := nomatch hc
  permsRising := List.Pairwise.nil
  permsListed _ hc := nomatch hc
  permsCells _ hc := nomatch hc
  tagsRising := List.Pairwise.nil
  tagsCells _ hc := nomatch hc
  tlbRising := List.Pairwise.nil
  tlbPages _ hc := nomatch hc
  devicesWf _ hd := nomatch hd

theorem constructUnit_newBus (p : Params) : constructUnit p (some newBus) = .ok (State.constructed p) := rfl

theorem Inv.setupCore {s t : State} (h : Inv s) {i0 : Nat} (hs : setupCore i0 s = .ok t) : Inv t := by
  unfold Machine.setupCore at hs
  split at hs
  · cases hs; exact h.congr rfl rfl rfl rfl rfl rfl
  · cases hs

theorem Inv.togglePort {s t : State} (h : Inv s) {bit : Access} {a : Nat} {actor : String}
    (hs : togglePort bit a actor s = .ok t) : Inv t := by
  unfold Machine.togglePort at hs
  split at hs
  · rename_i ha; cases hs; exact h.toggle ha bit actor
  · cases hs

/-- A device that registration admits is well formed when its buffer lists nothing. -/
theorem Device.Wf.of_registrable {p : Params} {d : Device} (hr : d.registrable p.memoryStart = true)
    (hb : d.buffer = []) : d.Wf p where
  registrable := hr
  rising := hb ▸ List.Pairwise.nil
  inBuffer c hc := by rw [hb] at hc; cases hc

theorem Inv.registerDevice {s t : State} (h : Inv s) {d : Device} (hb : d.buffer = [])
    (hs : registerDevice d s = .ok t) : Inv t := by
  unfold Machine.registerDevice at hs
  split at hs
  · rename_i hr
    cases hs
    refine { h with devicesWf := fun e he => ?_ }
    rcases List.mem_append.1 he with he | he
    · exact h.devicesWf e he
    · obtain rfl := List.mem_singleton.1 he
      exact .of_registrable hr hb
  · cases hs

theorem Inv.registerDevices {ds : List Device} : ∀ {s t : State}, Inv s → (∀ d ∈ ds, d.buffer = []) →
    registerDevices ds s = .ok t → Inv t := by
  induction ds with
  | nil => intro s t h _ hs; cases hs; exact h
  | cons d ds ih =>
    intro s t h hb hs
    obtain ⟨u, hd, hds⟩ := bind_ok hs
    exact ih (h.registerDevice (hb d (by simp)) hd) (fun e he => hb e (by simp [he])) hds

theorem Inv.loadBinary {s t : State} (h : Inv s) {a : Nat} {bin : List Byte} {src : String}
    (hs : loadBinary a bin src s = .ok t) : Inv t := by
  unfold Machine.loadBinary at hs
  split at hs
  · cases hs; exact h
  · split at hs
    · rename_i hr
      split at hs
      · cases hs
      · cases hs
        simp only [State.arrayRangeOk, decide_eq_true_eq] at hr
        refine h.storeBytes src fun x h1 h2 => ?_
        simp only [State.inArray, decide_eq_true_eq]
        omega
    · cases hs

theorem inv_fetchClosed : FetchClosed fun s t => Inv s → Inv t where
  refl _ := id
  trans _ _ _ h g := g ∘ h
  land _ := Inv.land
  fill _ _ e hva h := h.fillTlb hva e

theorem Inv.fetch {s t : State} (h : Inv s) {a : Nat} {x : Instr × Word} (hf : fetch a s = .ok (x, t)) : Inv t := by
  have hrel := fetch_rel inv_fetchClosed a s
  rw [hf] at hrel
  exact hrel h

/-- Each step of the boot order keeps the invariant (70_reset_and_hazards.md R344). -/
theorem inv_boot {p : Params} (hp : p.Ok) {ds : List Device} (hb : ∀ d ∈ ds, d.buffer = []) {load : Nat}
    {bin : List Byte} {src : String} {priv : Bool} {vmr : Word} {entry : Nat} {t : State}
    (h : boot p ds load bin src priv vmr entry = .ok t) : Inv t := by
  rw [boot, constructUnit_newBus, ok_bind] at h
  obtain ⟨withDevices, hdev, h⟩ := bind_ok h
  obtain ⟨loaded, hload, h⟩ := bind_ok h
  have hloaded : Inv loaded := ((inv_constructed hp).registerDevices hb hdev).loadBinary hload
  have hset : Inv (setVMR vmr (setPrivileged priv loaded)) := hloaded.congr rfl rfl rfl rfl rfl rfl
  exact (hset.act .flush).setupCore h

/-- Settles O49: every port is one of the operations that keep the invariant, a fetch by `fetch_rel`, and a unit on a new
bus lists nothing. -/
theorem portsKeepInvariant : Obligations.PortsKeepInvariant := by
  unfold Obligations.PortsKeepInvariant
  intro s h
  refine ⟨fun i0 => ?reset, fun i0 t hs => h.setupCore hs, fun v => ?vmr, fun b => ?priv, fun v => h.act (.signal v),
    h.act .flush, fun a n v src t hs => h.busWrite hs, fun bit a actor t hs => h.togglePort hs,
    fun d t hb hs => h.registerDevice hb hs, fun a bin src t hs => h.loadBinary hs, fun a x t hs => h.fetch hs,
    ⟨_, constructUnit_newBus s.params, inv_constructed h.params⟩,
    fun ds load bin src priv vmr entry t hb hs => inv_boot h.params hb hs⟩
  all_goals exact h.congr rfl rfl rfl rfl rfl rfl

end Sys2Proof.Machine

namespace Sys2Proof.Machine

/-! ## What a completing instruction writes of the registers and of IVR (O53, O56) -/

/-- Every register but those of a list, and IVR, as before. -/
structure Frame (ds : List Reg) (s t : State) : Prop where
  regs : RegsExcept s t ds
  ivr  : t.ivr = s.ivr

namespace Frame
variable {ds : List Reg} {s t u : State}

theorem refl (ds : List Reg) (s : State) : Frame ds s s := ⟨fun _ _ => rfl, rfl⟩

theorem trans (h : Frame ds s t) (g : Frame ds t u) : Frame ds s u :=
  ⟨fun q hq => (g.regs q hq).trans (h.regs q hq), g.ivr.trans h.ivr⟩

/-- Registers and IVR are all a frame speaks of. -/
theorem congr (h : Frame ds s t) (hr : u.regs = t.regs) (hi : u.ivr = t.ivr) : Frame ds s u := by
  refine ⟨fun q hq => ?_, hi.trans h.ivr⟩
  rw [State.reg, hr]
  exact h.regs q hq

theorem setReg {r : Reg} (hr : r ∈ ds) (s : State) (v : Word) : Frame ds s (s.setReg r v) :=
  ⟨fun _ hq => s.reg_setReg_ne v fun e => hq (e ▸ hr), rfl⟩

/-- A register put back to what it held need not be listed. -/
theorem restore {r : Reg} (h : Frame (r :: ds) s t) : Frame ds s (t.setReg r (s.reg r)) := by
  refine ⟨fun q hq => ?_, h.ivr⟩
  rw [State.reg_setReg]
  split
  · rename_i e; rw [e]
  · rename_i e; exact h.regs q (by simp [e, hq])

theorem land (ds : List Reg) (s : State) : Frame ds s (land s) := ⟨fun q _ => land_reg s q, land_ivr s⟩

theorem memRead {a n : Nat} {v : Nat} (ds : List Reg) (h : memRead s a n = .ok (v, t)) : Frame ds s t := by
  obtain ⟨-, -, -, rfl⟩ := (memRead_ok_iff _ _ _ _ _).1 h
  exact land ds s

theorem memWrite {a n v : Nat} (ds : List Reg) (h : memWrite s a n v = .ok t) : Frame ds s t := by
  obtain ⟨-, -, -, rfl⟩ := (memWrite_ok_iff _ _ _ _ _).1 h
  exact (land ds s).trans ⟨fun q _ => written_reg _ _ _ _ _ q, written_ivr _ _ _ _ _⟩

theorem push {v : Word} (h : push s v = .ok t) : Frame [.S] s t :=
  (setReg (by simp) s _).trans (memWrite [.S] h)

theorem popInto {r : Reg} (h : popInto s r = .ok t) : Frame [r, .S] s t := by
  obtain ⟨-, u, rfl, rfl⟩ := popInto_ok h
  exact ((land _ s).trans (setReg (by simp) _ _)).trans (setReg (by simp) _ _)

theorem callTo {v : Word} (h : callTo s v = .ok t) : Frame [.S] s t := by
  obtain ⟨u, hu, ht⟩ := bind_ok h
  cases ht
  exact (push hu).congr rfl rfl

/-- The body of a fetched INT, which pushes no FLAGS. -/
theorem enterHandler {v : Word} (h : enterHandler false v s = .ok t) : Frame [.S] s t := by
  obtain ⟨u, hu, ht⟩ := bind_ok h
  cases hu
  obtain ⟨⟨x, w⟩, hw, ht⟩ := bind_ok ht
  exact (memRead _ hw).trans (callTo ht)

/-- Both pops of HIRET go through A, which is restored (43_system.md R233). -/
theorem returnFromInterrupt {f : FlagBits} (h : returnFromInterrupt s = .ok (t, f)) : Frame [.S] s t := by
  obtain ⟨u, hu, h⟩ := bind_ok h
  obtain ⟨w, hw, h⟩ := bind_ok h
  cases h
  exact ((popInto hu).trans (popInto hw)).restore.congr rfl rfl

end Frame

/-- What a completing instruction's rule answered before the commit (40_step_and_fetch.md R157). -/
theorem commit_next {x : Except Fault (State × FlagBits)} {t : State} (h : commit x = .next t) :
    ∃ u f, x = .ok (u, f) ∧ t = u.setFlags f := by
  cases x with
  | ok p => cases h; exact ⟨p.1, p.2, rfl, rfl⟩
  | error r => cases h

theorem commitZero_next {x : Except Fault State} {t : State} (h : commitZero x = .next t) :
    ∃ u, x = .ok u ∧ t = u.setFlags 0 := by
  cases x with
  | ok u => cases h; exact ⟨u, rfl, rfl⟩
  | error r => cases h

section
variable {ds : List Reg} {s t : State}

/-- The commit of FLAGS keeps the frame of an instruction's rule. -/
theorem Frame.commit {x : Except Fault (State × FlagBits)} (h : commit x = .next t)
    (hx : ∀ u f, x = .ok (u, f) → Frame ds s u) : Frame ds s t := by
  obtain ⟨u, f, hu, rfl⟩ := commit_next h
  exact (hx u f hu).congr rfl rfl

theorem Frame.commitZero {x : Except Fault State} (h : commitZero x = .next t)
    (hx : ∀ u, x = .ok u → Frame ds s u) : Frame ds s t := by
  obtain ⟨u, hu, rfl⟩ := commitZero_next h
  exact (hx u hu).congr rfl rfl

theorem dataOp_frame {f : Word → Word → Word} {o : Operand} {d : Reg} (h : dataOp f o d s = .next t) :
    Frame [d] s t :=
  .commitZero h fun u hu => by cases hu; exact .setReg (by simp) s _

theorem compareOp_frame {o : Operand} {d : Reg} (h : compareOp o d s = .next t) : Frame [] s t :=
  .commit h fun u f hu => by cases hu; exact .refl [] s

theorem setReg_A_B_frame (s : State) (x y : Word) : Frame [.A, .B] s ((s.setReg .A x).setReg .B y) :=
  (Frame.setReg (by simp) s _).trans (.setReg (by simp) _ _)

theorem multiplyOp_frame {o : Operand} {d : Reg} (h : multiplyOp o d s = .next t) : Frame [.A, .B] s t := by
  cases h; exact (setReg_A_B_frame s _ _).congr rfl rfl

theorem divideOp_frame {o : Operand} {d : Reg} (h : divideOp o d s = .next t) : Frame [.A, .B] s t :=
  .commitZero h fun u hu => by split at hu <;> cases hu; exact setReg_A_B_frame s _ _

theorem jumpOp_frame {m : FlagBits} {o : Operand} (h : jumpOp m o s = .next t) : Frame [] s t :=
  .commitZero h fun u hu => by cases hu; split <;> exact (Frame.refl [] s).congr rfl rfl

theorem jumpRelativeOp_frame {m : FlagBits} {o : Operand} (h : jumpRelativeOp m o s = .next t) : Frame [] s t :=
  .commitZero h fun u hu => by cases hu; split <;> exact (Frame.refl [] s).congr rfl rfl

theorem softwareInt_frame {o : Operand} (h : softwareInt o s = .next t) : Frame [.S] s t :=
  .commitZero h fun u hu => by
    split at hu
    · exact .enterHandler hu
    · cases hu; exact .refl _ s

theorem loadOp_frame {w : BitVec 4} {o : Operand} {d : Reg} (h : loadOp w o d s = .next t) : Frame [d] s t :=
  .commitZero h fun u hu => by
    obtain ⟨⟨v, r⟩, hr, hu⟩ := bind_ok hu
    cases hu
    exact (Frame.memRead _ hr).trans (.setReg (by simp) _ _)

theorem execRet_frame (h : execRet s = .next t) : Frame [.S] s t :=
  .commitZero h fun u hu => by
    obtain ⟨⟨v, r⟩, hr, hu⟩ := bind_ok hu
    cases hu
    have hdec : Frame [.S] r (r.setReg .S (r.reg .S - 4)) := .setReg (by simp) r _
    exact ((Frame.memRead [.S] hr).trans hdec).congr rfl rfl

/-- SFSTOR reads through A and restores it, whether or not it stores (43_system.md R236). -/
theorem conditionalStore_frame {m : FlagBits} {o : Operand} (h : conditionalStore m o s = .next t) :
    Frame [] s t := by
  rw [conditionalStore_eq] at h
  refine .commit h fun u f hu => ?_
  obtain ⟨⟨v, r⟩, hr, hu⟩ := bind_ok hu
  obtain ⟨w, hw, hu⟩ := bind_ok hu
  cases hu
  have hread : Frame [.A] s (r.setReg .A (BitVec.ofNat 32 v)) :=
    (Frame.memRead _ hr).trans (.setReg (by simp) _ _)
  refine (hread.trans ?_).restore
  split at hw
  · exact .memWrite _ hw
  · cases hw; exact .refl _ _

end

/-- A completing instruction changes no register but its destinations, and leaves IVR, unless it is SIVR, which writes IVR
and no register. -/
theorem exec_frame {i : Instr} {s t : State} (h : exec i s = .next t) :
    Frame (destinations i) s t ∨ ∃ r, i = .sivrReg r ∧ RegsExcept s t [] := by
  cases i
  case sivrReg r => cases h; exact .inr ⟨r, rfl, fun _ _ => rfl⟩
  all_goals left
  case movReg r d => exact dataOp_frame (f := fun _ src => src) (o := .reg r) h
  case movImm v d => exact dataOp_frame (f := fun _ src => src) (o := .imm v) h
  case addReg | subReg | andReg | orReg | xorReg | shlReg | shrReg => exact dataOp_frame h
  case addImm | subImm | andImm | orImm | xorImm | shlImm | shrImm => exact dataOp_frame h
  case cmpReg | cmpImm => exact compareOp_frame h
  case mulReg | mulImm => exact multiplyOp_frame h
  case divReg | divImm => exact divideOp_frame h
  case notReg r => cases h; exact (Frame.setReg (List.mem_singleton.2 rfl) s _).congr rfl rfl
  case callReg | callImm => exact .commitZero h fun _ => .callTo
  case pushReg | pushImm => exact .commitZero h fun _ => .push
  case popReg => exact .commitZero h fun _ => .popInto
  case intReg | intImm => exact softwareInt_frame h
  case jmpReg | jmpImm => exact jumpOp_frame h
  case jmprReg | jmprImm => exact jumpRelativeOp_frame h
  case sfstorReg | sfstorImm => exact conditionalStore_frame h
  case memrRegReg | memrImmReg => exact loadOp_frame h
  case memwRegReg | memwImmReg | memwRegImm | memwImmImm => exact .commitZero h fun _ => .memWrite _
  case ret => exact execRet_frame h
  case hiret => exact .commit h fun _ _ => .returnFromInterrupt
  case acti | dacti | nop => cases h; exact (Frame.refl [] s).congr rfl rfl

/-- Settles O53, from the frame of each instruction; for SIVR the list is empty. -/
theorem registersOutsideDestinationsKeep : Obligations.RegistersOutsideDestinationsKeep := by
  unfold Obligations.RegistersOutsideDestinationsKeep
  intro i s t h
  rcases exec_frame h with hf | ⟨r, rfl, hregs⟩
  · exact hf.regs
  · exact hregs

/-! ## The other control registers: relations every instruction or step keeps (O56) -/

theorem keepsIe_closed : ExecClosed fun s t => t.ie = s.ie where
  refl _ := rfl
  trans _ _ _ h g := g.trans h
  land := land_ie
  write s t a n v h := by
    obtain ⟨-, -, -, rfl⟩ := (busWrite_ok_iff _ _ _ _ _ _).1 h
    exact written_ie _ _ _ _ _
  reg _ _ _ := rfl
  pc _ _ := rfl
  flags _ _ := rfl
  ivr _ _ := rfl

/-- A quiet unit stays quiet and keeps PEND; a pending vector stays whatever the other agents do. -/
structure KeepsPend (s t : State) : Prop where
  quiet   : s.Quiet → t.Quiet ∧ t.pend = s.pend
  pending : ∀ v, s.pend = some v → t.pend = some v

theorem KeepsPend.of_fields {s t : State} (ha : t.agenda = s.agenda) (hp : t.pend = s.pend) : KeepsPend s t :=
  ⟨fun hq => ⟨ha.trans hq, hp⟩, fun _ hv => hp.trans hv⟩

theorem KeepsPend.land (s : State) : KeepsPend s (land s) where
  quiet hq := by rw [land_quiet hq]; exact ⟨hq, rfl⟩
  pending v hv := by
    rcases (land_unit s).2.1 with hp | ⟨hp, -⟩
    · exact hp.trans hv
    · rw [hv] at hp; cases hp

theorem keepsPend_closed : ExecClosed KeepsPend where
  refl _ := .of_fields rfl rfl
  trans _ _ _ h g :=
    ⟨fun hq => have ⟨hq', hp⟩ := h.quiet hq; have ⟨hq'', hp'⟩ := g.quiet hq'; ⟨hq'', hp'.trans hp⟩,
      fun v hv => g.pending v (h.pending v hv)⟩
  land := .land
  write s t a n v h := by
    obtain ⟨-, -, -, rfl⟩ := (busWrite_ok_iff _ _ _ _ _ _).1 h
    exact .of_fields (written_agenda _ _ _ _ _) (written_pend _ _ _ _ _)
  reg _ _ _ := .of_fields rfl rfl
  pc _ _ := .of_fields rfl rfl
  flags _ _ := .of_fields rfl rfl
  ivr _ _ := .of_fields rfl rfl

theorem exec_keepsPend {i : Instr} {s t : State} (h : exec i s = .next t) : KeepsPend s t := by
  have hrel := exec_result keepsPend_closed i (fun _ _ _ => .of_fields rfl rfl) s
  rwa [h] at hrel

theorem exec_ie {i : Instr} {s t : State} (h : exec i s = .next t) (hi : ¬(i = .acti ∨ i = .dacti ∨ i = .hiret)) :
    t.ie = s.ie := by
  have hrel := exec_result keepsIe_closed i (fun hie => absurd hie hi) s
  rwa [h] at hrel

/-- VMR, PRIV and the parameters as before. -/
structure KeepsMode (s t : State) : Prop where
  vmr    : t.vmr = s.vmr
  priv   : t.priv = s.priv
  params : t.params = s.params

theorem keepsMode_closed : StepClosed KeepsMode where
  refl _ := ⟨rfl, rfl, rfl⟩
  trans _ _ _ h g := ⟨g.vmr.trans h.vmr, g.priv.trans h.priv, g.params.trans h.params⟩
  land s := ⟨land_vmr s, land_priv s, land_params s⟩
  write s t a n v h := by
    obtain ⟨-, -, -, rfl⟩ := (busWrite_ok_iff _ _ _ _ _ _).1 h
    exact ⟨written_vmr _ _ _ _ _, written_priv _ _ _ _ _, written_params _ _ _ _ _⟩
  reg _ _ _ := ⟨rfl, rfl, rfl⟩
  pc _ _ := ⟨rfl, rfl, rfl⟩
  flags _ _ := ⟨rfl, rfl, rfl⟩
  ivr _ _ := ⟨rfl, rfl, rfl⟩
  ie _ _ := ⟨rfl, rfl, rfl⟩
  pend _ _ := ⟨rfl, rfl, rfl⟩
  fill _ _ _ _ := ⟨rfl, rfl, rfl⟩

/-- Settles O56: IVR by the frame of each instruction, IE and PEND by relations every instruction keeps, VMR, PRIV and the
parameters by one every step keeps. -/
theorem controlRegistersChangeOnlyByTheirInstructions :
    Obligations.ControlRegistersChangeOnlyByTheirInstructions := by
  unfold Obligations.ControlRegistersChangeOnlyByTheirInstructions
  refine ⟨fun i s t h => ⟨fun hie => ?ie, fun hivr => ?ivr, ?quiet, ?pending⟩, fun s t h => ?next, fun s r h => ?fault⟩
  case ie =>
    by_contra hi
    exact hie (exec_ie h hi)
  case ivr =>
    rcases exec_frame h with hf | ⟨r, rfl, -⟩
    · exact absurd hf.ivr hivr
    · exact ⟨r, rfl⟩
  case quiet => exact fun hq => ((exec_keepsPend h).quiet hq).2
  case pending => exact (exec_keepsPend h).pending
  all_goals
    have hrel := step_result keepsMode_closed s
    rw [h] at hrel
    exact ⟨hrel.vmr, hrel.priv, hrel.params⟩

end Sys2Proof.Machine

namespace Sys2Proof.Machine

/-! ## Runs that differ in VMR, PRIV and the TLB alone (O59)

A relation between two states that differ in the fields of address translation at most is kept by every data access, every
instruction and the interrupt check, and, while translation is off, by fetch and step. -/

/-- The state with other fields of address translation: VMR, PRIV and the TLB (20_memory.md R70, R74, R77). -/
def State.retranslate (vmr : Word) (priv : Bool) (tlb : List (Nat × TlbEntry)) (s : State) : State :=
  ((s.setVmr vmr).setPriv priv).setTlb tlb

section
variable (vmr : Word) (priv : Bool) (tlb : List (Nat × TlbEntry)) (s : State)

theorem firstDenied_retranslate (kind : Access) (a n : Nat) :
    (s.retranslate vmr priv tlb).firstDenied kind a n = s.firstDenied kind a n := by
  induction n generalizing a with
  | zero => rfl
  | succ n ih => rw [State.firstDenied, ih]; rfl

theorem bytesAt_retranslate (a n : Nat) : (s.retranslate vmr priv tlb).bytesAt a n = s.bytesAt a n :=
  bytesAt_congr_mem (s := s) (t := s.retranslate vmr priv tlb) rfl a n

theorem storeBytes_retranslate (src : String) (bs : List Byte) (a : Nat) :
    (s.retranslate vmr priv tlb).storeBytes src a bs = (s.storeBytes src a bs).retranslate vmr priv tlb := by
  induction bs generalizing s a with
  | nil => rfl
  | cons b rest ih => exact ih ((s.setByte a b).setTag a src) (a + 1)

end

/-! ### Related results -/

/-- Two results that differ in their states alone, related by `R`: both answer values related by `V`, or both raise the
same fault. -/
inductive SimResult (R : State → State → Prop) {α : Type} (V : α → α → Prop) : Except Fault α → Except Fault α → Prop
  | ok {a b : α} (h : V a b) : SimResult R V (.ok a) (.ok b)
  | error {r : Fault} {t : State} (h : R r.left t) : SimResult R V (.error r) (.error (r.mapLeft fun _ => t))

/-- The same for the outcomes of an instruction or a step. -/
inductive SimOutcome (R : State → State → Prop) :
    Host.Outcome State Fault Refusal → Host.Outcome State Fault Refusal → Prop
  | next {s t : State} (h : R s t) : SimOutcome R (.next s) (.next t)
  | fault {r : Fault} {t : State} (h : R r.left t) : SimOutcome R (.fault r) (.fault (r.mapLeft fun _ => t))
  | refused (x : Refusal) : SimOutcome R (.refused x) (.refused x)

/-- Equal values with related states. -/
def SimAnswer (R : State → State → Prop) {α : Type} (p q : α × State) : Prop := q.1 = p.1 ∧ R p.2 q.2

theorem SimResult.bind {R : State → State → Prop} {α β : Type} {V : α → α → Prop} {W : β → β → Prop}
    {x y : Except Fault α} {f g : α → Except Fault β} (h : SimResult R V x y)
    (k : ∀ a b, V a b → SimResult R W (f a) (g b)) : SimResult R W (x >>= f) (y >>= g) := by
  cases h with
  | ok h => exact k _ _ h
  | error h => exact .error h

/-- After an operation that answers a value and a state, the rest runs on the same value and on related states. -/
theorem SimResult.bindAnswer {R : State → State → Prop} {α β : Type} {W : β → β → Prop} {x y : Except Fault (α × State)}
    {f g : α × State → Except Fault β} (h : SimResult R (SimAnswer R) x y)
    (k : ∀ v s t, R s t → SimResult R W (f (v, s)) (g (v, t))) : SimResult R W (x >>= f) (y >>= g) := by
  refine h.bind ?_
  rintro ⟨v, s⟩ ⟨w, t⟩ ⟨rfl, ht⟩
  exact k _ _ _ ht

theorem SimResult.ite {R : State → State → Prop} {α : Type} {V : α → α → Prop} {x y x' y' : Except Fault α} {p : Prop}
    [Decidable p] (h : SimResult R V x y) (h' : SimResult R V x' y') :
    SimResult R V (if p then x else x') (if p then y else y') := by
  split
  · exact h
  · exact h'

theorem mapLeft_const (f : State → State) (r : Fault) : r.mapLeft (fun _ => f r.left) = r.mapLeft f := by
  cases r <;> rfl

/-- Where related states are a state and its image under a map, so are related outcomes. -/
theorem SimOutcome.eq_mapOutcome {R : State → State → Prop} {f : State → State}
    {x y : Host.Outcome State Fault Refusal} (h : SimOutcome R x y) (hf : ∀ s t, R s t → t = f s) :
    y = mapOutcome f x := by
  cases h with
  | next h => rw [hf _ _ h]; rfl
  | fault h => rw [hf _ _ h, mapLeft_const]; rfl
  | refused => rfl

/-! ### Data accesses -/

/-- A relation that reads of two states only their fields of address translation and the agenda, and asks that nothing
else differs. -/
structure TranslationSim (R : State → State → Prop) : Prop where
  only   : ∀ {s t}, R s t → ∃ vmr priv tlb, t = s.retranslate vmr priv tlb
  update : ∀ {s u vmr priv tlb}, R s (s.retranslate vmr priv tlb) → u.vmr = s.vmr → u.priv = s.priv → u.tlb = s.tlb →
    u.agenda = s.agenda → R u (u.retranslate vmr priv tlb)

namespace TranslationSim
variable {R : State → State → Prop} (c : TranslationSim R) {s t : State} (h : R s t)
include c h

theorem reg (q : Reg) : t.reg q = s.reg q := by obtain ⟨_, _, _, rfl⟩ := c.only h; rfl
theorem pc : t.pc = s.pc := by obtain ⟨_, _, _, rfl⟩ := c.only h; rfl
theorem flags : t.flags = s.flags := by obtain ⟨_, _, _, rfl⟩ := c.only h; rfl
theorem ie : t.ie = s.ie := by obtain ⟨_, _, _, rfl⟩ := c.only h; rfl
theorem pend : t.pend = s.pend := by obtain ⟨_, _, _, rfl⟩ := c.only h; rfl
theorem ivr : t.ivr = s.ivr := by obtain ⟨_, _, _, rfl⟩ := c.only h; rfl
theorem params : t.params = s.params := by obtain ⟨_, _, _, rfl⟩ := c.only h; rfl
theorem value (o : Operand) : o.value t = o.value s := by
  cases o with
  | reg r => exact c.reg h r
  | imm v => rfl

theorem setReg (q : Reg) (v : Word) : R (s.setReg q v) (t.setReg q v) := by
  obtain ⟨_, _, _, rfl⟩ := c.only h; exact c.update (u := s.setReg q v) h rfl rfl rfl rfl
theorem setPc (v : Word) : R (s.setPc v) (t.setPc v) := by
  obtain ⟨_, _, _, rfl⟩ := c.only h; exact c.update (u := s.setPc v) h rfl rfl rfl rfl
theorem setFlags (v : FlagBits) : R (s.setFlags v) (t.setFlags v) := by
  obtain ⟨_, _, _, rfl⟩ := c.only h; exact c.update (u := s.setFlags v) h rfl rfl rfl rfl
theorem setIe (v : Bool) : R (s.setIe v) (t.setIe v) := by
  obtain ⟨_, _, _, rfl⟩ := c.only h; exact c.update (u := s.setIe v) h rfl rfl rfl rfl
theorem setPend (v : Option Word) : R (s.setPend v) (t.setPend v) := by
  obtain ⟨_, _, _, rfl⟩ := c.only h; exact c.update (u := s.setPend v) h rfl rfl rfl rfl
theorem setIvr (v : Word) : R (s.setIvr v) (t.setIvr v) := by
  obtain ⟨_, _, _, rfl⟩ := c.only h; exact c.update (u := s.setIvr v) h rfl rfl rfl rfl
theorem setDevices (v : List Device) : R (s.setDevices v) (t.setDevices v) := by
  obtain ⟨_, _, _, rfl⟩ := c.only h; exact c.update (u := s.setDevices v) h rfl rfl rfl rfl
theorem storeBytes (src : String) (a : Nat) (bs : List Byte) : R (s.storeBytes src a bs) (t.storeBytes src a bs) := by
  obtain ⟨_, _, _, rfl⟩ := c.only h
  rw [storeBytes_retranslate]
  obtain ⟨m, g, e⟩ := storeBytes_fields src bs s a
  rw [e]
  exact c.update (u := (s.setMem m).setTags g) h rfl rfl rfl rfl

theorem busRead (a n : Nat) : SimResult R Eq (busRead s a n) (busRead t a n) := by
  obtain ⟨vmr, priv, tlb, rfl⟩ := c.only h
  have hroute : routeDevice (s.retranslate vmr priv tlb).devices a = routeDevice s.devices a := rfl
  unfold Machine.busRead
  rw [firstDenied_retranslate, bytesAt_retranslate, hroute]
  refine .ite (.error h) (.ite ?device (.ite ?cells (.error h)))
  case device =>
    cases routeDevice s.devices a with
    | none => exact .error h
    | some d => exact .ite (.ok rfl) (.error h)
  case cells =>
    cases s.firstDenied .read a n with
    | some p => exact .error h
    | none => exact .ok rfl

theorem busWrite (a n v : Nat) (src : String) : SimResult R R (busWrite s a n v src) (busWrite t a n v src) := by
  obtain ⟨vmr, priv, tlb, rfl⟩ := c.only h
  have hroute : routeDevice (s.retranslate vmr priv tlb).devices a = routeDevice s.devices a := rfl
  unfold Machine.busWrite
  rw [firstDenied_retranslate, hroute]
  refine .ite (.error h) (.ite ?device (.ite ?cells (.error h)))
  case device =>
    cases routeDevice s.devices a with
    | none => exact .error h
    | some d => exact .ite (.ok (c.setDevices h _)) (.error h)
  case cells =>
    cases s.firstDenied .write a n with
    | some p => exact .error h
    | none => exact .ok (c.storeBytes h _ _ _)

end TranslationSim

/-! ### Instructions and the interrupt check -/

/-- A relation of data accesses that holds across landing points too. -/
structure SimClosed (R : State → State → Prop) : Prop extends TranslationSim R where
  land : ∀ {s t}, R s t → R (land s) (land t)

section
variable {R : State → State → Prop} (c : SimClosed R) {s t : State}
include c

theorem commitZero_sim {x y : Except Fault State} (h : SimResult R R x y) :
    SimOutcome R (commitZero x) (commitZero y) := by
  cases h with
  | ok h => exact .next (c.setFlags h 0)
  | error h => exact .fault h

/-- Equal FLAGS values with related states. -/
theorem commit_sim {x y : Except Fault (State × FlagBits)}
    (h : SimResult R (fun p q => R p.1 q.1 ∧ q.2 = p.2) x y) : SimOutcome R (commit x) (commit y) := by
  cases h with
  | @ok p q h =>
    obtain ⟨hr, hf⟩ := h
    show SimOutcome R (.next (p.1.setFlags p.2)) (.next (q.1.setFlags q.2))
    rw [hf]
    exact .next (c.setFlags hr _)
  | error h => exact .fault h

variable (h : R s t)
include h

theorem memRead_sim (a n : Nat) : SimResult R (SimAnswer R) (memRead s a n) (memRead t a n) := by
  refine (c.busRead (c.land h) a n).bind ?_
  rintro v w rfl
  exact .ok ⟨rfl, c.land h⟩

theorem memWrite_sim (a n v : Nat) : SimResult R R (memWrite s a n v) (memWrite t a n v) := by
  unfold memWrite
  rw [c.params h]
  exact c.busWrite (c.land h) _ _ _ _

theorem push_sim (v : Word) : SimResult R R (push s v) (push t v) := by
  unfold push
  rw [c.reg h]
  simp only [State.reg_setReg_same]
  exact memWrite_sim c (c.setReg h _ _) _ _ _

theorem popInto_sim (r : Reg) : SimResult R R (popInto s r) (popInto t r) := by
  unfold popInto
  rw [c.reg h]
  refine (memRead_sim c h _ _).bindAnswer fun v s t h => ?_
  have hw := c.setReg h r (BitVec.ofNat 32 v)
  simp only [c.reg hw]
  exact .ok (c.setReg hw _ _)

theorem callTo_sim (v : Word) : SimResult R R (callTo s v) (callTo t v) := by
  unfold callTo
  rw [c.pc h]
  exact (push_sim c h _).bind fun s t h => .ok (c.setPc h v)

/-- The part of INT after the push of FLAGS: read the vector and call the handler (43_system.md R231). -/
theorem enterHandler_false_sim (v : Word) : SimResult R R (enterHandler false v s) (enterHandler false v t) := by
  have hva : vectorAddress t v = vectorAddress s v := by rw [vectorAddress, vectorAddress, c.ivr h]
  show SimResult R R (memRead s (vectorAddress s v) 4 >>= fun p => callTo p.2 (BitVec.ofNat 32 p.1))
    (memRead t (vectorAddress t v) 4 >>= fun p => callTo p.2 (BitVec.ofNat 32 p.1))
  rw [hva]
  exact (memRead_sim c h _ _).bindAnswer fun x s t h => callTo_sim c h _

theorem enterHandler_sim (hw : Bool) (v : Word) : SimResult R R (enterHandler hw v s) (enterHandler hw v t) := by
  cases hw with
  | false => exact enterHandler_false_sim c h v
  | true =>
    show SimResult R R (push s (s.flags.zeroExtend 32) >>= enterHandler false v)
      (push t (t.flags.zeroExtend 32) >>= enterHandler false v)
    rw [c.flags h]
    exact (push_sim c h _).bind fun s t h => enterHandler_false_sim c h v

theorem interruptCheck_sim : SimResult R R (interruptCheck s) (interruptCheck t) := by
  have hl := c.land h
  unfold interruptCheck
  simp only [c.pend hl, c.ie hl]
  cases (land s).pend with
  | none => exact .ok hl
  | some v =>
    refine .ite ?_ (.ok hl)
    exact (enterHandler_sim c (c.setIe hl false) true v).bind fun s t h => .ok (c.setPend (c.setFlags h 0) none)

theorem returnFromInterrupt_sim :
    SimResult R (fun p q => R p.1 q.1 ∧ q.2 = p.2) (returnFromInterrupt s) (returnFromInterrupt t) := by
  unfold returnFromInterrupt
  rw [c.reg h]
  refine (popInto_sim c h .A).bind fun u w hu => (popInto_sim c hu .A).bind fun u' w' hu' => ?_
  simp only [c.reg hu, c.reg hu']
  exact .ok ⟨c.setIe (c.setFlags (c.setPc (c.setReg hu' _ _) _) _) _, rfl⟩

theorem dataOp_sim (f : Word → Word → Word) (o : Operand) (d : Reg) :
    SimOutcome R (dataOp f o d s) (dataOp f o d t) := by
  unfold dataOp
  rw [c.reg h, c.value h]
  exact commitZero_sim c (.ok (c.setReg h _ _))

theorem compareOp_sim (o : Operand) (d : Reg) : SimOutcome R (compareOp o d s) (compareOp o d t) := by
  unfold compareOp
  rw [c.reg h, c.value h]
  exact commit_sim c (.ok ⟨h, rfl⟩)

theorem multiplyOp_sim (o : Operand) (d : Reg) : SimOutcome R (multiplyOp o d s) (multiplyOp o d t) := by
  unfold multiplyOp
  rw [c.reg h, c.value h]
  exact commitZero_sim c (.ok (c.setReg (c.setReg h _ _) _ _))

theorem divideOp_sim (o : Operand) (d : Reg) : SimOutcome R (divideOp o d s) (divideOp o d t) := by
  unfold divideOp
  rw [c.reg h, c.value h]
  exact commitZero_sim c (.ite (.error h) (.ok (c.setReg (c.setReg h _ _) _ _)))

theorem jump_sim (p : Prop) [Decidable p] (v : Word) :
    SimOutcome R (commitZero (.ok (if p then s.setPc v else s))) (commitZero (.ok (if p then t.setPc v else t))) := by
  split
  · exact commitZero_sim c (.ok (c.setPc h v))
  · exact commitZero_sim c (.ok h)

theorem jumpOp_sim (m : FlagBits) (o : Operand) : SimOutcome R (jumpOp m o s) (jumpOp m o t) := by
  unfold jumpOp
  rw [c.flags h, c.value h]
  exact jump_sim c h _ _

theorem jumpRelativeOp_sim (m : FlagBits) (o : Operand) :
    SimOutcome R (jumpRelativeOp m o s) (jumpRelativeOp m o t) := by
  unfold jumpRelativeOp Operand.signedValue
  rw [c.flags h, c.pc h, c.value h]
  exact jump_sim c h _ _

theorem callOp_sim (o : Operand) : SimOutcome R (callOp o s) (callOp o t) := by
  unfold callOp
  rw [c.value h]
  exact commitZero_sim c (callTo_sim c h _)

theorem pushOp_sim (o : Operand) : SimOutcome R (pushOp o s) (pushOp o t) := by
  unfold pushOp
  rw [c.value h]
  exact commitZero_sim c (push_sim c h _)

theorem execRet_sim : SimOutcome R (execRet s) (execRet t) := by
  unfold execRet
  rw [c.reg h]
  refine commitZero_sim c ((memRead_sim c h _ _).bindAnswer fun v s t h => ?_)
  simp only [c.reg h]
  exact .ok (c.setPc (c.setReg h _ _) _)

theorem loadOp_sim (w : BitVec 4) (o : Operand) (d : Reg) : SimOutcome R (loadOp w o d s) (loadOp w o d t) := by
  unfold loadOp
  rw [c.value h]
  exact commitZero_sim c ((memRead_sim c h _ _).bindAnswer fun v s t h => .ok (c.setReg h _ _))

theorem storeOp_sim (w : BitVec 4) (val addr : Operand) :
    SimOutcome R (storeOp w val addr s) (storeOp w val addr t) := by
  unfold storeOp
  rw [c.value h, c.value h]
  exact commitZero_sim c (memWrite_sim c h _ _ _)

theorem softwareInt_sim (o : Operand) : SimOutcome R (softwareInt o s) (softwareInt o t) := by
  unfold softwareInt
  rw [c.ie h, c.value h]
  exact commitZero_sim c (.ite (enterHandler_sim c h _ _) (.ok h))

theorem conditionalStore_sim (m : FlagBits) (o : Operand) :
    SimOutcome R (conditionalStore m o s) (conditionalStore m o t) := by
  rw [conditionalStore_eq, conditionalStore_eq, c.reg h, c.value h]
  refine commit_sim c ((memRead_sim c h _ _).bindAnswer fun v u w hu => ?_)
  have hs := c.setReg hu .A (BitVec.ofNat 32 v)
  refine SimResult.bind (V := R) (.ite (memWrite_sim c hs _ _ _) (.ok hs)) fun u' w' hu' => ?_
  exact .ok ⟨c.setReg hu' _ _, rfl⟩

/-- An instruction run in related states has related outcomes. -/
theorem exec_sim (i : Instr) : SimOutcome R (exec i s) (exec i t) := by
  cases i
  case movReg r d => exact dataOp_sim c h (fun _ src => src) (.reg r) d
  case movImm v d => exact dataOp_sim c h (fun _ src => src) (.imm v) d
  case addReg | subReg | andReg | orReg | xorReg | shlReg | shrReg => exact dataOp_sim c h _ _ _
  case addImm | subImm | andImm | orImm | xorImm | shlImm | shrImm => exact dataOp_sim c h _ _ _
  case cmpReg | cmpImm => exact compareOp_sim c h _ _
  case mulReg | mulImm => exact multiplyOp_sim c h _ _
  case divReg | divImm => exact divideOp_sim c h _ _
  case notReg r =>
    show SimOutcome R (execNotReg r s) (execNotReg r t)
    unfold execNotReg
    rw [c.reg h]
    exact commitZero_sim c (.ok (c.setReg h _ _))
  case sivrReg r =>
    show SimOutcome R (execSivrReg r s) (execSivrReg r t)
    unfold execSivrReg
    rw [c.reg h]
    exact commitZero_sim c (.ok (c.setIvr h _))
  case callReg | callImm => exact callOp_sim c h _
  case pushReg | pushImm => exact pushOp_sim c h _
  case popReg => exact commitZero_sim c (popInto_sim c h _)
  case intReg | intImm => exact softwareInt_sim c h _
  case jmpReg | jmpImm => exact jumpOp_sim c h _ _
  case jmprReg | jmprImm => exact jumpRelativeOp_sim c h _ _
  case sfstorReg | sfstorImm => exact conditionalStore_sim c h _ _
  case memrRegReg | memrImmReg => exact loadOp_sim c h _ _ _
  case memwRegReg | memwImmReg | memwRegImm | memwImmImm => exact storeOp_sim c h _ _ _
  case ret => exact execRet_sim c h
  case hiret => exact commit_sim c (returnFromInterrupt_sim c h)
  case acti | dacti => exact commitZero_sim c (.ok (c.setIe h _))
  case nop => exact commitZero_sim c (.ok h)

end

theorem thenInterruptCheck_sim {R : State → State → Prop} (c : SimClosed R) {x y : Host.Outcome State Fault Refusal}
    (h : SimOutcome R x y) : SimOutcome R (thenInterruptCheck x) (thenInterruptCheck y) := by
  cases h with
  | @next s t h =>
    have hc := interruptCheck_sim c h
    simp only [thenInterruptCheck]
    revert hc
    generalize interruptCheck s = x, interruptCheck t = y
    rintro (h | h)
    · exact .next h
    · exact .fault h
  | fault h => exact .fault h
  | refused x => exact .refused x

/-! ### Fetch and step while translation is off -/

section
variable {R : State → State → Prop} (c : SimClosed R) (off : ∀ {s t}, R s t → s.vmr = 0 ∧ t.vmr = 0) {s t : State}
  (h : R s t)
include c h

theorem fetchByte_sim (p : Nat) : SimResult R (SimAnswer R) (fetchByte s p) (fetchByte t p) := by
  have hl := c.land h
  unfold fetchByte
  obtain ⟨_, _, _, e⟩ := c.only hl
  have hin : (land t).inArray p = (land s).inArray p := by rw [e]; rfl
  have hx : (land t).permsAt p = (land s).permsAt p := by rw [e]; rfl
  have hb : (land t).byteAt p = (land s).byteAt p := by rw [e]; rfl
  simp only [hin, hx, hb]
  exact .ite (.error hl) (.ite (.error hl) (.ok ⟨rfl, hl⟩))

include off

theorem fetchBytes_sim (n a : Nat) : SimResult R (SimAnswer R) (fetchBytes n a s) (fetchBytes n a t) := by
  induction n generalizing a s t with
  | zero => exact .ok ⟨rfl, h⟩
  | succ n ih =>
    obtain ⟨hs, ht⟩ := off h
    rw [fetchBytes, fetchBytes, fetchAddress_physical hs, fetchAddress_physical ht, ok_bind, ok_bind]
    refine (fetchByte_sim c h a).bindAnswer fun b s t h => ?_
    exact (ih h (a + 1)).bindAnswer fun bs s t h => .ok ⟨rfl, h⟩

theorem fetch_sim (a : Nat) : SimResult R (SimAnswer R) (fetch a s) (fetch a t) := by
  unfold fetch
  obtain ⟨hs, ht⟩ := off h
  rw [fetchFirst_physical hs, fetchFirst_physical ht, c.params h]
  refine (fetchByte_sim c h a).bindAnswer fun b0 s1 t1 h1 => ?_
  dsimp only
  cases s.params.codec.formOf b0 with
  | none => exact .error h1
  | some F =>
    dsimp only
    obtain ⟨hs1, ht1⟩ := off h1
    rw [fetchRest_physical hs1, fetchRest_physical ht1]
    refine (fetchBytes_sim c off h1 _ _).bindAnswer fun bs s2 t2 h2 => ?_
    cases s.params.codec.decodeWord F b0 (beValue (b0 :: bs)) with
    | ok i => exact .ok ⟨rfl, h2⟩
    | error e => cases e <;> exact .error h2

/-- With translation off, steps from related states have related outcomes. -/
theorem step_sim : SimOutcome R (step s) (step t) := by
  have hf := fetch_sim c off h s.pc.toNat
  unfold step
  rw [c.pc h]
  revert hf
  generalize fetch s.pc.toNat s = x, fetch s.pc.toNat t = y
  intro hf
  cases hf with
  | @ok p q h1 =>
    obtain ⟨⟨i, next⟩, s1⟩ := p
    obtain ⟨_, t1⟩ := q
    obtain ⟨rfl, h1⟩ := h1
    exact thenInterruptCheck_sim c (exec_sim c (c.setPc h1 next) i)
  | error h1 => exact .fault h1

end

/-! ### States that differ in PRIV, and quiet states that differ in the TLB -/

/-- `t` is `s` with VMR and PRIV replaced. -/
def ModeReplaced (vmr : Word) (priv : Bool) (s t : State) : Prop := t = (s.setVmr vmr).setPriv priv

theorem modeReplaced_sim (vmr : Word) (priv : Bool) : TranslationSim (ModeReplaced vmr priv) where
  only {s t} h := ⟨vmr, priv, s.tlb, h⟩
  update {s u vmr' priv' tlb'} h _ _ ht _ := by
    have hv : vmr' = vmr := congrArg State.vmr h
    have hp : priv' = priv := congrArg State.priv h
    have hl : tlb' = s.tlb := congrArg State.tlb h
    rw [hv, hp, hl, ← ht]
    rfl

section
variable {vmr : Word} {priv : Bool} {s t : State}

theorem signal_modeReplaced (h : ModeReplaced vmr priv s t) (v : Word) :
    ModeReplaced vmr priv (s.signal v) (t.signal v) := by
  have c := modeReplaced_sim vmr priv
  unfold State.signal
  rw [c.ie h, c.pend h]
  split
  · exact c.setPend h _
  · exact h

/-- What another agent does depends on neither VMR nor PRIV of this unit, and changes neither. -/
theorem act_modeReplaced (h : ModeReplaced vmr priv s t) (x : AgentAct) :
    ModeReplaced vmr priv (act s x) (act t x) := by
  have c := modeReplaced_sim vmr priv
  cases x with
  | busWrite a n v src =>
    have hw := c.busWrite h a n v src
    simp only [act]
    revert hw
    generalize busWrite s a n v src = x, busWrite t a n v src = y
    intro hw
    cases hw with
    | ok hw => exact hw
    | error _ => exact h
  | tableWalk vmr' va =>
    have hr := c.busRead h (tableEntryAddress vmr' va) 2
    have hl : t.tlbLookup va = s.tlbLookup va := by cases h; rfl
    simp only [act, hl]
    split
    · revert hr
      generalize busRead s (tableEntryAddress vmr' va) 2 = x, busRead t (tableEntryAddress vmr' va) 2 = y
      intro hr
      cases hr with
      | ok e => cases e; cases h; rfl
      | error _ => exact h
    · exact h
  | signal v => exact signal_modeReplaced h v
  | deviceSignal k =>
    have hd : t.devices = s.devices := by cases h; rfl
    simp only [act, hd]
    cases s.devices[k]?.bind Device.irq with
    | some v => exact signal_modeReplaced h v
    | none => exact h
  | toggle bit a actor =>
    have hi : t.inArray a = s.inArray a := by cases h; rfl
    simp only [act, hi]
    split
    · cases h; rfl
    · exact h
  | flush => cases h; rfl
  | deviceStore k off b => cases h; rfl
  | tlbFill va e =>
    simp only [act]
    split
    · cases h; rfl
    · exact h

theorem acts_modeReplaced (acts : List AgentAct) (h : ModeReplaced vmr priv s t) :
    ModeReplaced vmr priv (acts.foldl act s) (acts.foldl act t) := by
  induction acts generalizing s t with
  | nil => exact h
  | cons x rest ih => exact ih (act_modeReplaced h x)

theorem land_modeReplaced (h : ModeReplaced vmr priv s t) : ModeReplaced vmr priv (land s) (land t) := by
  have ha : t.agenda = s.agenda := by cases h; rfl
  unfold land
  rw [ha]
  split
  · exact h
  · exact acts_modeReplaced _ (by cases h; rfl)

end

/-- Translation is off, and `t` is `s` with PRIV replaced. -/
def PrivReplaced (priv : Bool) (s t : State) : Prop := s.vmr = 0 ∧ t = s.setPriv priv

theorem privReplaced_iff {priv : Bool} {s t : State} :
    PrivReplaced priv s t ↔ s.vmr = 0 ∧ ModeReplaced 0 priv s t := by
  refine and_congr_right fun hv => ?_
  have hs : s.setVmr 0 = s := by rw [← hv]; rfl
  rw [ModeReplaced, hs]

theorem privReplaced_closed (priv : Bool) : SimClosed (PrivReplaced priv) where
  only h := (modeReplaced_sim 0 priv).only (privReplaced_iff.1 h).2
  update h hv hp ht ha := by
    obtain ⟨hs, hm⟩ := privReplaced_iff.1 h
    exact privReplaced_iff.2 ⟨hv.trans hs, (modeReplaced_sim 0 priv).update hm hv hp ht ha⟩
  land {s t} h := by
    obtain ⟨hs, hm⟩ := privReplaced_iff.1 h
    exact privReplaced_iff.2 ⟨(land_vmr s).trans hs, land_modeReplaced hm⟩

/-- Translation is off, no other agent acts, and `t` is `s` with the TLB replaced. -/
structure TlbReplaced (tlb : List (Nat × TlbEntry)) (s t : State) : Prop where
  off   : s.vmr = 0
  quiet : s.Quiet
  eq    : t = s.setTlb tlb

theorem tlbReplaced_closed (tlb : List (Nat × TlbEntry)) : SimClosed (TlbReplaced tlb) where
  only {s t} h := ⟨s.vmr, s.priv, tlb, h.eq⟩
  update {s u vmr priv tlb'} h hv hp _ ha := by
    refine ⟨hv.trans h.off, ha.trans h.quiet, ?_⟩
    have hv' : vmr = s.vmr := congrArg State.vmr h.eq
    have hp' : priv = s.priv := congrArg State.priv h.eq
    have ht' : tlb' = tlb := congrArg State.tlb h.eq
    rw [hv', hp', ht', ← hv, ← hp]
    rfl
  land {s t} h := by
    have hq : t.Quiet := by rw [h.eq]; exact h.quiet
    rw [land_quiet h.quiet, land_quiet hq]
    exact h

/-- Settles O59: a step keeps the relation between a state and its image, for PRIV whatever the other agents do, for the TLB
when nobody else acts. -/
theorem privMattersOnlyUnderTranslation : Obligations.PrivMattersOnlyUnderTranslation := by
  unfold Obligations.PrivMattersOnlyUnderTranslation
  refine fun s hv => ⟨fun p => ?priv, fun hq tlb => ?tlb⟩
  case priv =>
    have hstep := step_sim (privReplaced_closed p) (fun h => ⟨h.1, h.2 ▸ h.1⟩) (s := s) ⟨hv, rfl⟩
    exact hstep.eq_mapOutcome fun _ _ h => h.2
  case tlb =>
    have hstep := step_sim (tlbReplaced_closed tlb) (fun h => ⟨h.off, h.eq ▸ h.off⟩) (s := s) ⟨hv, hq, rfl⟩
    exact hstep.eq_mapOutcome fun _ _ h => h.eq

end Sys2Proof.Machine

namespace Sys2Proof.Machine

/-! ## The invariant through a step (O51) and at reset (O50) -/

/-- The invariant holds across everything a step is made of: landing points, TLB fills, the unit's writes to the bus, and
its writes to its own registers, of which the invariant says nothing. -/
theorem inv_stepClosed : StepClosed fun s t => Inv s → Inv t where
  refl _ := id
  trans _ _ _ h g := g ∘ h
  land _ := Inv.land
  write _ _ _ _ _ hw h := h.busWrite hw
  reg _ _ _ h := h.congr rfl rfl rfl rfl rfl rfl
  pc _ _ h := h.congr rfl rfl rfl rfl rfl rfl
  flags _ _ h := h.congr rfl rfl rfl rfl rfl rfl
  ivr _ _ h := h.congr rfl rfl rfl rfl rfl rfl
  ie _ _ h := h.congr rfl rfl rfl rfl rfl rfl
  pend _ _ h := h.congr rfl rfl rfl rfl rfl rfl
  fill _ _ e hva h := h.fillTlb hva e

/-- Settles O51: the invariant is one of the relations every step keeps. -/
theorem stepKeepsInvariant : Obligations.StepKeepsInvariant := by
  unfold Obligations.StepKeepsInvariant
  intro s hs
  have hrel := step_result inv_stepClosed s
  refine ⟨fun t h => ?next, fun r h => ?fault⟩
  all_goals
    rw [h] at hrel
    exact hrel hs

/-- The default parameters meet R8 of 00_scope.md, with the reference codec (92_eei_decisions.md D1 to D3). -/
theorem config_params_ok : Config.params.Ok where
  start_lt_end := by decide
  end_le := by decide
  codec := reference_ok

/-- Settles O50: the state after reset is a newly built unit but for I. -/
theorem resetMeetsInvariant : Obligations.ResetMeetsInvariant :=
  (inv_constructed config_params_ok).congr rfl rfl rfl rfl rfl rfl

end Sys2Proof.Machine

namespace Sys2Proof.Machine

/-! ## Bus transactions: the faults, and exact reads and writes (O42, O43) -/

section
variable {s : State} {kind : Access} {a n : Nat}

/-- Of an access that is not in the array and that no device serves, the fault is a BoundsError (20_memory.md R65, R84). -/
theorem accessFault_bounds (hn : 1 ≤ n) (hr : s.arrayRangeOk a n = false) (hd : ¬DeviceServes s a n) :
    AccessFault kind s a n (.bounds a n s) := by
  refine .inl ⟨fun ⟨h1, h2⟩ => ?_, hd, rfl⟩
  simp only [State.arrayRangeOk, decide_eq_false_iff_not] at hr
  omega

/-- Of an access in the array, the fault is at the lowest cell that denies it (20_memory.md R85). -/
theorem accessFault_permission {p : Nat} (hr : s.arrayRangeOk a n = true) (hp : s.firstDenied kind a n = some p) :
    AccessFault kind s a n (.permission p kind s) := by
  simp only [State.arrayRangeOk, decide_eq_true_eq] at hr
  obtain ⟨hap, hpn, hdenied, hlower⟩ := firstDenied_eq_some hp
  have hpa : a + (p - a) = p := by omega
  refine .inr ⟨hr.1, hr.2.2, p - a, by omega, ?_, fun j hj => hlower _ (by omega) (by omega), ?_⟩
  · rw [hpa]; exact hdenied
  · rw [hpa]

theorem arrayRangeOk_low (ha : a < s.params.memoryStart) : s.arrayRangeOk a n = false := by
  simp only [State.arrayRangeOk, decide_eq_false_iff_not]
  omega

theorem not_deviceServes_high (ha : ¬a < s.params.memoryStart) : ¬DeviceServes s a n := fun h => ha h.1

theorem not_deviceServes_unrouted (h : routeDevice s.devices a = none) : ¬DeviceServes s a n := by
  rintro ⟨-, d, hd, -⟩
  rw [h] at hd
  cases hd

/-- A device serves what its own bounds check accepts (20_memory.md R87). -/
theorem deviceServes_iff_accepts {d : Device} (hn : 1 ≤ n ∧ n ≤ 4) (ha : a < s.params.memoryStart)
    (hr : routeDevice s.devices a = some d) : DeviceServes s a n ↔ d.accepts s.params.bufferSizing a n = true := by
  simp only [DeviceServes, hr, Option.some.injEq, exists_eq_left', Device.accepts, decide_eq_true_eq]
  omega

/-- What reads and writes of a legal length and a value that fits share: routing, range and permissions, in that order
(20_memory.md R80, R81, R85), with what a device and the cells answer. -/
def checkedAccess {α : Type} (s : State) (kind : Access) (a n : Nat) (device : Device → α) (cells : α) :
    Except Fault α :=
  if a < s.params.memoryStart then
    match routeDevice s.devices a with
    | none => .error (.bounds a n s)
    | some d => if d.accepts s.params.bufferSizing a n then .ok (device d) else .error (.bounds a n s)
  else if s.arrayRangeOk a n then
    match s.firstDenied kind a n with
    | some p => .error (.permission p kind s)
    | none => .ok cells
  else .error (.bounds a n s)

theorem busRead_eq_checkedAccess (hn : 1 ≤ n ∧ n ≤ 4) : busRead s a n =
    checkedAccess s .read a n (fun d => beValue (d.bytesAt (a - d.start.toNat) n)) (beValue (s.bytesAt a n)) := by
  rw [busRead, if_neg (by simpa using hn)]
  rfl

theorem busWrite_eq_checkedAccess {v : Nat} {src : String} (hn : 1 ≤ n ∧ n ≤ 4) (hv : v < 2 ^ (8 * n)) :
    busWrite s a n v src = checkedAccess s .write a n
      (fun _ => s.setDevices (updateRouted (fun d => d.store (a - d.start.toNat) (beBytes n v)) a s.devices))
      (s.storeBytes src a (beBytes n v)) := by
  have hok : ¬(¬(1 ≤ n ∧ n ≤ 4) ∨ 2 ^ (8 * n) ≤ v) := by omega
  rw [busWrite, if_neg hok]
  unfold checkedAccess
  split
  case isTrue => cases routeDevice s.devices a <;> rfl
  case isFalse => rfl

/-- The fault of an access that passes the length check (20_memory.md R85). -/
theorem checkedAccess_fault {α : Type} {device : Device → α} {cells : α} {r : Fault} (hn : 1 ≤ n ∧ n ≤ 4)
    (h : checkedAccess s kind a n device cells = .error r) : AccessFault kind s a n r := by
  unfold checkedAccess at h
  split at h
  case isTrue ha =>
    have hbounds := accessFault_bounds (kind := kind) hn.1 (arrayRangeOk_low ha)
    split at h
    case h_1 hr => cases h; exact hbounds (not_deviceServes_unrouted hr)
    case h_2 d hr =>
      split at h <;> cases h
      rename_i hacc
      exact hbounds (mt (deviceServes_iff_accepts hn ha hr).1 hacc)
  case isFalse ha =>
    split at h
    case isTrue hr =>
      split at h <;> cases h
      rename_i p hp
      exact accessFault_permission hr hp
    case isFalse hr =>
      cases h
      exact accessFault_bounds hn.1 (by simpa using hr) (not_deviceServes_high ha)

theorem busRead_accessible (hn : 1 ≤ n ∧ n ≤ 4) (h : Accessible s .read a n) : busRead s a n = .ok (s.valueAt a n) :=
  (busRead_ok_iff _ _ _ _).2 ⟨hn, h, rfl⟩

theorem busRead_not_accessible (hn : 1 ≤ n ∧ n ≤ 4) (h : ¬Accessible s .read a n) :
    ∃ r, busRead s a n = .error r ∧ AccessFault .read s a n r := by
  cases hb : busRead s a n with
  | ok v => exact absurd ((busRead_ok_iff _ _ _ _).1 hb).2.1 h
  | error r => exact ⟨r, rfl, checkedAccess_fault hn (busRead_eq_checkedAccess hn ▸ hb)⟩

theorem busWrite_accessible {v : Nat} (src : String) (hn : 1 ≤ n ∧ n ≤ 4) (hv : v < 2 ^ (8 * n))
    (h : Accessible s .write a n) : busWrite s a n v src = .ok (written s a n v src) :=
  (busWrite_ok_iff _ _ _ _ _ _).2 ⟨hn, hv, h, rfl⟩

theorem busWrite_not_accessible {v : Nat} (src : String) (hn : 1 ≤ n ∧ n ≤ 4) (hv : v < 2 ^ (8 * n))
    (h : ¬Accessible s .write a n) : ∃ r, busWrite s a n v src = .error r ∧ AccessFault .write s a n r := by
  cases hb : busWrite s a n v src with
  | ok t => exact absurd ((busWrite_ok_iff _ _ _ _ _ _).1 hb).2.2.1 h
  | error r => exact ⟨r, rfl, checkedAccess_fault hn (busWrite_eq_checkedAccess hn hv ▸ hb)⟩

end

/-- A write changes nothing of the unit. -/
theorem written_sameUnit (s : State) (a n v : Nat) (src : String) : SameUnit s (written s a n v src) := by
  constructor <;> simp

/-- Settles O42: the value and the fault of a read of a legal length are those of `busRead_accessible` and
`busRead_not_accessible`. -/
theorem busReadFollowsCheckOrder : Obligations.BusReadFollowsCheckOrder := by
  unfold Obligations.BusReadFollowsCheckOrder
  refine fun s a n => ⟨fun hn => ?length, busRead_accessible, busRead_not_accessible⟩
  case length => rw [busRead, if_pos hn]

/-- Settles O43: a write that is accepted is `written`, which leaves what `Stored` says. -/
theorem busWriteStoresAllOrNothing : Obligations.BusWriteStoresAllOrNothing := by
  unfold Obligations.BusWriteStoresAllOrNothing
  refine fun s a n v src => ⟨fun hover => ?overflow, fun hn hv h => ?stores, busWrite_not_accessible src⟩
  case overflow => rw [busWrite, if_pos hover]
  case stores =>
    exact ⟨_, busWrite_accessible src hn hv h, written_stored h, written_sameUnit s a n v src, written_pend s a n v src⟩

/-! ## Accesses of different widths to the same cells (O44) -/

theorem busRead_cells {s : State} {a n : Nat} (hn : 1 ≤ n ∧ n ≤ 4) (h : CellsAllow s .read a n) :
    busRead s a n = .ok (beValue (s.bytesAt a n)) := by
  rw [busRead_accessible hn (.inl h), valueAt_high (Nat.not_lt.2 h.1)]

/-- A write changes no permission and no bound. -/
theorem cellsAllow_written {s : State} {a n v : Nat} {src : String} {k : Access} {x m : Nat} :
    CellsAllow (written s a n v src) k x m ↔ CellsAllow s k x m := by
  simp only [CellsAllow, State.permsAt, written_params, written_perms]

theorem byteAt_written {s : State} {a n v : Nat} {src : String} (ha : s.params.memoryStart ≤ a) (x : Nat) :
    (written s a n v src).byteAt x = if a ≤ x ∧ x < a + n then storedByte n v (x - a) else s.byteAt x := by
  rw [written_array ha, byteAt_storeBytes]
  split
  case isTrue hx =>
    rw [beBytes_length] at hx
    rw [if_pos hx, beBytes_get n v (x - a) (by omega)]
  case isFalse hx =>
    rw [beBytes_length] at hx
    rw [if_neg hx]

/-- A 1-byte write stores its byte. -/
theorem storedByte_one (b : Byte) : storedByte 1 b.toNat 0 = b := by
  simp [storedByte]

theorem byteAt_written_one {s : State} {a : Nat} {b : Byte} {src : String} (ha : s.params.memoryStart ≤ a) (x : Nat) :
    (written s a 1 b.toNat src).byteAt x = if x = a then b else s.byteAt x := by
  rw [byteAt_written ha]
  split
  case isTrue hx =>
    obtain rfl : x = a := by omega
    rw [if_pos rfl, Nat.sub_self, storedByte_one]
  case isFalse hx => rw [if_neg (by omega)]

theorem beValue_four (b0 b1 b2 b3 : Byte) : beValue [b0, b1, b2, b3] = (b0 ++ b1 ++ b2 ++ b3 : BitVec 32).toNat := by
  have h0 := b0.isLt
  have h1 := b1.isLt
  have h2 := b2.isLt
  have h3 := b3.isLt
  simp only [beValue, List.length_cons, List.length_nil, BitVec.toNat_append]
  rw [← Nat.shiftLeft_add_eq_or_of_lt h1, ← Nat.shiftLeft_add_eq_or_of_lt h2, ← Nat.shiftLeft_add_eq_or_of_lt h3]
  simp only [Nat.shiftLeft_eq]
  omega

/-- The first byte a 4-byte write stores, read alone, is the most significant (20_memory.md R67). -/
theorem busRead_first_of_four {s : State} {a v : Nat} {src : String} (hr : CellsAllow s .read a 4) (hv : v < 2 ^ 32) :
    busRead (written s a 4 v src) a 1 = .ok (v / 2 ^ 24) := by
  have hcells : CellsAllow (written s a 4 v src) .read a 1 := cellsAllow_written.2 (hr.mono (Nat.le_refl a) (by omega))
  have hbyte : (written s a 4 v src).byteAt a = BitVec.ofNat 8 (v / 2 ^ 24) := by
    rw [byteAt_written hr.1, if_pos (by omega), Nat.sub_self]
    rfl
  rw [busRead_cells (by omega) hcells]
  simp only [State.bytesAt, hbyte, beValue, List.length_nil, BitVec.toNat_ofNat]
  congr 1
  omega

/-- A 1-byte write to a cell that allows it gives that cell the byte, and changes no other byte, permission or bound. -/
theorem busWrite_byte {s : State} {a : Nat} (b : Byte) (src : String) (h : CellsAllow s .write a 1) :
    ∃ t, busWrite s a 1 b.toNat src = .ok t ∧ (∀ k x m, CellsAllow t k x m ↔ CellsAllow s k x m) ∧
      ∀ x, t.byteAt x = if x = a then b else s.byteAt x :=
  ⟨_, busWrite_accessible src (by omega) b.isLt (.inl h), fun _ _ _ => cellsAllow_written, byteAt_written_one h.1⟩

/-- Settles O44: the 4-byte write by its first byte, the four 1-byte writes by the bytes they leave. -/
theorem mixedWidthAccessesAreBigEndian : Obligations.MixedWidthAccessesAreBigEndian := by
  unfold Obligations.MixedWidthAccessesAreBigEndian
  refine fun s a src hr hw => ⟨fun v hv => ?first, fun b0 b1 b2 b3 => ?four⟩
  case first => exact ⟨_, busWrite_accessible src (by omega) hv (.inl hw), busRead_first_of_four hr hv⟩
  case four =>
    have hcell : ∀ k < 4, CellsAllow s .write (a + k) 1 := fun k hk => hw.mono (by omega) (by omega)
    obtain ⟨t1, w1, allow1, byte1⟩ := busWrite_byte b0 src (hcell 0 (by omega))
    obtain ⟨t2, w2, allow2, byte2⟩ := busWrite_byte b1 src ((allow1 _ _ _).2 (hcell 1 (by omega)))
    simp only [allow1] at allow2
    obtain ⟨t3, w3, allow3, byte3⟩ := busWrite_byte b2 src ((allow2 _ _ _).2 (hcell 2 (by omega)))
    simp only [allow2] at allow3
    obtain ⟨t4, w4, allow4, byte4⟩ := busWrite_byte b3 src ((allow3 _ _ _).2 (hcell 3 (by omega)))
    simp only [allow3] at allow4
    have hbytes : t4.bytesAt a 4 = [b0, b1, b2, b3] := by
      simp [State.bytesAt, byte4, byte3, byte2, byte1, Nat.add_assoc]
    refine ⟨t1, t2, t3, t4, w1, w2, w3, w4, ?_⟩
    rw [busRead_cells (by omega) ((allow4 _ _ _).2 hr), hbytes, beValue_four]

end Sys2Proof.Machine

namespace Sys2Proof.Machine

/-! ## Devices: which one an access reaches, and which ones are registered (O45, O47) -/

theorem claims_iff {d : Device} {a : Nat} : d.claims a = true ↔ a &&& d.mask.toNat = d.start.toNat := by
  simp [Device.claims]

theorem routeDevice_none {ds : List Device} {a : Nat} (h : ∀ e ∈ ds, a &&& e.mask.toNat ≠ e.start.toNat) :
    routeDevice ds a = none := by
  rw [routeDevice, List.find?_eq_none]
  exact fun e he hc => h e he (claims_iff.1 hc)

section
variable {before after : List Device} {d : Device} {a : Nat} (hb : ∀ e ∈ before, a &&& e.mask.toNat ≠ e.start.toNat)
  (hd : a &&& d.mask.toNat = d.start.toNat)
include hb hd

/-- The device that matches after some that do not is the one an access is routed to (20_memory.md R83). -/
theorem routeDevice_first : routeDevice (before ++ d :: after) a = some d := by
  have hnone : before.find? (fun e => e.claims a) = none := routeDevice_none hb
  rw [routeDevice, List.find?_append, hnone, Option.none_or]
  exact List.find?_cons_of_pos (claims_iff.2 hd)

/-- It alone is changed. -/
theorem updateRouted_first (f : Device → Device) :
    updateRouted f a (before ++ d :: after) = before ++ f d :: after := by
  induction before with
  | nil => simp [updateRouted, claims_iff.2 hd]
  | cons e rest ih =>
    have he : ¬e.claims a = true := mt claims_iff.1 (hb e (by simp))
    rw [List.cons_append, updateRouted, if_neg he, ih fun x hx => hb x (by simp [hx]), List.cons_append]

end

section
variable {s : State} {a n : Nat} (ha : a < s.params.memoryStart)
include ha

/-- In device space the one fault of an access is a BoundsError (20_memory.md R84, R87). -/
theorem accessFault_low {kind : Access} {r : Fault} (h : AccessFault kind s a n r) : r = .bounds a n s := by
  rcases h with ⟨-, -, hr⟩ | ⟨hstart, -⟩
  · exact hr
  · omega

theorem accessible_low {kind : Access} : Accessible s kind a n ↔ DeviceServes s a n := by
  refine ⟨?_, .inr⟩
  rintro (⟨hstart, -⟩ | h)
  · omega
  · exact h

theorem access_low_fault {v : Nat} (src : String) (hn : 1 ≤ n ∧ n ≤ 4) (hv : v < 2 ^ (8 * n)) (h : ¬DeviceServes s a n) :
    busRead s a n = .error (.bounds a n s) ∧ busWrite s a n v src = .error (.bounds a n s) := by
  obtain ⟨r, hread, hr⟩ := busRead_not_accessible hn (mt (accessible_low ha).1 h)
  obtain ⟨w, hwrite, hw⟩ := busWrite_not_accessible src hn hv (mt (accessible_low ha).1 h)
  rw [hread, hwrite, accessFault_low ha hr, accessFault_low ha hw]
  exact ⟨rfl, rfl⟩

end

/-- Settles O45: the access is served by the first device that matches, or by none. -/
theorem firstMatchingDeviceIsUsed : Obligations.FirstMatchingDeviceIsUsed := by
  unfold Obligations.FirstMatchingDeviceIsUsed
  refine fun s a n v src ha hn hv => ⟨fun hnone => ?unrouted, fun before d after hds hb hd => ?routed⟩
  case unrouted => exact access_low_fault ha src hn hv (not_deviceServes_unrouted (routeDevice_none hnone))
  case routed =>
    have hroute : routeDevice s.devices a = some d := hds ▸ routeDevice_first hb hd
    refine ⟨fun hfits => ?fits, fun hpast => access_low_fault ha src hn hv ?past⟩
    case fits =>
      have hserves : DeviceServes s a n := ⟨ha, d, hroute, hfits⟩
      rw [busRead_accessible hn (.inr hserves), busWrite_accessible src hn hv (.inr hserves), valueAt_low ha hroute,
        written_device ha hroute, hds, updateRouted_first hb hd]
      exact ⟨rfl, rfl⟩
    case past =>
      rintro ⟨-, e, he, hfits⟩
      rw [hroute] at he
      cases he
      omega

theorem registrable_iff {d : Device} {start : Nat} :
    d.registrable start = true ↔ d.start.toNat < start ∧ d.start &&& d.mask = d.start := by
  simp [Device.registrable]

/-- The complement of a mask has as many bytes as the mask leaves addresses, less one (92_eei_decisions.md D21). -/
theorem complement_add (m : Word) : (~~~m).toNat + m.toNat = 2 ^ 32 - 1 := by
  have := m.isLt
  rw [BitVec.toNat_not]
  omega

/-- Settles O47: registration accepts by `Device.registrable`, and the two sizings count the complement of the mask. -/
theorem registerDeviceChecksPlacement : Obligations.RegisterDeviceChecksPlacement := by
  unfold Obligations.RegisterDeviceChecksPlacement
  refine fun s d => ⟨rfl, fun hb => ?complement, fun hb => ?plusOne, fun hd => ?accepts, fun hd => ?rejects⟩
  case complement => rw [hb, deviceBufferSize_complement, complement_add]
  case plusOne =>
    have := complement_add d.mask
    rw [hb, deviceBufferSize_complementPlusOne]
    omega
  case accepts => rw [registerDevice, if_pos (registrable_iff.2 hd)]
  case rejects => exact ⟨_, by rw [registerDevice, if_neg (mt registrable_iff.1 hd)]⟩

/-! ## The toggle ports (O48) -/

theorem allows_flip (p : Perms) (bit b : Access) :
    (p.flip bit).allows b = if b = bit then !p.allows b else p.allows b := by
  cases bit <;> cases b <;> rfl

theorem tagAt_toggle (s : State) (bit : Access) (a x : Nat) (actor : String) :
    (s.toggle bit a actor).tagAt x = if x = a then actor else s.tagAt x :=
  tagAt_setTag (s.setPerms _) a x actor

theorem togglePort_cell {s : State} {a : Nat} (h : s.params.memoryStart ≤ a ∧ a < s.params.memoryEnd) (bit : Access)
    (actor : String) : togglePort bit a actor s = .ok (s.toggle bit a actor) := by
  have hin : s.inArray a = true := by simpa [State.inArray] using h
  rw [togglePort, if_pos hin]

/-- Settles O48: each port is the toggle of its own bit. -/
theorem togglePortsFlipOneBit : Obligations.TogglePortsFlipOneBit := by
  unfold Obligations.TogglePortsFlipOneBit
  intro s a actor bit ha
  refine ⟨s.toggle bit a actor, ?port, ?flipped, fun b hb => ?otherBits, fun x hx => ?otherCells, ?tag, fun x hx => ?otherTags,
    readByte_congr rfl rfl rfl, ⟨fun _ => rfl, rfl, rfl, rfl, rfl, rfl, rfl, rfl⟩, rfl, rfl, rfl⟩
  case port => cases bit <;> exact togglePort_cell ha _ actor
  case flipped => rw [permsAt_toggle, if_pos rfl, allows_flip, if_pos rfl]
  case otherBits => rw [permsAt_toggle, if_pos rfl, allows_flip, if_neg hb]
  case otherCells => rw [permsAt_toggle, if_neg hx]
  case tag => rw [tagAt_toggle, if_pos rfl]
  case otherTags => rw [tagAt_toggle, if_neg hx]

end Sys2Proof.Machine

namespace Sys2Proof.Machine

/-! ## The entry of a virtual address (O10, O11) -/

theorem memRead_quiet_fault {s : State} (hq : s.Quiet) {a n : Nat} (hn : 1 ≤ n ∧ n ≤ 4) (h : ¬Accessible s .read a n) :
    ∃ r, memRead s a n = .error r ∧ AccessFault .read s a n r := by
  obtain ⟨r, hr, hf⟩ := busRead_not_accessible hn h
  exact ⟨r, by rw [memRead, land_quiet hq, hr, error_bind], hf⟩

section
variable {s : State} {vmr : Word} {va : Nat}

theorem tableEntry_beyond (h : 2 ^ 32 ≤ va) : tableEntry vmr va s = .error (.bounds va 1 s) := by
  rw [tableEntry, if_pos h]

variable (hq : s.Quiet) (hva : va < 2 ^ 32)
include hq hva

theorem tableEntry_hit {e : TlbEntry} (h : s.tlbLookup va = some e) : tableEntry vmr va s = .ok (e.entry, s) := by
  rw [tableEntry, if_neg (Nat.not_le.2 hva)]
  simp only [land_quiet hq, h]

theorem tableEntry_miss (h : s.tlbLookup va = none) (hacc : Accessible s .read (tableEntryAddress vmr va) 2) :
    tableEntry vmr va s = .ok (BitVec.ofNat 16 (s.valueAt (tableEntryAddress vmr va) 2),
      s.fillTlb va (BitVec.ofNat 16 (s.valueAt (tableEntryAddress vmr va) 2))) := by
  rw [tableEntry, if_neg (Nat.not_le.2 hva)]
  simp only [land_quiet hq, h, memRead_quiet hq (by omega) hacc, ok_bind]
  rfl

theorem tableEntry_unreadable (h : s.tlbLookup va = none) (hacc : ¬Accessible s .read (tableEntryAddress vmr va) 2) :
    ∃ r, tableEntry vmr va s = .error r ∧ AccessFault .read s (tableEntryAddress vmr va) 2 r := by
  obtain ⟨r, hr, hf⟩ := memRead_quiet_fault hq (by omega) hacc
  refine ⟨r, ?_, hf⟩
  rw [tableEntry, if_neg (Nat.not_le.2 hva)]
  simp only [land_quiet hq, h, hr, error_bind]

end

theorem toNat_valueAt2 (s : State) (a : Nat) : (BitVec.ofNat 16 (s.valueAt a 2)).toNat = s.valueAt a 2 :=
  Nat.mod_eq_of_lt (valueAt_lt s a 2)

/-- Settles O10: one lemma for each clause; the fill maps the page to its base by `tlbLookup_fillTlb`. -/
theorem entryComesFromTlbElseTable : Obligations.EntryComesFromTlbElseTable := by
  unfold Obligations.EntryComesFromTlbElseTable
  refine fun s vmr va hq => ⟨tableEntry_beyond, fun hva e => tableEntry_hit hq hva, fun hva hmiss hacc => ?miss,
    fun hva hmiss hacc => tableEntry_unreadable hq hva hmiss hacc⟩
  case miss =>
    refine ⟨_, _, tableEntry_miss hq hva hmiss hacc, toNat_valueAt2 _ _, rfl, fun x => ?_⟩
    rw [tlbLookup_fillTlb, physicalBase_eq]

theorem physicalAddress_lt (e : BitVec 16) (va : Nat) : physicalAddress e va < 2 ^ 32 := by
  rw [physicalAddress_eq]
  omega

/-- Settles O11: translation answers `physicalAddress` of the entry and fills the TLB with it. -/
theorem translationIsPageBasePlusOffset : Obligations.TranslationIsPageBasePlusOffset := by
  unfold Obligations.TranslationIsPageBasePlusOffset
  intro s t vmr va pa h
  obtain ⟨⟨e, u⟩, hentry, h⟩ := bind_ok h
  cases h
  refine ⟨e, u, hentry, physicalAddress_eq e va, physicalAddress_lt e va, ?_⟩
  rw [tlbLookup_fillTlb, if_pos rfl, physicalBase_eq]

/-! ## The access check (O12) -/

section
variable {privileged : Bool} {execs avails : List Nat} {vmr : Word} {s t : State}

/-- Two spellings of the addresses the check reads: the execute list, then what of the other list it does not hold. -/
theorem checked_addresses (execs avails : List Nat) :
    (execs ++ avails.filter fun a => !execs.contains a) = execs ++ avails.filter fun a => decide (a ∉ execs) := by
  simp

/-- The check reads every entry first; its fault there is the reading's. -/
theorem validateAccess_unreadable (hv : vmr ≠ 0) {r : Fault}
    (h : tableEntries vmr (execs ++ avails.filter fun a => decide (a ∉ execs)) s = .error r) :
    validateAccess privileged execs avails vmr s = .error r := by
  rw [← checked_addresses] at h
  rw [validateAccess, if_neg hv]
  simp only [h, error_bind]

/-- With the entries read, the check is the three passes over them in the state the reading left. -/
theorem validateAccess_entries (hv : vmr ≠ 0) {e : Nat → BitVec 16} {l : List Nat}
    (hl : l = execs ++ avails.filter fun a => decide (a ∉ execs))
    (h : tableEntries vmr l s = .ok (l.map fun a => (a, e a), t)) :
    validateAccess privileged execs avails vmr s =
      checkEntries privileged (execs.map fun a => (a, e a)) (l.map fun a => (a, e a)) t := by
  rw [validateAccess, if_neg hv, checked_addresses, ← hl]
  have htake : (l.map fun a => (a, e a)).take execs.length = execs.map fun a => (a, e a) := by
    rw [← List.map_take, hl, List.take_left]
  simp only [h, ok_bind, htake]

end

section
variable {p : Bool} {execs all : List Nat} {e : Nat → BitVec 16} {s : State}

/-- Looking for an entry is looking for the address it was read for. -/
theorem find?_entries (f : BitVec 16 → Bool) (l : List Nat) :
    ((l.map fun a => (a, e a)).find? fun q => f q.2) = (l.find? fun a => f (e a)).map fun a => (a, e a) := by
  rw [List.find?_map]
  rfl

theorem find?_lacking_eq_none {l : List Nat} {k : Nat} (h : ∀ a ∈ l, (e a).getLsbD k = true) :
    l.find? (fun a => !(e a).getLsbD k) = none := by
  rw [List.find?_eq_none]
  intro a ha
  simp [h a ha]

/-! The three passes over entries read for addresses, by the addresses (20_memory.md R72). -/

theorem checkEntries_noExecute {a : Nat} (hx : execs.find? (fun a => !(e a).getLsbD 15) = some a) :
    checkEntries p (execs.map fun a => (a, e a)) (all.map fun a => (a, e a)) s = .error (.noExecute a s) := by
  simp only [checkEntries, entryExecutable, find?_entries fun x => !x.getLsbD 15, hx, Option.map_some]

variable (hx : ∀ a ∈ execs, (e a).getLsbD 15 = true)
include hx

theorem checkEntries_pageNotAvailable {a : Nat} (ha : all.find? (fun a => !(e a).getLsbD 13) = some a) :
    checkEntries p (execs.map fun a => (a, e a)) (all.map fun a => (a, e a)) s = .error (.pageNotAvailable a s) := by
  simp only [checkEntries, entryExecutable, find?_entries fun x => !x.getLsbD 15, find?_lacking_eq_none hx,
    Option.map_none, entryAvailable, find?_entries fun x => !x.getLsbD 13, ha, Option.map_some]

variable (ha : ∀ a ∈ all, (e a).getLsbD 13 = true)
include ha

/-- With the first two passes over, the third decides. -/
theorem checkEntries_privilege :
    checkEntries p (execs.map fun a => (a, e a)) (all.map fun a => (a, e a)) s =
      ((all.find? fun a => (e a).getLsbD 14 && !p).map fun a => Fault.accessDenied a s).elim (.ok s) .error := by
  simp only [checkEntries, entryExecutable, find?_entries fun x => !x.getLsbD 15, find?_lacking_eq_none hx,
    Option.map_none, entryAvailable, find?_entries fun x => !x.getLsbD 13, find?_lacking_eq_none ha,
    entryPrivileged, find?_entries fun x => x.getLsbD 14 && !p]
  cases all.find? fun a => (e a).getLsbD 14 && !p <;> rfl

theorem checkEntries_accessDenied {a : Nat} (hp : p = false) (hd : all.find? (fun a => (e a).getLsbD 14) = some a) :
    checkEntries p (execs.map fun a => (a, e a)) (all.map fun a => (a, e a)) s = .error (.accessDenied a s) := by
  rw [checkEntries_privilege hx ha, hp]
  simp only [Bool.not_false, Bool.and_true, hd, Option.map_some, Option.elim_some]

theorem checkEntries_granted (hp : p = true ∨ ∀ a ∈ all, (e a).getLsbD 14 = false) :
    checkEntries p (execs.map fun a => (a, e a)) (all.map fun a => (a, e a)) s = .ok s := by
  have hnone : all.find? (fun a => (e a).getLsbD 14 && !p) = none := by
    rw [List.find?_eq_none]
    intro a hmem
    rcases hp with rfl | hp
    · simp
    · rw [hp a hmem, Bool.false_and]
      exact Bool.false_ne_true
  rw [checkEntries_privilege hx ha, hnone]
  rfl

end

/-- Settles O12: with the entries read, the check is `checkEntries`, which makes its three passes in order. -/
theorem accessChecksRunInPriorityOrder : Obligations.AccessChecksRunInPriorityOrder := by
  unfold Obligations.AccessChecksRunInPriorityOrder
  intro p execs avails vmr s all
  refine ⟨fun hv => ?off, fun hv r h => validateAccess_unreadable hv h, fun hv e t h => ?read⟩
  case off => rw [hv, validateAccess_off]
  case read =>
    simp only [beq_false, validateAccess_entries hv (show all = _ from rfl) h]
    exact ⟨fun a => checkEntries_noExecute, fun hx a => checkEntries_pageNotAvailable hx, fun hx ha =>
      ⟨fun a => checkEntries_accessDenied hx ha, checkEntries_granted hx ha⟩⟩

end Sys2Proof.Machine

namespace Sys2Proof.Machine

/-! ## Data accesses under other VMR and PRIV (O58) -/

/-- Replacing VMR and PRIV holds across data accesses and across what other agents do. -/
theorem modeReplaced_closed (vmr : Word) (priv : Bool) : SimClosed (ModeReplaced vmr priv) where
  toTranslationSim := modeReplaced_sim vmr priv
  land := land_modeReplaced

/-- Settles O58: instructions and the interrupt check keep the relation between a state and its image. -/
theorem dataAccessIgnoresTranslation : Obligations.DataAccessIgnoresTranslation := by
  unfold Obligations.DataAccessIgnoresTranslation
  intro s v p f
  have c := modeReplaced_closed v p
  have himage : ModeReplaced v p s (f s) := rfl
  exact ⟨fun i => (exec_sim c himage i).eq_mapOutcome fun _ _ h => h,
    (thenInterruptCheck_sim c (.next himage)).eq_mapOutcome fun _ _ h => h⟩

/-! ## What a fetch keeps, when its TLB fills alone decide it (O60)

`fetch_rel` asks that any fill keeps a relation. A fetch fills a page only where the TLB lacks it, or with what the TLB holds,
so a predicate that those fills keep holds across a fetch too. -/

/-- The state an operation answers with, or leaves at its fault, meets `P`. -/
def Leaves (P : State → Prop) {α : Type} (x : Except Fault (α × State)) : Prop :=
  match x with
  | .ok p => P p.2
  | .error r => P r.left

theorem Leaves.bind {P : State → Prop} {α β : Type} {x : Except Fault (α × State)}
    {f : α × State → Except Fault (β × State)} (h : Leaves P x) (k : ∀ v s, P s → Leaves P (f (v, s))) :
    Leaves P (x >>= f) := by
  cases x with
  | ok p => exact k p.1 p.2 h
  | error r => exact h

/-- What a predicate must be so that fetch keeps it. -/
structure FetchKeeps (P : State → Prop) : Prop where
  land      : ∀ s, P s → P (land s)
  entry     : ∀ vmr va s, P s → Leaves P (tableEntry vmr va s)
  translate : ∀ vmr va s, P s → Leaves P (translate vmr va s)

section
variable {P : State → Prop} (c : FetchKeeps P) {s : State}
include c

theorem tableEntries_leaves (vmr : Word) (l : List Nat) (h : P s) : Leaves P (tableEntries vmr l s) := by
  induction l generalizing s with
  | nil => exact h
  | cons va rest ih =>
    refine (c.entry vmr va s h).bind fun e t ht => ?_
    exact (ih ht).bind fun es u hu => hu

theorem validateAccess_leaves (p : Bool) (xs ys : List Nat) (vmr : Word) (h : P s) {α : Type}
    {f : State → Except Fault (α × State)} (k : ∀ t, P t → Leaves P (f t)) :
    Leaves P (validateAccess p xs ys vmr s >>= f) := by
  unfold validateAccess
  split
  case isTrue => exact k s h
  case isFalse =>
    dsimp only
    have hread := tableEntries_leaves c vmr (xs ++ ys.filter fun a => !xs.contains a) h
    revert hread
    cases tableEntries vmr (xs ++ ys.filter fun a => !xs.contains a) s with
    | error r => exact id
    | ok q =>
      intro hread
      rw [ok_bind]
      rcases checkEntries_cases p (q.1.take xs.length) q.1 q.2 with hc | ⟨r, hc, hr⟩
      · rw [hc]; exact k q.2 hread
      · rw [hc]; exact (hr ▸ hread : P r.left)

theorem fetchAddress_leaves (va : Nat) (h : P s) : Leaves P (fetchAddress va s) := by
  unfold fetchAddress
  split
  · exact h
  · exact c.translate s.vmr va s h

theorem fetchByte_leaves (p : Nat) (h : P s) : Leaves P (fetchByte s p) := by
  have hl := c.land s h
  unfold fetchByte
  dsimp only
  split
  · exact hl
  · split <;> exact hl

theorem fetchBytes_leaves (n va : Nat) (h : P s) : Leaves P (fetchBytes n va s) := by
  induction n generalizing va s with
  | zero => exact h
  | succ n ih =>
    refine (fetchAddress_leaves c va h).bind fun p t ht => ?_
    refine (fetchByte_leaves c p ht).bind fun b u hu => ?_
    exact (ih (va + 1) hu).bind fun bs w hw => hw

theorem fetchFirst_leaves (a : Nat) (h : P s) : Leaves P (fetchFirst a s) :=
  validateAccess_leaves c _ _ _ _ h fun _ ht =>
    (fetchAddress_leaves c a ht).bind fun p _ hu => fetchByte_leaves c p hu

theorem fetchRest_leaves (a n : Nat) (h : P s) : Leaves P (fetchRest a n s) := by
  unfold fetchRest
  dsimp only
  split
  · exact fetchBytes_leaves c _ _ h
  · exact validateAccess_leaves c _ _ _ _ h fun _ ht => fetchBytes_leaves c _ _ ht

theorem fetch_leaves (a : Nat) (h : P s) : Leaves P (fetch a s) := by
  unfold fetch
  refine (fetchFirst_leaves c a h).bind fun b0 t ht => ?_
  dsimp only
  split
  · exact ht
  · refine (fetchRest_leaves c a _ ht).bind fun bs u hu => ?_
    dsimp only
    split <;> exact hu

end

/-! ### From fetch and the instructions to the step -/

/-- What a predicate must be so that every step keeps it. -/
structure StepKeeps (P : State → Prop) : Prop where
  fetch : FetchKeeps P
  exec  : ExecClosed fun s t => P s → P t
  ie    : ∀ s v, P s → P (s.setIe v)
  pend  : ∀ s v, P s → P (s.setPend v)

section
variable {P : State → Prop} (c : StepKeeps P) {s : State}
include c

theorem interruptCheck_keeps (h : P s) : ResultRel (fun _ t => P t) s (interruptCheck s) := by
  have hl := c.exec.land s h
  unfold interruptCheck takeHardwareInterrupt
  dsimp only
  split
  case h_2 => exact hl
  case h_1 v _ =>
    split
    case isFalse => exact hl
    case isTrue =>
      have henter := enterHandler_result c.exec true v ((land s).setIe false)
      revert henter
      cases enterHandler true v ((land s).setIe false) with
      | error r => exact fun henter => henter (c.ie _ _ hl)
      | ok t => exact fun henter => c.pend _ _ (c.exec.flags _ _ (henter (c.ie _ _ hl)))

/-- What fetch and the instructions keep, a step keeps, whether it completes or faults. -/
theorem step_keeps (h : P s) : OutcomeRel (fun _ t => P t) s (step s) := by
  have hf := fetch_leaves c.fetch s.pc.toNat h
  unfold step
  revert hf
  cases fetch s.pc.toNat s with
  | error r => exact id
  | ok p =>
    obtain ⟨⟨i, next⟩, t⟩ := p
    intro hf
    have ht : P (t.setPc next) := c.exec.pc t next hf
    have he := exec_result c.exec i (fun _ => c.ie) (t.setPc next)
    dsimp only
    revert he
    cases exec i (t.setPc next) with
    | refused r => exact False.elim
    | fault r => exact fun he => he ht
    | next u =>
      intro he
      have hc := interruptCheck_keeps c (he ht)
      simp only [thenInterruptCheck]
      revert hc
      cases interruptCheck u <;> exact id

end

/-! ### A TLB entry -/

theorem accessFault_left {kind : Access} {s : State} {a n : Nat} {r : Fault} (h : AccessFault kind s a n r) :
    r.left = s := by
  rcases h with ⟨-, -, rfl⟩ | ⟨-, -, _, -, -, -, rfl⟩ <;> rfl

/-- A quiet state of the invariant whose TLB maps the page of an address. -/
structure HoldsEntry (va : Nat) (e : TlbEntry) (s : State) : Prop where
  inv   : Inv s
  quiet : s.Quiet
  entry : s.tlbLookup va = some e

namespace HoldsEntry
variable {va : Nat} {e : TlbEntry} {s : State}

/-- The invariant, the agenda and the TLB are all it speaks of. -/
theorem congr {t : State} (h : HoldsEntry va e s) (hi : Inv t) (ha : t.agenda = s.agenda) (ht : t.tlb = s.tlb) :
    HoldsEntry va e t := ⟨hi, ha.trans h.quiet, by rw [State.tlbLookup, ht]; exact h.entry⟩

theorem land (h : HoldsEntry va e s) : HoldsEntry va e (land s) := by rw [land_quiet h.quiet]; exact h

/-- A fill of a page the TLB lacks changes no entry it holds. -/
theorem fill (h : HoldsEntry va e s) {x : Nat} (hx : x < 2 ^ 32) (hmiss : s.tlbLookup x = none) (w : BitVec 16) :
    HoldsEntry va e (s.fillTlb x w) := by
  refine ⟨h.inv.fillTlb hx w, h.quiet, ?_⟩
  have hpage : ¬va / 2 ^ 19 = x / 2 ^ 19 := fun hp => by
    have hheld := h.entry
    rw [tlbLookup_page hp, hmiss] at hheld
    cases hheld
  rw [tlbLookup_fillTlb, if_neg hpage]
  exact h.entry

/-- Reading an entry keeps every TLB entry, and the TLB holds the entry that was read. -/
theorem tableEntry_cases (h : HoldsEntry va e s) (vmr : Word) (x : Nat) :
    (∃ w t, tableEntry vmr x s = .ok (w, t) ∧ HoldsEntry va e t ∧ t.tlbLookup x = some ⟨physicalBase w, w⟩) ∨
      ∃ r, tableEntry vmr x s = .error r ∧ HoldsEntry va e r.left := by
  by_cases hx : x < 2 ^ 32
  case neg => exact .inr ⟨_, tableEntry_beyond (Nat.not_lt.1 hx), h⟩
  case pos =>
    cases hl : s.tlbLookup x with
    | some w =>
      have hbase := (h.inv.tlbPages _ (tableFind_mem hl)).2
      exact .inl ⟨_, s, tableEntry_hit h.quiet hx hl, h, by rw [hl, ← hbase]⟩
    | none =>
      by_cases hacc : Accessible s .read (tableEntryAddress vmr x) 2
      case pos =>
        exact .inl ⟨_, _, tableEntry_miss h.quiet hx hl hacc, h.fill hx hl _, by rw [tlbLookup_fillTlb, if_pos rfl]⟩
      case neg =>
        obtain ⟨r, hr, hfault⟩ := tableEntry_unreadable h.quiet hx hl hacc
        exact .inr ⟨r, hr, by rw [accessFault_left hfault]; exact h⟩

/-- Translating fills the page with what the TLB already holds for it. -/
theorem translate (h : HoldsEntry va e s) (vmr : Word) (x : Nat) : Leaves (HoldsEntry va e) (translate vmr x s) := by
  unfold Machine.translate
  rcases h.tableEntry_cases vmr x with ⟨w, t, hw, ht, hfilled⟩ | ⟨r, hr, hleft⟩
  · rw [hw, ok_bind]
    show HoldsEntry va e ((Machine.land t).fillTlb x w)
    rw [land_quiet ht.quiet, fillTlb_same ht.inv.tlbRising hfilled]
    exact ht
  · rw [hr]
    exact hleft

theorem fetchKeeps (va : Nat) (e : TlbEntry) : FetchKeeps (HoldsEntry va e) where
  land _ h := h.land
  entry vmr x s h := by
    rcases h.tableEntry_cases vmr x with ⟨w, t, hw, ht, -⟩ | ⟨r, hr, hleft⟩
    · rw [hw]; exact ht
    · rw [hr]; exact hleft
  translate vmr x _ h := h.translate vmr x

theorem execClosed (va : Nat) (e : TlbEntry) : ExecClosed fun s t => HoldsEntry va e s → HoldsEntry va e t where
  refl _ := id
  trans _ _ _ h g := g ∘ h
  land _ := land
  write s t a n v hw h := by
    obtain ⟨-, -, hacc, rfl⟩ := (busWrite_ok_iff _ _ _ _ _ _).1 hw
    exact h.congr (inv_written h.inv hacc) (written_agenda _ _ _ _ _) (written_tlb _ _ _ _ _)
  reg _ _ _ h := h.congr (inv_stepClosed.reg _ _ _ h.inv) rfl rfl
  pc _ _ h := h.congr (inv_stepClosed.pc _ _ h.inv) rfl rfl
  flags _ _ h := h.congr (inv_stepClosed.flags _ _ h.inv) rfl rfl
  ivr _ _ h := h.congr (inv_stepClosed.ivr _ _ h.inv) rfl rfl

theorem stepKeeps (va : Nat) (e : TlbEntry) : StepKeeps (HoldsEntry va e) where
  fetch := fetchKeeps va e
  exec := execClosed va e
  ie _ _ h := h.congr (inv_stepClosed.ie _ _ h.inv) rfl rfl
  pend _ _ h := h.congr (inv_stepClosed.pend _ _ h.inv) rfl rfl

end HoldsEntry

/-- Settles O60: a step keeps each entry, for a quiet fetch fills only pages the TLB lacks; a flush empties the list. -/
theorem tlbEntriesStayUntilFlush : Obligations.TlbEntriesStayUntilFlush := by
  unfold Obligations.TlbEntriesStayUntilFlush
  refine ⟨fun s t hi hq h va e he => ?next, fun s r hi hq h va e he => ?fault, fun s va => ⟨rfl, rfl⟩⟩
  all_goals
    have hrel := step_keeps (HoldsEntry.stepKeeps va e) ⟨hi, hq, he⟩
    rw [h] at hrel
    exact hrel.entry

end Sys2Proof.Machine

namespace Sys2Proof.Machine

/-! ## What an instruction stores (O54) -/

/-- Everything the bus holds as before, and the acts still to come (10_state.md R20). -/
structure SameBus (s t : State) : Prop where
  params  : t.params = s.params
  mem     : t.mem = s.mem
  perms   : t.perms = s.perms
  tags    : t.tags = s.tags
  tlb     : t.tlb = s.tlb
  devices : t.devices = s.devices
  agenda  : t.agenda = s.agenda

namespace SameBus
variable {s t u : State}

theorem refl (s : State) : SameBus s s := ⟨rfl, rfl, rfl, rfl, rfl, rfl, rfl⟩

theorem trans (h : SameBus s t) (g : SameBus t u) : SameBus s u :=
  ⟨g.params.trans h.params, g.mem.trans h.mem, g.perms.trans h.perms, g.tags.trans h.tags, g.tlb.trans h.tlb,
    g.devices.trans h.devices, g.agenda.trans h.agenda⟩

theorem setReg (h : SameBus s t) (r : Reg) (v : Word) : SameBus s (t.setReg r v) := h.trans (by constructor <;> rfl)
theorem setPc (h : SameBus s t) (v : Word) : SameBus s (t.setPc v) := h.trans (by constructor <;> rfl)
theorem setFlags (h : SameBus s t) (v : FlagBits) : SameBus s (t.setFlags v) := h.trans (by constructor <;> rfl)
theorem setIe (h : SameBus s t) (v : Bool) : SameBus s (t.setIe v) := h.trans (by constructor <;> rfl)
theorem setIvr (h : SameBus s t) (v : Word) : SameBus s (t.setIvr v) := h.trans (by constructor <;> rfl)

theorem sameShared (h : SameBus s t) : SameShared s t :=
  sameShared_of_fields h.params h.mem h.perms h.tags h.tlb h.devices

theorem readByte (h : SameBus s t) (x : Nat) : t.readByte x = s.readByte x :=
  readByte_congr h.params h.mem h.devices x

theorem tagAt (h : SameBus s t) (x : Nat) : t.tagAt x = s.tagAt x := by rw [State.tagAt, h.tags]; rfl

/-- What a write leaves is said of the bus alone. -/
theorem stored {w : State} {src : String} {a n v : Nat} (h : SameBus s u) (hw : Stored src u w a n v) (g : SameBus w t) :
    Stored src s t a n v where
  cells ha k hk := by rw [g.readByte]; exact hw.cells (h.params ▸ ha) k hk
  writer ha k hk := by rw [g.tagAt]; exact hw.writer (h.params ▸ ha) k hk
  device ha d hd := by rw [g.devices]; exact hw.device (h.params ▸ ha) d (h.devices ▸ hd)
  others x hx := by rw [g.readByte, hw.others x hx, h.readByte]
  tags x hx := by rw [g.tagAt, hw.tags x hx, h.tagAt]
  perms := g.perms.trans (hw.perms.trans h.perms)
  tlb := g.tlb.trans (hw.tlb.trans h.tlb)
  params := g.params.trans (hw.params.trans h.params)

end SameBus

/-- From `s` to `t` the bus changes by one write of the unit, of an address, a width and a value, or not at all. -/
def StoresAs (s t : State) : Option (Nat × Nat × Nat) → Prop
  | none => SameBus s t
  | some (a, n, v) => ∃ u w, SameBus s u ∧ memWrite u a n v = .ok w ∧ SameBus w t

namespace StoresAs
variable {s t u : State} {o : Option (Nat × Nat × Nat)}

theorem andThen (h : StoresAs s t o) (g : SameBus t u) : StoresAs s u o := by
  match o, h with
  | none, h => exact SameBus.trans h g
  | some (_, _, _), ⟨x, w, hx, hw, ht⟩ => exact ⟨x, w, hx, hw, ht.trans g⟩

theorem commitZero {x : Except Fault State} (h : commitZero x = .next t) (hx : ∀ u, x = .ok u → StoresAs s u o) :
    StoresAs s t o := by
  obtain ⟨u, hu, rfl⟩ := commitZero_next h
  exact (hx u hu).andThen ((SameBus.refl u).setFlags 0)

theorem commit {x : Except Fault (State × FlagBits)} (h : commit x = .next t)
    (hx : ∀ u f, x = .ok (u, f) → StoresAs s u o) : StoresAs s t o := by
  obtain ⟨u, f, hu, rfl⟩ := commit_next h
  exact (hx u f hu).andThen ((SameBus.refl u).setFlags f)

/-- The write of a quiet unit leaves what `Stored` says. -/
theorem stored {a n v : Nat} (hq : s.Quiet) (h : StoresAs s t (some (a, n, v))) :
    Stored s.params.unitTag s t a n v := by
  obtain ⟨u, w, hu, hw, ht⟩ := h
  obtain ⟨-, -, hacc, rfl⟩ := (memWrite_ok_iff _ _ _ _ _).1 hw
  rw [land_quiet (hu.agenda.trans hq)] at hacc ht
  rw [hu.params] at ht
  exact hu.stored (written_stored hacc) ht

end StoresAs

/-! ### The operations -/

theorem memRead_quiet_ok {s t : State} {a n v : Nat} (hq : s.Quiet) (h : memRead s a n = .ok (v, t)) :
    v = s.valueAt a n ∧ t = s := by
  obtain ⟨-, -, hv, ht⟩ := (memRead_ok_iff _ _ _ _ _).1 h
  rw [land_quiet hq] at hv ht
  exact ⟨hv, ht⟩

/-- The condition test in words (42_control.md R214). -/
theorem condHolds_iff (m f : FlagBits) : condHolds m f = true ↔ m &&& f ≠ 0 ∨ m = f := by
  revert m f
  decide

/-- The comparison code is the one of the numbers (41_alu.md R190). -/
theorem compareCode_eq_codeOf (x y : Word) : compareCode x y = codeOf x.toNat y.toNat := by
  have hzero : (x.toNat : Int) - (y.toNat : Int) = 0 ↔ x.toNat = y.toNat := by omega
  have hlower : (x.toNat : Int) - (y.toNat : Int) < 0 ↔ x.toNat < y.toNat := by omega
  simp only [compareCode, codeOf, hzero, hlower]
  rfl

section
variable {s t : State}

theorem memWrite_storesAs {a n v : Nat} (h : memWrite s a n v = .ok t) : StoresAs s t (some (a, n, v)) :=
  ⟨s, t, .refl s, h, .refl t⟩

theorem push_storesAs {v : Word} (h : push s v = .ok t) : StoresAs s t (some ((s.reg .S + 4).toNat, 4, v.toNat)) := by
  unfold push at h
  simp only [State.reg_setReg_same] at h
  exact ⟨_, t, (SameBus.refl s).setReg _ _, h, .refl t⟩

theorem callTo_storesAs {v : Word} (h : callTo s v = .ok t) :
    StoresAs s t (some ((s.reg .S + 4).toNat, 4, s.pc.toNat)) := by
  obtain ⟨u, hu, ht⟩ := bind_ok h
  cases ht
  exact (push_storesAs hu).andThen ((SameBus.refl u).setPc v)

theorem dataOp_sameBus {f : Word → Word → Word} {o : Operand} {d : Reg} (h : dataOp f o d s = .next t) :
    SameBus s t := by
  cases h; exact ((SameBus.refl s).setReg _ _).setFlags _

theorem compareOp_sameBus {o : Operand} {d : Reg} (h : compareOp o d s = .next t) : SameBus s t := by
  cases h; exact (SameBus.refl s).setFlags _

theorem multiplyOp_sameBus {o : Operand} {d : Reg} (h : multiplyOp o d s = .next t) : SameBus s t := by
  cases h; exact (((SameBus.refl s).setReg _ _).setReg _ _).setFlags _

theorem divideOp_sameBus {o : Operand} {d : Reg} (h : divideOp o d s = .next t) : SameBus s t := by
  obtain ⟨u, hu, rfl⟩ := commitZero_next h
  split at hu <;> cases hu
  exact (((SameBus.refl s).setReg _ _).setReg _ _).setFlags _

theorem jumpOp_sameBus {m : FlagBits} {o : Operand} (h : jumpOp m o s = .next t) : SameBus s t := by
  cases h
  split
  · exact ((SameBus.refl s).setPc _).setFlags _
  · exact (SameBus.refl s).setFlags _

theorem jumpRelativeOp_sameBus {m : FlagBits} {o : Operand} (h : jumpRelativeOp m o s = .next t) : SameBus s t := by
  cases h
  split
  · exact ((SameBus.refl s).setPc _).setFlags _
  · exact (SameBus.refl s).setFlags _

variable (hq : s.Quiet)
include hq

theorem popInto_sameBus {r : Reg} (h : popInto s r = .ok t) : SameBus s t := by
  obtain ⟨-, u, rfl, rfl⟩ := popInto_ok h
  rw [land_quiet hq]
  exact ((SameBus.refl s).setReg _ _).setReg _ _

theorem execRet_sameBus (h : execRet s = .next t) : SameBus s t := by
  obtain ⟨u, hu, rfl⟩ := commitZero_next h
  obtain ⟨⟨v, r⟩, hr, hu⟩ := bind_ok hu
  cases hu
  obtain ⟨-, rfl⟩ := memRead_quiet_ok hq hr
  exact (((SameBus.refl r).setReg _ _).setPc _).setFlags _

theorem execHiret_sameBus (h : execHiret s = .next t) : SameBus s t := by
  obtain ⟨u, f, hu, rfl⟩ := commit_next h
  obtain ⟨x, hx, hu⟩ := bind_ok hu
  obtain ⟨y, hy, hu⟩ := bind_ok hu
  cases hu
  have hsx := popInto_sameBus hq hx
  have hxy := popInto_sameBus (hsx.agenda.trans hq) hy
  exact (((((hsx.trans hxy).setReg _ _).setPc _).setFlags _).setIe _).setFlags _

theorem loadOp_sameBus {w : BitVec 4} {o : Operand} {d : Reg} (h : loadOp w o d s = .next t) : SameBus s t := by
  obtain ⟨u, hu, rfl⟩ := commitZero_next h
  obtain ⟨⟨v, r⟩, hr, hu⟩ := bind_ok hu
  cases hu
  obtain ⟨-, rfl⟩ := memRead_quiet_ok hq hr
  exact ((SameBus.refl r).setReg _ _).setFlags _

/-- A taken INT stores the return address alone, after reading the handler's (43_system.md R231). -/
theorem softwareInt_storesAs {o : Operand} (h : softwareInt o s = .next t) :
    StoresAs s t (if s.ie then some ((s.reg .S + 4).toNat, 4, s.pc.toNat) else none) := by
  refine .commitZero h fun u hu => ?_
  split at hu
  case isTrue hie =>
    rw [if_pos hie]
    obtain ⟨x, hx, henter⟩ := bind_ok hu
    cases hx
    obtain ⟨⟨v, r⟩, hr, hcall⟩ := bind_ok henter
    obtain ⟨-, rfl⟩ := memRead_quiet_ok hq hr
    exact callTo_storesAs hcall
  case isFalse hie =>
    rw [if_neg hie]
    cases hu
    exact .refl s

/-- SFSTOR stores where the condition holds of the code of its value and the memory word (43_system.md R236). -/
theorem conditionalStore_storesAs {m : FlagBits} {o : Operand} (h : conditionalStore m o s = .next t) :
    StoresAs s t (
      let f := codeOf (o.value s).toNat (s.valueAt (s.reg .A).toNat 4)
      if m &&& f ≠ 0 ∨ m = f then some ((s.reg .A).toNat, 4, (o.value s).toNat) else none) := by
  rw [conditionalStore_eq] at h
  refine .commit h fun u f hu => ?_
  obtain ⟨⟨v, r⟩, hr, hu⟩ := bind_ok hu
  obtain ⟨rfl, rfl⟩ := memRead_quiet_ok hq hr
  obtain ⟨w, hw, hu⟩ := bind_ok hu
  cases hu
  simp only [condHolds_iff, compareCode_eq_codeOf, valueAt4_toNat] at hw
  have hread := (SameBus.refl r).setReg .A (BitVec.ofNat 32 (r.valueAt (r.reg .A).toNat 4))
  dsimp only
  split at hw
  case isTrue hc =>
    rw [if_pos hc]
    exact ⟨_, w, hread, hw, (SameBus.refl w).setReg _ _⟩
  case isFalse hc =>
    rw [if_neg hc]
    cases hw
    exact hread.setReg _ _

/-- Every instruction that completes stores what `storesTo` says, or nothing. -/
theorem exec_storesAs {i : Instr} (h : exec i s = .next t) : StoresAs s t (storesTo i s) := by
  cases i
  case movReg r d => exact dataOp_sameBus (f := fun _ src => src) (o := .reg r) h
  case movImm v d => exact dataOp_sameBus (f := fun _ src => src) (o := .imm v) h
  case addReg | subReg | andReg | orReg | xorReg | shlReg | shrReg => exact dataOp_sameBus h
  case addImm | subImm | andImm | orImm | xorImm | shlImm | shrImm => exact dataOp_sameBus h
  case cmpReg | cmpImm => exact compareOp_sameBus h
  case mulReg | mulImm => exact multiplyOp_sameBus h
  case divReg | divImm => exact divideOp_sameBus h
  case notReg => cases h; exact ((SameBus.refl s).setReg _ _).setFlags _
  case callReg | callImm => exact .commitZero h fun _ => callTo_storesAs
  case pushReg | pushImm => exact .commitZero h fun _ => push_storesAs
  case popReg => exact StoresAs.commitZero (o := none) h fun _ => popInto_sameBus hq
  case intReg | intImm => exact softwareInt_storesAs hq h
  case jmpReg | jmpImm => exact jumpOp_sameBus h
  case jmprReg | jmprImm => exact jumpRelativeOp_sameBus h
  case sfstorReg m r => exact conditionalStore_storesAs (o := .reg r) hq h
  case sfstorImm m v => exact conditionalStore_storesAs (o := .imm v) hq h
  case memrRegReg | memrImmReg => exact loadOp_sameBus hq h
  case memwRegReg | memwImmReg | memwRegImm | memwImmImm => exact .commitZero h fun _ => memWrite_storesAs
  case ret => exact execRet_sameBus hq h
  case hiret => exact execHiret_sameBus hq h
  case sivrReg => cases h; exact ((SameBus.refl s).setIvr _).setFlags _
  case acti | dacti => cases h; exact ((SameBus.refl s).setIe _).setFlags _
  case nop => cases h; exact (SameBus.refl s).setFlags _

end

/-- Settles O54, from what each instruction stores. -/
theorem memoryOutsideStoreKeeps : Obligations.MemoryOutsideStoreKeeps := by
  unfold Obligations.MemoryOutsideStoreKeeps
  intro i s t hq h
  have hstores := exec_storesAs hq h
  refine ⟨fun hnone => ?keeps, fun a n v hsome => ?stores⟩
  case keeps => rw [hnone] at hstores; exact hstores.sameShared
  case stores => rw [hsome] at hstores; exact hstores.stored hq

end Sys2Proof.Machine

namespace Sys2Proof

/-! ## Field values in a word (30_encoding.md R113, R117) -/

theorem extractMask_eq (m w : Nat) : extractMask m w = (w &&& m) >>> maskShift m := Nat.shiftRight_and_distrib.symm

/-- A field that fits its run keeps its value in the mask's bits (30_encoding.md R117). -/
theorem placeMask_run {m len v : Nat} (h : m = (2 ^ len - 1) * 2 ^ maskShift m) (hv : v < 2 ^ len) :
    placeMask m v = v <<< maskShift m := by
  have hm : m = (2 ^ len - 1) <<< maskShift m := by rw [Nat.shiftLeft_eq]; exact h
  calc placeMask m v = v <<< maskShift m &&& (2 ^ len - 1) <<< maskShift m := by rw [placeMask, ← hm]
    _ = v <<< maskShift m := by rw [← Nat.shiftLeft_and_distrib, Nat.and_two_pow_sub_one_of_lt_two_pow hv]

theorem testBit_of_testBit_placeMask {m v j : Nat} (h : (placeMask m v).testBit j = true) : m.testBit j = true := by
  rw [placeMask, Nat.testBit_and, Bool.and_eq_true] at h
  exact h.2

section
variable {F : FormRow} {v : FieldName → Nat}

theorem FormRow.testBit_fieldBits {j : Nat} : F.fieldBits.testBit j = true ↔ ∃ p ∈ F.masks, p.2.testBit j = true := by
  obtain ⟨form, typeCode, opcodes, length, masks⟩ := F
  simp only [FormRow.fieldBits]
  induction masks with
  | nil => simp
  | cons p ps ih => simp [ih]

theorem FormRow.testBit_place {j : Nat} :
    (F.place v).testBit j = true ↔ ∃ p ∈ F.masks, (placeMask p.2 (v p.1)).testBit j = true := by
  obtain ⟨form, typeCode, opcodes, length, masks⟩ := F
  simp only [FormRow.place]
  induction masks with
  | nil => simp
  | cons p ps ih => simp [ih]

/-- Encoding leaves every padding bit zero (30_encoding.md R117). -/
theorem FormRow.place_and_fieldBits : F.place v &&& F.fieldBits = F.place v := by
  refine Nat.eq_of_testBit_eq fun j => ?_
  have hsub : (F.place v).testBit j = true → F.fieldBits.testBit j = true := fun h => by
    obtain ⟨p, hp, hj⟩ := FormRow.testBit_place.1 h
    exact FormRow.testBit_fieldBits.2 ⟨p, hp, testBit_of_testBit_placeMask hj⟩
  rw [Nat.testBit_and]
  cases hb : (F.place v).testBit j with
  | false => rfl
  | true => rw [hsub hb]; rfl

/-- A word's field is read from its field bits alone (30_encoding.md R113). -/
theorem FormRow.extractMask_fieldBits {p : FieldName × Nat} (hp : p ∈ F.masks) (w : Nat) :
    extractMask p.2 (w &&& F.fieldBits) = extractMask p.2 w := by
  have hsub : F.fieldBits &&& p.2 = p.2 := Nat.eq_of_testBit_eq fun j => by
    rw [Nat.testBit_and]
    cases hj : p.2.testBit j with
    | false => simp
    | true => rw [FormRow.testBit_fieldBits.2 ⟨p, hp, hj⟩]; rfl
  rw [extractMask_eq, extractMask_eq, Nat.and_assoc, hsub]

/-- What is encoded is below a bound that every mask is below. -/
theorem FormRow.place_lt {n : Nat} (h : ∀ p ∈ F.masks, p.2 < 2 ^ n) : F.place v < 2 ^ n := by
  refine Nat.lt_pow_two_of_testBit _ fun j hj => ?_
  by_contra hb
  obtain ⟨p, hp, hpj⟩ := FormRow.testBit_place.1 (Bool.not_eq_false _ ▸ hb)
  exact Nat.lt_irrefl _ <| (Nat.ge_two_pow_of_testBit (testBit_of_testBit_placeMask hpj)).trans_lt <|
    (h p hp).trans_le (Nat.pow_le_pow_right (by decide) hj)

theorem FormRow.Ok.place_lt (hF : F.Ok) : F.place v < 256 ^ F.length := by
  rw [show (256 : Nat) = 2 ^ 8 from rfl, ← Nat.pow_mul]
  refine FormRow.place_lt fun p hp => ?_
  rw [Nat.pow_mul]
  exact (hF.runs p hp).2

theorem FormRow.Ok.beValue_place (hF : F.Ok) : beValue (beBytes F.length (F.place v)) = F.place v := by
  rw [beValue_beBytes, Nat.mod_eq_of_lt hF.place_lt]

/-- No two masks of a row share a bit. -/
theorem FormRow.Ok.mask_unique (hF : F.Ok) {p q : FieldName × Nat} (hp : p ∈ F.masks) (hq : q ∈ F.masks) {j : Nat}
    (hpj : p.2.testBit j = true) (hqj : q.2.testBit j = true) : p = q := by
  by_contra hne
  have : Std.Symm fun p q : FieldName × Nat => p.2 &&& q.2 = 0 := ⟨fun x y h => by rw [Nat.and_comm]; exact h⟩
  have hzero : p.2 &&& q.2 = 0 := hF.disjoint.forall hp hq hne
  have hbit := Nat.testBit_and p.2 q.2 j
  rw [hzero, hpj, hqj] at hbit
  simp at hbit

/-- Reading a field back gives the value encoded in it (30_encoding.md R117). -/
theorem FormRow.Ok.extractMask_place (hF : F.Ok) {p : FieldName × Nat} (hp : p ∈ F.masks) (hv : v p.1 < 2 ^ p.1.bits) :
    extractMask p.2 (F.place v) = v p.1 := by
  have honly : F.place v &&& p.2 = placeMask p.2 (v p.1) := Nat.eq_of_testBit_eq fun j => by
    rw [Nat.testBit_and, Bool.eq_iff_iff, Bool.and_eq_true, FormRow.testBit_place]
    constructor
    · rintro ⟨⟨q, hq, hqj⟩, hpj⟩
      cases hF.mask_unique hq hp (testBit_of_testBit_placeMask hqj) hpj
      exact hqj
    · exact fun h => ⟨⟨p, hp, h⟩, testBit_of_testBit_placeMask h⟩
  rw [extractMask_eq, honly, placeMask_run (hF.runs p hp).1 hv, Nat.shiftLeft_shiftRight]

theorem FormRow.field?_eq_some {n : FieldName} {w x : Nat} :
    F.field? n w = some x ↔ ∃ m, F.mask? n = some m ∧ extractMask m w = x := Option.map_eq_some_iff

/-- A row with a mask for each field of its form has a value for exactly those fields. -/
theorem FormRow.Ok.field?_isSome (hF : F.Ok) (n : FieldName) (w : Nat) :
    (F.field? n w).isSome = decide (n ∈ F.form.fields) := by
  rw [FormRow.field?, Option.isSome_map, Bool.eq_iff_iff, hF.mask?_isSome, decide_eq_true_eq]

theorem FormRow.Ok.field?_eq_none (hF : F.Ok) {n : FieldName} (hn : n ∉ F.form.fields) (w : Nat) :
    F.field? n w = none := by
  rw [← Option.isSome_eq_false_iff.trans Option.isNone_iff_eq_none, hF.field?_isSome, decide_eq_false hn]

/-- A field's value fits its number of bits (30_encoding.md R118 to R121). -/
theorem FormRow.Ok.field?_lt (hF : F.Ok) {n : FieldName} {w x : Nat} (h : F.field? n w = some x) : x < 2 ^ n.bits := by
  obtain ⟨m, hm, rfl⟩ := FormRow.field?_eq_some.1 h
  rw [extractMask_run (hF.runs _ (FormRow.mask?_mem hm)).1]
  exact Nat.mod_lt _ (Nat.two_pow_pos _)

/-- A row reads back the values it places: those of the fields it has. -/
theorem FormRow.Ok.field?_place (hF : F.Ok) {n : FieldName} (hn : n ∈ F.form.fields) (hv : v n < 2 ^ n.bits) :
    F.field? n (F.place v) = some (v n) := by
  obtain ⟨m, hm⟩ := Option.isSome_iff_exists.1 ((hF.mask?_isSome n).2 hn)
  exact FormRow.field?_eq_some.2 ⟨m, hm, hF.extractMask_place (FormRow.mask?_mem hm) hv⟩

theorem Form.length_pos (f : Form) : 1 ≤ f.length := by cases f <;> decide

theorem FormRow.Ok.length_pos (hF : F.Ok) : 1 ≤ F.length := hF.length ▸ F.form.length_pos

theorem Form.instructionCode_mem (f : Form) : .instructionCode ∈ f.fields := by cases f <;> decide

/-- The instruction code of a word is its first byte (30_encoding.md R110). -/
theorem FormRow.Ok.field?_instructionCode (hF : F.Ok) (w : Nat) :
    F.field? .instructionCode w = some (w / 256 ^ (F.length - 1) % 256) := by
  have hrun := (hF.runs _ (FormRow.mask?_mem hF.code)).1
  refine FormRow.field?_eq_some.2 ⟨_, hF.code, ?_⟩
  rw [extractMask_run hrun, ← Nat.eq_of_mul_eq_mul_left (by decide) hrun]
  rfl

/-- The bytes of an encoded word start with its instruction code. -/
theorem FormRow.Ok.beBytes_place (hF : F.Ok) {b0 : Byte} (hv : v .instructionCode = b0.toNat) :
    beBytes F.length (F.place v) = b0 :: beBytes (F.length - 1) (F.place v) := by
  have hcode := hF.field?_place (v := v) F.form.instructionCode_mem (hv ▸ b0.isLt)
  rw [hF.field?_instructionCode, hv, Option.some_inj] at hcode
  obtain ⟨n, hn⟩ : ∃ n, F.length = n + 1 := ⟨F.length - 1, by have := hF.length_pos; omega⟩
  rw [hn, Nat.add_sub_cancel] at hcode ⊢
  rw [beBytes, BitVec.eq_of_toNat_eq ((BitVec.toNat_ofNat _ _).trans hcode)]

end

/-! ## Operands by field (30_encoding.md R114) -/

/-- Whether the operand of a field is present. -/
def Operands.has (o : Operands) : FieldName → Bool
  | .instructionCode => true
  | .sourceRegister => o.src.isSome
  | .destinationRegister => o.dst.isSome
  | .sourceImmediate => o.srcImm.isSome
  | .destinationImmediate => o.dstImm.isSome
  | .width => o.width.isSome
  | .flags => o.flags.isSome

/-- An instruction has exactly the operands its form has fields for. -/
theorem Instr.operands_has (i : Instr) (n : FieldName) : i.operands.has n = decide (n ∈ i.form.fields) := by
  cases i <;> cases n <;> rfl

/-- A word has the operands its row has fields for. -/
theorem FormRow.Ok.operands_has {F : FormRow} (hF : F.Ok) (c : Codec) (w : Nat) (n : FieldName) :
    (c.operands F w).has n = decide (n ∈ F.form.fields) := by
  rw [← hF.field?_isSome n w]
  cases n
  case instructionCode => rw [hF.field?_instructionCode]; rfl
  all_goals exact Option.isSome_map

/-- Whether a form and a mnemonic have an instruction does not depend on the values of the form's operands. -/
theorem build_isSome_congr {f : Form} {o o' : Operands} (m : Mnemonic) (h : ∀ n ∈ f.fields, o.has n = true)
    (h' : ∀ n ∈ f.fields, o'.has n = true) : (build f m o).isSome = (build f m o').isSome := by
  obtain ⟨src, dst, srcImm, dstImm, width, flags⟩ := o
  obtain ⟨src', dst', srcImm', dstImm', width', flags'⟩ := o'
  cases f <;> simp only [Form.fields, List.forall_mem_cons, Operands.has, Option.isSome_iff_exists] at h h'
  case ins => rfl
  case insReg | insImm =>
    obtain ⟨-, ⟨x, rfl⟩, -⟩ := h
    obtain ⟨-, ⟨x', rfl⟩, -⟩ := h'
    cases m <;> rfl
  case insRegReg | insImmReg | insFlagReg | insFlagImm =>
    obtain ⟨-, ⟨x, rfl⟩, ⟨y, rfl⟩, -⟩ := h
    obtain ⟨-, ⟨x', rfl⟩, ⟨y', rfl⟩, -⟩ := h'
    cases m <;> rfl
  case insWidthRegReg | insWidthImmReg | insWidthRegImm | insWidthImmImm =>
    obtain ⟨-, ⟨x, rfl⟩, ⟨y, rfl⟩, ⟨z, rfl⟩, -⟩ := h
    obtain ⟨-, ⟨x', rfl⟩, ⟨y', rfl⟩, ⟨z', rfl⟩, -⟩ := h'
    cases m <;> rfl

/-- A well-formed instruction has a legal width operand, if it has one (30_encoding.md R115). -/
theorem widthOk_of_wellFormed {i : Instr} (h : WellFormed i = true) {w : BitVec 4} (hw : i.operands.width = some w) :
    WidthOk w = true := by
  cases i <;> cases hw <;> exact h

theorem getD_toNat_lt {α : Type} {k : Nat} (x : Option α) (f : α → BitVec k) :
    (x.map fun a => (f a).toNat).getD 0 < 2 ^ k := by
  cases x with
  | none => exact Nat.two_pow_pos k
  | some a => exact (f a).isLt

section
variable {c : Codec} {F : FormRow} {b0 : Byte}

/-- The values encoded for an instruction fit their fields. -/
theorem Codec.fieldValue_lt {code : Nat} (hcode : code < 256) (o : Operands) (n : FieldName) :
    c.fieldValue code o n < 2 ^ n.bits := by
  cases n
  case instructionCode => exact hcode
  all_goals exact getD_toNat_lt _ _

/-- The values of a word's fields, where they are those encoded for an instruction of the form, give its operands. -/
theorem Codec.Ok.operands_eq (hc : c.Ok) (hF : F.Ok) {i : Instr} {code w : Nat} (hi : F.form = i.form)
    (h : ∀ n ∈ i.form.fields, F.field? n w = some (c.fieldValue code i.operands n)) :
    c.operands F w = i.operands := by
  have hfield : ∀ n, F.field? n w = if i.operands.has n then some (c.fieldValue code i.operands n) else none := by
    intro n
    simp only [i.operands_has, decide_eq_true_eq]
    split
    case isTrue hn => exact h n hn
    case isFalse hn => exact hF.field?_eq_none (hi ▸ hn) w
  generalize i.operands = o at hfield ⊢
  obtain ⟨src, dst, srcImm, dstImm, width, flags⟩ := o
  simp only [Codec.operands, hfield, Operands.has, Codec.fieldValue, Operands.mk.injEq]
  refine ⟨?_, ?_, ?_, ?_, ?_, ?_⟩
  · cases src <;> simp [hc.regOf_idOf]
  · cases dst <;> simp [hc.regOf_idOf]
  · cases srcImm <;> simp
  · cases dstImm <;> simp
  · cases width <;> simp
  · cases flags <;> simp

end

/-! ## Encoding and decoding under any codec (O1, O2) -/

section
variable {c : Codec} {F : FormRow} {b0 : Byte}

theorem FormRow.widthLegal_iff (w : Nat) : F.widthLegal w = true ↔ ∀ x, F.field? .width w = some x → 1 ≤ x ∧ x ≤ 4 := by
  unfold FormRow.widthLegal
  cases F.field? .width w <;> simp

/-- What a word of a legal width with a mnemonic decodes to. -/
theorem Codec.decodeWord_of_build {w : Nat} {m : Mnemonic} {i : Instr} (hw : F.widthLegal w = true)
    (hm : c.mnemonicOf b0 = some m) (hb : build F.form m (c.operands F w) = some i) : c.decodeWord F b0 w = .ok i := by
  have hrec : (c.record F b0 w).bind Decoded.instr = some i := by
    rw [Codec.record, hm]
    exact hb
  rw [Codec.decodeWord, if_pos hw, hrec]

/-- Decoding exactly one instruction's bytes decodes their word. -/
theorem Codec.decode_exact {bs : List Byte} (hF : c.formOf b0 = some F) (hl : (b0 :: bs).length = F.length) :
    c.decode (b0 :: bs) = (c.decodeWord F b0 (beValue (b0 :: bs))).map fun i => (i, []) := by
  have h := Codec.decode_append (rest := []) hF hl.symm
  rwa [List.append_nil] at h

/-- A first byte that selects a row names an instruction of the row's form (30_encoding.md R111, R114). -/
theorem Codec.Ok.mnemonicOf_formOf (hc : c.Ok) (hF : c.formOf b0 = some F) :
    ∃ i : Instr, c.mnemonicOf b0 = some i.mnemonic ∧ F.form = i.form := by
  obtain ⟨hop, hb⟩ := Codec.formOf_opcode hF
  obtain ⟨-, hi⟩ := hc.selects F (Codec.formOf_mem hF) _ hop
  rwa [hb] at hi

/-- Under a codec that meets `Codec.Ok`, a word of a legal width decodes (30_encoding.md R115). -/
theorem Codec.Ok.decodeWord_legal (hc : c.Ok) (hF : c.formOf b0 = some F) {w : Nat} (hw : F.widthLegal w = true) :
    ∃ i, c.decodeWord F b0 w = .ok i := by
  obtain ⟨j, hm, hj⟩ := hc.mnemonicOf_formOf hF
  have hword : ∀ n ∈ F.form.fields, (c.operands F w).has n = true := fun n hn => by
    rw [(hc.forms F (Codec.formOf_mem hF)).operands_has, decide_eq_true hn]
  have hinstr : ∀ n ∈ F.form.fields, j.operands.has n = true := fun n hn => by
    rw [j.operands_has, ← hj, decide_eq_true hn]
  have hsome := build_isSome_congr j.mnemonic hword hinstr
  rw [hj, build_self, ← hj] at hsome
  obtain ⟨i, hi⟩ := Option.isSome_iff_exists.1 hsome
  exact ⟨i, Codec.decodeWord_of_build hw hm hi⟩

/-- Each form has one row. -/
theorem Codec.Ok.rowOf_form (hc : c.Ok) (hF : F ∈ c.forms) : c.rowOf F.form = some F := by
  obtain ⟨G, hG⟩ : ∃ G, c.rowOf F.form = some G :=
    Option.isSome_iff_exists.1 (List.find?_isSome.2 ⟨F, hF, beq_self_eq_true F.form⟩)
  have hform : G.form = F.form := by simpa using List.find?_some hG
  rw [hG, List.inj_on_of_nodup_map hc.oneRow (List.mem_of_find?_eq_some hG) hF hform]

/-- The first byte an encoding starts with selects the row and names the mnemonic (30_encoding.md R111, R114). -/
theorem Codec.Ok.formOf_codeOf (hc : c.Ok) (hF : F ∈ c.forms) {m : Mnemonic} (h : c.codeOf F m = some b0) :
    c.formOf b0 = some F ∧ c.mnemonicOf b0 = some m := by
  obtain ⟨o, ho, rfl⟩ := List.mem_map.1 (List.mem_of_find?_eq_some h)
  exact ⟨(hc.selects F hF o ho).1, by simpa using List.find?_some h⟩

/-- Every instruction has a row and a first byte. -/
theorem Codec.Ok.exists_code (hc : c.Ok) (i : Instr) :
    ∃ F b0, F ∈ c.forms ∧ F.form = i.form ∧ c.codeOf F i.mnemonic = some b0 := by
  obtain ⟨F, hF, hi, o, ho, hm⟩ := hc.complete i
  obtain ⟨b0, hb0⟩ : ∃ b0, c.codeOf F i.mnemonic = some b0 :=
    Option.isSome_iff_exists.1 (List.find?_isSome.2 ⟨_, List.mem_map_of_mem ho, by simpa using hm⟩)
  exact ⟨F, b0, hF, hi, hb0⟩

theorem Codec.encode_eq {i : Instr} (hF : c.rowOf i.form = some F) (hb : c.codeOf F i.mnemonic = some b0) :
    c.encode i = some (beBytes F.length (F.place (c.fieldValue b0.toNat i.operands))) := by
  rw [Codec.encode, hF]
  simp only [Option.bind_eq_bind, Option.bind_some, hb]
  rfl

/-- The word encoded for a well-formed instruction decodes to it (30_encoding.md R117). -/
theorem Codec.Ok.decodeWord_place (hc : c.Ok) (hF : c.formOf b0 = some F) {i : Instr} (hi : F.form = i.form)
    (hm : c.mnemonicOf b0 = some i.mnemonic) (hw : WellFormed i = true) :
    c.decodeWord F b0 (F.place (c.fieldValue b0.toNat i.operands)) = .ok i := by
  have hok := hc.forms F (Codec.formOf_mem hF)
  have hfield : ∀ n ∈ i.form.fields, F.field? n (F.place (c.fieldValue b0.toNat i.operands)) =
      some (c.fieldValue b0.toNat i.operands n) := fun n hn =>
    hok.field?_place (hi ▸ hn) (Codec.fieldValue_lt b0.isLt _ n)
  have hops := hc.operands_eq hok hi hfield
  refine Codec.decodeWord_of_build ((FormRow.widthLegal_iff _).2 fun x hx => ?legal) hm ?built
  case built => rw [hops, hi, build_self]
  case legal =>
    have hwidth : i.operands.width = some (BitVec.ofNat 4 x) := by rw [← hops, Codec.operands, hx]; rfl
    have hx16 : x < 2 ^ 4 := hok.field?_lt hx
    have hlegal := widthOk_of_wellFormed hw hwidth
    simp only [WidthOk, BitVec.toNat_ofNat, decide_eq_true_eq] at hlegal
    omega

/-- Decoding is a left inverse of encoding (30_encoding.md R117). -/
theorem Codec.Ok.decode_encode (hc : c.Ok) {i : Instr} (hw : WellFormed i = true) (rest : List Byte) :
    ∃ bs F, c.encode i = some bs ∧ c.decode (bs ++ rest) = .ok (i, rest) ∧ bs.length = i.length ∧
      F ∈ c.forms ∧ F.form = i.form ∧ beValue bs &&& F.fieldBits = beValue bs := by
  obtain ⟨F, b0, hmem, hi, hcode⟩ := hc.exists_code i
  obtain ⟨hF, hm⟩ := hc.formOf_codeOf hmem hcode
  have hok := hc.forms F hmem
  have hdecode := hc.decodeWord_place hF hi hm hw
  have hbytes := hok.beBytes_place (v := c.fieldValue b0.toNat i.operands) rfl
  have hlength : (beBytes F.length (F.place (c.fieldValue b0.toNat i.operands))).length = F.length := beBytes_length _ _
  refine ⟨_, F, Codec.encode_eq (hi ▸ hc.rowOf_form hmem) hcode, ?decodes, ?length, hmem, hi, ?padding⟩
  case decodes =>
    rw [hbytes, Codec.decode_append hF (by rw [← hbytes, hlength]), ← hbytes, hok.beValue_place, hdecode]
    rfl
  case length => rw [hlength, hok.length, hi]; rfl
  case padding => rw [hok.beValue_place, FormRow.place_and_fieldBits]

end

end Sys2Proof

namespace Sys2Proof

/-! ## The byte strings of the reference table (30_encoding.md R124; O1) -/

/-- Where each mask of a row lies below the masks before it, encoding adds up the shifted field values. -/
theorem FormRow.place_eq_sum {F : FormRow} {v : FieldName → Nat}
    (hruns : ∀ p ∈ F.masks, p.2 = (2 ^ p.1.bits - 1) * 2 ^ maskShift p.2)
    (hbelow : F.masks.Pairwise fun p q => q.2 < 2 ^ maskShift p.2) (hv : ∀ n, v n < 2 ^ n.bits) :
    F.place v = (F.masks.map fun p => v p.1 <<< maskShift p.2).sum := by
  obtain ⟨form, typeCode, opcodes, length, masks⟩ := F
  simp only at hruns hbelow ⊢
  induction masks with
  | nil => rfl
  | cons p ps ih =>
    obtain ⟨hp, hps⟩ := List.forall_mem_cons.1 hruns
    obtain ⟨hbelowp, hbelowps⟩ := List.pairwise_cons.1 hbelow
    have hrest : FormRow.place ⟨form, typeCode, opcodes, length, ps⟩ v < 2 ^ maskShift p.2 := FormRow.place_lt hbelowp
    calc FormRow.place ⟨form, typeCode, opcodes, length, p :: ps⟩ v
        = placeMask p.2 (v p.1) ||| FormRow.place ⟨form, typeCode, opcodes, length, ps⟩ v := rfl
      _ = v p.1 <<< maskShift p.2 + FormRow.place ⟨form, typeCode, opcodes, length, ps⟩ v := by
        rw [placeMask_run hp (hv p.1), ← Nat.shiftLeft_add_eq_or_of_lt hrest]
      _ = _ := by rw [ih hps hbelowps, List.map_cons, List.sum_cons]

theorem referenceForms_below : ∀ F ∈ referenceForms, F.masks.Pairwise fun p q => q.2 < 2 ^ maskShift p.2 := by decide

/-- The fields of each form in the reference table, each with its lowest bit (30_encoding.md R123). -/
def Form.lowBits : Form → List (FieldName × Nat)
  | .ins => [(.instructionCode, 0)]
  | .insRegReg => [(.instructionCode, 8), (.sourceRegister, 4), (.destinationRegister, 0)]
  | .insImmReg => [(.instructionCode, 40), (.sourceImmediate, 8), (.destinationRegister, 0)]
  | .insReg => [(.instructionCode, 8), (.sourceRegister, 0)]
  | .insImm => [(.instructionCode, 32), (.sourceImmediate, 0)]
  | .insFlagReg => [(.instructionCode, 8), (.flags, 4), (.sourceRegister, 0)]
  | .insFlagImm => [(.instructionCode, 40), (.flags, 32), (.sourceImmediate, 0)]
  | .insWidthRegReg => [(.instructionCode, 16), (.width, 8), (.sourceRegister, 4), (.destinationRegister, 0)]
  | .insWidthImmReg => [(.instructionCode, 40), (.sourceImmediate, 8), (.width, 4), (.destinationRegister, 0)]
  | .insWidthRegImm => [(.instructionCode, 40), (.width, 36), (.sourceRegister, 32), (.destinationImmediate, 0)]
  | .insWidthImmImm => [(.instructionCode, 72), (.width, 64), (.sourceImmediate, 32), (.destinationImmediate, 0)]

/-- The sum of the field values of a form, each shifted to its lowest bit. -/
def Form.wordSum (f : Form) (v : FieldName → Nat) : Nat := (f.lowBits.map fun p => v p.1 <<< p.2).sum

theorem referenceForms_lowBits :
    ∀ F ∈ referenceForms, F.masks.map (fun p => (p.1, maskShift p.2)) = F.form.lowBits := by decide

theorem reference_place {F : FormRow} (hF : F ∈ referenceForms) {v : FieldName → Nat} (hv : ∀ n, v n < 2 ^ n.bits) :
    F.place v = F.form.wordSum v := by
  rw [FormRow.place_eq_sum (fun p hp => ((referenceForms_ok F hF).runs p hp).1) (referenceForms_below F hF) hv,
    Form.wordSum, ← referenceForms_lowBits F hF, List.map_map]
  rfl

/-- The reference encoding of an instruction is the byte string of its length whose value is the sum of its fields. -/
theorem reference_encode_of {i : Instr} {F : FormRow} {b0 : Byte} {bs : List Byte}
    (hF : Codec.reference.rowOf i.form = some F) (hb : Codec.reference.codeOf F i.mnemonic = some b0)
    (hl : bs.length = F.length)
    (hv : beValue bs = F.form.wordSum (Codec.reference.fieldValue b0.toNat i.operands)) :
    Codec.reference.encode i = some bs := by
  rw [Codec.encode_eq hF hb, reference_place (List.mem_of_find?_eq_some hF) (Codec.fieldValue_lt b0.isLt i.operands),
    ← hv, ← hl, beBytes_beValue]

theorem beValue_immBytes (i : Word) : beValue (immBytes i) = i.toNat := by
  simpa [beValue] using immBytes_value i []

/-! ### The value of each form's byte string (30_encoding.md R124), as the sum of its shifted fields -/

section
variable (o : Byte) (i j : Word) (s d r : Reg) (w : BitVec 4) (m : FlagBits)

theorem encIns_value : beValue (encIns o) = o.toNat <<< 0 + 0 := by
  simp [encIns, beValue, Nat.shiftLeft_eq]

theorem encRegReg_value : beValue (encRegReg o s d) =
    o.toNat <<< 8 + ((Codec.reference.idOf s).toNat <<< 4 + ((Codec.reference.idOf d).toNat <<< 0 + 0)) := by
  simp [encRegReg, beValue, Nat.shiftLeft_eq, nibbles_toNat, reference_idOf]

theorem encImmReg_value : beValue (encImmReg o i d) =
    o.toNat <<< 40 + (i.toNat <<< 8 + ((Codec.reference.idOf d).toNat <<< 0 + 0)) := by
  simp [encImmReg, beValue, Nat.shiftLeft_eq, immBytes_value, immBytes_length, nibbles_toNat, reference_idOf]

theorem encReg_value : beValue (encReg o r) = o.toNat <<< 8 + ((Codec.reference.idOf r).toNat <<< 0 + 0) := by
  simp [encReg, beValue, Nat.shiftLeft_eq, nibbles_toNat, reference_idOf]

theorem encImm_value : beValue (encImm o i) = o.toNat <<< 32 + (i.toNat <<< 0 + 0) := by
  simp [encImm, beValue, Nat.shiftLeft_eq, beValue_immBytes, immBytes_length]

theorem encFlagReg_value : beValue (encFlagReg o m r) =
    o.toNat <<< 8 + (m.toNat <<< 4 + ((Codec.reference.idOf r).toNat <<< 0 + 0)) := by
  have hm : m.toNat < 16 := m.isLt.trans (by decide)
  simp [encFlagReg, beValue, Nat.shiftLeft_eq, nibbles_toNat, reference_idOf, hm]

theorem encFlagImm_value : beValue (encFlagImm o m i) = o.toNat <<< 40 + (m.toNat <<< 32 + (i.toNat <<< 0 + 0)) := by
  have hm : m.toNat < 256 := m.isLt.trans (by decide)
  simp [encFlagImm, beValue, Nat.shiftLeft_eq, beValue_immBytes, immBytes_length, hm]

theorem encWidthRegReg_value : beValue (encWidthRegReg o w s d) =
    o.toNat <<< 16 + (w.toNat <<< 8 +
      ((Codec.reference.idOf s).toNat <<< 4 + ((Codec.reference.idOf d).toNat <<< 0 + 0))) := by
  simp [encWidthRegReg, beValue, Nat.shiftLeft_eq, nibbles_toNat, reference_idOf]

theorem encWidthImmReg_value : beValue (encWidthImmReg o w i d) =
    o.toNat <<< 40 + (i.toNat <<< 8 + (w.toNat <<< 4 + ((Codec.reference.idOf d).toNat <<< 0 + 0))) := by
  simp [encWidthImmReg, beValue, Nat.shiftLeft_eq, immBytes_value, immBytes_length, nibbles_toNat, reference_idOf]

theorem encWidthRegImm_value : beValue (encWidthRegImm o w s j) =
    o.toNat <<< 40 + (w.toNat <<< 36 + ((Codec.reference.idOf s).toNat <<< 32 + (j.toNat <<< 0 + 0))) := by
  simp [encWidthRegImm, beValue, Nat.shiftLeft_eq, beValue_immBytes, immBytes_length, nibbles_toNat, reference_idOf,
    Nat.add_mul, Nat.mul_assoc, Nat.add_assoc]

theorem encWidthImmImm_value : beValue (encWidthImmImm o w i j) =
    o.toNat <<< 72 + (w.toNat <<< 64 + (i.toNat <<< 32 + (j.toNat <<< 0 + 0))) := by
  simp [encWidthImmImm, beValue, Nat.shiftLeft_eq, immBytes_value, beValue_immBytes, immBytes_length, nibbles_toNat]

end

/-- The reference codec encodes each instruction as the byte string of its form (30_encoding.md R124). -/
theorem reference_encode (i : Instr) : Codec.reference.encode i = some (encode i) := by
  cases i
  case movReg | addReg | subReg | andReg | orReg | xorReg | shlReg | shrReg | cmpReg | mulReg | divReg =>
    exact reference_encode_of rfl rfl rfl (encRegReg_value ..)
  case movImm | addImm | subImm | andImm | orImm | xorImm | shlImm | shrImm | cmpImm | mulImm | divImm =>
    exact reference_encode_of rfl rfl rfl (encImmReg_value ..)
  case notReg | callReg | pushReg | popReg | intReg | sivrReg => exact reference_encode_of rfl rfl rfl (encReg_value ..)
  case callImm | pushImm | intImm => exact reference_encode_of rfl rfl rfl (encImm_value ..)
  case jmpReg | jmprReg | sfstorReg => exact reference_encode_of rfl rfl rfl (encFlagReg_value ..)
  case jmpImm | jmprImm | sfstorImm => exact reference_encode_of rfl rfl rfl (encFlagImm_value ..)
  case memrRegReg | memwRegReg => exact reference_encode_of rfl rfl rfl (encWidthRegReg_value ..)
  case memrImmReg | memwImmReg => exact reference_encode_of rfl rfl rfl (encWidthImmReg_value ..)
  case memwRegImm => exact reference_encode_of rfl rfl rfl (encWidthRegImm_value ..)
  case memwImmImm => exact reference_encode_of rfl rfl rfl (encWidthImmImm_value ..)
  case ret | hiret | acti | dacti | nop => exact reference_encode_of rfl rfl rfl (encIns_value ..)

/-- Settles O1: each field a form has is read back from the bits it was placed in. -/
theorem decodeOfEncodeIsIdentity : Obligations.DecodeOfEncodeIsIdentity :=
  ⟨fun _ hc _ rest hw => hc.decode_encode hw rest, reference_encode⟩

end Sys2Proof

namespace Sys2Proof
open Machine

/-! ## The width field, first bytes, lengths and padding (O2 to O5) -/

/-- A fetch of a malformed word, translated or not, raises the fault with the address and the word (30_encoding.md
R115). -/
theorem Machine.fetch_malformed {s t u : State} {a w : Nat} {b0 : Byte} {bs : List Byte} {F : FormRow}
    (hF : s.params.codec.formOf b0 = some F) (hfirst : fetchFirst a s = .ok (b0, t))
    (hrest : fetchRest a F.length t = .ok (bs, u))
    (hd : s.params.codec.decodeWord F b0 (beValue (b0 :: bs)) = .error (.malformedField w)) :
    fetch a s = .error (.decodeMalformed a w u) := by
  simp only [fetch, hfirst, ok_bind, hF, hrest, hd]

/-- A fetch of a first byte that selects no form raises the fault with the address and the byte (30_encoding.md
R111). -/
theorem Machine.fetch_invalid {s t : State} {a : Nat} {b0 : Byte} (hF : s.params.codec.formOf b0 = none)
    (hfirst : fetchFirst a s = .ok (b0, t)) : fetch a s = .error (.decodeInvalid a b0 t) := by
  simp only [fetch, hfirst, ok_bind, hF]

theorem Machine.step_fetch_error {s : State} {r : Fault} (h : fetch s.pc.toNat s = .error r) : step s = .fault r := by
  rw [step, h]

/-- Settles O2: a legal word has the operands its form needs. -/
theorem widthFieldDecidesDecoding : Obligations.WidthFieldDecidesDecoding := by
  unfold Obligations.WidthFieldDecidesDecoding
  intro c b0 bs F hc hF hl
  have hok := hc.forms F (Codec.formOf_mem hF)
  refine ⟨fun hlegal => ?decodes, fun hillegal => ?malformed⟩
  case decodes =>
    obtain ⟨i, hi⟩ := hc.decodeWord_legal hF ((FormRow.widthLegal_iff _).2 hlegal)
    obtain ⟨hm, hform⟩ := Codec.decodeWord_variant hi
    refine ⟨i, ?_, hm, hform, Codec.decodeWord_wellFormed (fun x hx => hok.field?_lt hx) hi⟩
    rw [Codec.decode_exact hF hl, hi]
    rfl
  case malformed =>
    have hd := Codec.decodeWord_illegal (c := c) (b0 := b0)
      (Bool.eq_false_iff.2 fun h => hillegal ((FormRow.widthLegal_iff (F := F) (beValue (b0 :: bs))).1 h))
    refine ⟨?word, ?fetched, ?quiet⟩
    case word =>
      rw [Codec.decode_exact hF hl, hd]
      rfl
    case fetched =>
      rintro s t u a rfl hfirst hrest
      exact fetch_malformed hF hfirst hrest hd
    case quiet =>
      rintro s a rfl hq hv hcells hbytes
      have hb0 : s.byteAt a = b0 := by
        rw [← hl] at hbytes
        exact (List.cons.inj hbytes).1
      rw [fetch_physical hq hv (hb0.symm ▸ hF) hok.length_pos hcells, hb0, hbytes, hd]

/-- The reference table lists a form for exactly the other first bytes (30_encoding.md R125). -/
theorem reference_formOf_isNone (b0 : Byte) :
    let n := b0.toNat
    (n ≤ 0x0F ∨ (0xB0 ≤ n ∧ n ≤ 0xEF) ∨ (0x1B ≤ n ∧ n ≤ 0x1F) ∨ (0x2B ≤ n ∧ n ≤ 0x2F) ∨
      (0x36 ≤ n ∧ n ≤ 0x3F) ∨ n = 0x40 ∨ n = 0x43 ∨ (0x45 ≤ n ∧ n ≤ 0x4F) ∨ (0x53 ≤ n ∧ n ≤ 0x5F) ∨
      (0x63 ≤ n ∧ n ≤ 0x6F) ∨ (0x72 ≤ n ∧ n ≤ 0x7F) ∨ (0x82 ≤ n ∧ n ≤ 0x8F) ∨ n = 0x90 ∨ (0x92 ≤ n ∧ n ≤ 0x9F) ∨
      n = 0xA0 ∨ (0xA2 ≤ n ∧ n ≤ 0xAF) ∨ (0xF4 ≤ n ∧ n ≤ 0xFE)) ↔ Codec.reference.formOf b0 = none := by
  rw [← Option.isNone_iff_eq_none]
  revert b0
  decide

/-- Settles O3: phase 1 of decoding and of every fetch stops at a first byte that selects no form. -/
theorem unlistedFirstByteIsInvalid : Obligations.UnlistedFirstByteIsInvalid := by
  unfold Obligations.UnlistedFirstByteIsInvalid
  intro b0
  have hnone := (reference_formOf_isNone b0).1
  refine ⟨reference_formOf_isNone b0, fun h rest => Codec.decode_invalid (hnone h) rest, fun h s t hc hfirst => ?_,
    fun h s hc hq hv hcells hb0 => ?_⟩
  · exact step_fetch_error (fetch_invalid (hc.symm ▸ hnone h) hfirst)
  · subst hb0
    exact step_fetch_error (fetch_physical_invalid hq hv hcells (hc.symm ▸ hnone h))

/-- Decoding takes the bytes of the form its first byte selects from the front (30_encoding.md R116). -/
theorem Codec.Ok.decode_takes {c : Codec} (hc : c.Ok) {bs rest : List Byte} {i : Instr}
    (h : c.decode bs = .ok (i, rest)) :
    ∃ b0 F, bs.head? = some b0 ∧ c.formOf b0 = some F ∧ F.form = i.form ∧ F.length = i.length ∧
      bs = bs.take F.length ++ rest ∧ (bs.take F.length).length = i.length := by
  obtain ⟨b0, tl, F, rfl, hF, hl, hd, rfl⟩ := Codec.decode_ok h
  have hlength := hc.length_of_decodeWord hF hd
  exact ⟨b0, F, rfl, hF, (Codec.decodeWord_variant hd).2.symm, hlength.symm, (List.take_append_drop _ _).symm,
    by rw [List.length_take, Nat.min_eq_left hl, hlength]⟩

/-- Settles O4: the first byte selects the form, and the form has the length. -/
theorem firstByteFixesLength : Obligations.FirstByteFixesLength := by
  unfold Obligations.FirstByteFixesLength
  intro c bs rest bs' rest' i i' hc h h'
  obtain ⟨b0, F, hb0, hF, hform, hlength, hsplit, htake⟩ := hc.decode_takes h
  obtain ⟨b0', F', hb0', hF', -, hlength', -, -⟩ := hc.decode_takes h'
  refine ⟨i.form.length_mem, fun hhead => ?same, _, b0, F, hsplit, htake, ?head, hF, hform, hlength⟩
  case same =>
    rw [hb0, hb0', Option.some_inj] at hhead
    subst hhead
    rw [hF, Option.some_inj] at hF'
    rw [← hlength, ← hlength', hF']
  case head =>
    have hpos := (hc.forms F (Codec.formOf_mem hF)).length_pos
    rw [List.head?_take, if_neg (by omega), hb0]

section
variable {F : FormRow} {w w' : Nat}

/-- Words that agree on the field bits have the same field values (30_encoding.md R113). -/
theorem FormRow.field?_congr (h : w &&& F.fieldBits = w' &&& F.fieldBits) (n : FieldName) :
    F.field? n w = F.field? n w' := by
  unfold FormRow.field?
  cases hm : F.mask? n with
  | none => rfl
  | some m =>
    have hmem := FormRow.mask?_mem hm
    rw [Option.map_some, Option.map_some, ← FormRow.extractMask_fieldBits hmem w, h,
      FormRow.extractMask_fieldBits hmem w']

/-- The instruction a word decodes to is decoded from every word with the same field values. -/
theorem Codec.decodeWord_congr {c : Codec} {b0 : Byte} {i : Instr} (h : ∀ n, F.field? n w = F.field? n w')
    (hd : c.decodeWord F b0 w = .ok i) : c.decodeWord F b0 w' = .ok i := by
  obtain ⟨hw, m, hm, hb⟩ := Codec.decodeWord_ok hd
  have hlegal : F.widthLegal w' = F.widthLegal w := by unfold FormRow.widthLegal; rw [h]
  have hops : c.operands F w' = c.operands F w := by simp only [Codec.operands, h]
  exact Codec.decodeWord_of_build (hlegal.trans hw) hm (hops.symm ▸ hb)

end

/-- Settles O5: decoding reads a word through its fields alone. -/
theorem paddingBitsAreIgnored : Obligations.PaddingBitsAreIgnored := by
  unfold Obligations.PaddingBitsAreIgnored
  intro c b0 bs bs' F hF hl hl' hbits i hd
  rw [Codec.decode_exact hF hl] at hd
  rw [Codec.decode_exact hF hl']
  cases hword : c.decodeWord F b0 (beValue (b0 :: bs)) with
  | error e => rw [hword] at hd; cases hd
  | ok j =>
    rw [hword] at hd
    cases hd
    rw [Codec.decodeWord_congr (FormRow.field?_congr hbits) hword]
    rfl

end Sys2Proof

namespace Sys2Proof

/-! ## Whole byte strings and illegal widths (O7, O8, O16) -/

/-- A byte string that decodes with nothing left over is the word of the form its first byte selects. -/
theorem Codec.decode_all {c : Codec} {bs : List Byte} {i : Instr} (h : c.decode bs = .ok (i, [])) :
    ∃ b0 tl F, bs = b0 :: tl ∧ c.formOf b0 = some F ∧ F.length = bs.length ∧
      c.decodeWord F b0 (beValue bs) = .ok i := by
  obtain ⟨b0, tl, F, hbs, hF, hle, hd, hrest⟩ := Codec.decode_ok h
  have hl : F.length = bs.length := Nat.le_antisymm hle (List.drop_eq_nil_iff.1 hrest.symm)
  rw [hl, List.take_length] at hd
  exact ⟨b0, tl, F, hbs, hF, hl, hd⟩

theorem FormRow.widthLegal_eq_false {F : FormRow} {w x : Nat} (hx : F.field? .width w = some x)
    (h : ¬(1 ≤ x ∧ x ≤ 4)) : F.widthLegal w = false :=
  Bool.eq_false_iff.2 fun hw => h ((FormRow.widthLegal_iff w).1 hw x hx)

end Sys2Proof

namespace Sys2Proof.Machine

/-! ## Nothing is refused (O52) -/

theorem execClosed_true : ExecClosed fun _ _ => True where
  refl _ := trivial
  trans _ _ _ _ _ := trivial
  land _ := trivial
  write _ _ _ _ _ _ := trivial
  reg _ _ _ := trivial
  pc _ _ := trivial
  flags _ _ := trivial
  ivr _ _ := trivial

theorem stepClosed_true : StepClosed fun _ _ => True where
  toExecClosed := execClosed_true
  ie _ _ := trivial
  pend _ _ := trivial
  fill _ _ _ _ := trivial

/-- An outcome of which any relation is known is no refusal. -/
theorem OutcomeRel.ne_refused {R : State → State → Prop} {s : State} {o : Host.Outcome State Fault Refusal}
    (h : OutcomeRel R s o) (x : Refusal) : o ≠ .refused x := by
  rintro rfl
  exact h

/-- Settles O52: every instruction and every step has an outcome that relations speak of, and a refusal has none. -/
theorem dispatchNeverRefuses : Obligations.DispatchNeverRefuses :=
  ⟨fun i s => (exec_result execClosed_true i (fun _ _ _ => trivial) s).ne_refused,
    fun s => (step_result stepClosed_true s).ne_refused⟩

/-! ## Fetch bytes and the fetch port (O13, O15) -/

section
variable {s : State} (hq : s.Quiet)
include hq

theorem fetchByte_not_executable {p : Nat} (h : s.inArray p = true) (hx : (s.permsAt p).x = false) :
    fetchByte s p = .error (.permission p .execute s) := by
  simp only [fetchByte, land_quiet hq, h, hx]
  rfl

/-- A fetch byte leaves a quiet state as it was. -/
theorem fetchByte_leaves_quiet (p : Nat) : Leaves (· = s) (fetchByte s p) := by
  simp only [fetchByte, land_quiet hq]
  split
  · rfl
  · split <;> rfl

variable (hv : s.vmr = 0)
include hv

theorem fetchBytes_leaves_physical (n a : Nat) : Leaves (· = s) (fetchBytes n a s) := by
  induction n generalizing a with
  | zero => rfl
  | succ n ih =>
    rw [fetchBytes, fetchAddress_physical hv, ok_bind]
    refine (fetchByte_leaves_quiet hq a).bind fun b t ht => ?_
    subst ht
    exact (ih (a + 1)).bind fun bs u hu => hu

/-- With translation off, a fetch leaves a quiet state as it was, whether it answers or faults. -/
theorem fetch_leaves_physical (a : Nat) : Leaves (· = s) (fetch a s) := by
  rw [fetch, fetchFirst_physical hv]
  refine (fetchByte_leaves_quiet hq a).bind fun b0 t ht => ?_
  subst ht
  dsimp only
  split
  · rfl
  · rw [fetchRest_physical hv]
    refine (fetchBytes_leaves_physical hq hv _ _).bind fun bs u hu => ?_
    dsimp only
    split <;> exact hu

end

/-- Settles O15: each of the three cases is a branch of `fetchByte`. -/
theorem fetchByteReadsExecutableCells : Obligations.FetchByteReadsExecutableCells := by
  unfold Obligations.FetchByteReadsExecutableCells
  intro s p hq
  have harray : s.inArray p = true ↔ s.params.memoryStart ≤ p ∧ p < s.params.memoryEnd := by
    rw [State.inArray, decide_eq_true_eq]
  refine ⟨fun hout => ?outside, fun hin hx => ?denied, fun hin hx => ?read⟩
  case outside => exact fetchByte_outside hq (Bool.eq_false_iff.2 (mt harray.1 hout))
  case denied => exact fetchByte_not_executable hq (harray.2 hin) hx
  case read =>
    refine fetchByte_quiet hq ⟨hin.1, hin.2, fun k hk => ?_⟩
    rw [Nat.lt_one_iff.1 hk]
    exact hx

/-- Settles O13: a fetch is landing points and TLB fills, and with translation off it fills nothing. -/
theorem fetchPortChangesOnlyTlb : Obligations.FetchPortChangesOnlyTlb := by
  unfold Obligations.FetchPortChangesOnlyTlb
  intro s a hq
  refine ⟨rfl, fun x t h => ?answers, fun r h => ?faults⟩
  all_goals
    rw [fetchInstructionAtAddress] at h
    have hrel := fetch_rel onlyTlb_closed a s
    have hoff := fun hv => fetch_leaves_physical hq hv a
    rw [h] at hrel hoff
    exact ⟨hrel hq, fun hv => congrArg State.tlb (hoff hv)⟩

/-! ## What a fetch answers (O7) -/

/-- The instruction a fetch answers was decoded from a word of the form the first byte selects, and the next address is
past that form's bytes (40_step_and_fetch.md R152). -/
theorem fetch_ok {s t : State} {a : Nat} {i : Instr} {next : Word} (h : fetch a s = .ok ((i, next), t)) :
    ∃ b0 F w, s.params.codec.formOf b0 = some F ∧ s.params.codec.decodeWord F b0 w = .ok i ∧
      next = BitVec.ofNat 32 (a + F.length) := by
  obtain ⟨⟨b0, u⟩, -, h⟩ := bind_ok h
  dsimp only at h
  split at h
  · cases h
  · rename_i F hF
    obtain ⟨⟨bs, w⟩, -, h⟩ := bind_ok h
    dsimp only at h
    split at h
    · rename_i j hd
      cases h
      exact ⟨b0, F, _, hF, hd, rfl⟩
    · cases h
    · cases h

theorem ofNat_pc_add (s : State) (n : Nat) : BitVec.ofNat 32 (s.pc.toNat + n) = s.pc + BitVec.ofNat 32 n := by
  rw [BitVec.ofNat_add, BitVec.ofNat_toNat, BitVec.setWidth_eq]

/-- The next address is I plus the instruction's length (40_step_and_fetch.md R151). -/
theorem fetch_next {s t : State} (hc : s.params.codec.Ok) {i : Instr} {next : Word}
    (h : fetch s.pc.toNat s = .ok ((i, next), t)) : next = s.pc + BitVec.ofNat 32 i.length := by
  obtain ⟨b0, F, w, hF, hd, rfl⟩ := fetch_ok h
  rw [hc.length_of_decodeWord hF hd, ofNat_pc_add]

/-- Settles O7: a fetch answers the next address, and a physical fetch decodes the cells at I. -/
theorem stepRunsDecodedInstruction : Obligations.StepRunsDecodedInstruction := by
  unfold Obligations.StepRunsDecodedInstruction
  refine ⟨fun s t i next hp h => ⟨fetch_next hp.codec h, step_of_fetch h⟩, fun s n i hp hq hv hcells hdec => ?_⟩
  obtain ⟨b0, tl, F, hbytes, hF, hl, hd⟩ := Codec.decode_all hdec
  rw [bytesAt_length] at hl
  subst hl
  have hpos := (hp.codec.forms F (Codec.formOf_mem hF)).length_pos
  have hb0 : s.byteAt s.pc.toNat = b0 := by
    obtain ⟨n, hn⟩ := Nat.exists_eq_add_of_le' hpos
    rw [hn] at hbytes
    exact (List.cons.inj hbytes).1
  subst hb0
  have hfetch : fetch s.pc.toNat s = .ok ((i, BitVec.ofNat 32 (s.pc.toNat + F.length)), s) := by
    rw [fetch_physical hq hv hF hpos hcells, hd]
  refine ⟨(hp.codec.length_of_decodeWord hF hd).symm, ?_⟩
  rw [step_of_fetch hfetch, fetch_next hp.codec hfetch]

/-! ## Fetches that do not decode (O16) -/

theorem fetchFirst_pc {s t : State} {a : Nat} {b : Byte} (h : fetchFirst a s = .ok (b, t)) : t.pc = s.pc := by
  have hrel := fetchFirst_rel keepsUnit_closed a s
  rw [h] at hrel
  exact hrel.1.pc

theorem fetchRest_pc {s t : State} {a n : Nat} {bs : List Byte} (h : fetchRest a n s = .ok (bs, t)) : t.pc = s.pc := by
  have hrel := fetchRest_rel keepsUnit_closed a n s
  rw [h] at hrel
  exact hrel.1.pc

/-- Fetching past the last cell stops at MEMORY_END (40_step_and_fetch.md R155). -/
theorem fetchBytes_past_end {s : State} (hq : s.Quiet) (hv : s.vmr = 0) {n a k : Nat} (hk : k < n)
    (hend : a + k = s.params.memoryEnd) (hcells : CellsAllow s .execute a k) :
    fetchBytes n a s = .error (.bounds s.params.memoryEnd 1 s) := by
  induction n generalizing a k with
  | zero => omega
  | succ n ih =>
    rw [fetchBytes, fetchAddress_physical hv, ok_bind]
    cases k with
    | zero =>
      obtain rfl : a = s.params.memoryEnd := hend
      have hout : s.inArray s.params.memoryEnd = false := by
        rw [State.inArray, decide_eq_false_iff_not]
        omega
      simp only [fetchByte_outside hq hout, error_bind]
    | succ k =>
      simp only [fetchByte_quiet hq (hcells.mono (Nat.le_refl a) (by omega)), ok_bind]
      rw [ih (k := k) (by omega) (by omega) (hcells.mono (by omega) (by omega)), error_bind]

/-- A quiet physical fetch of an instruction that runs past MEMORY_END. -/
theorem fetch_past_end {s : State} (hq : s.Quiet) (hv : s.vmr = 0) {a k : Nat} {F : FormRow}
    (hF : s.params.codec.formOf (s.byteAt a) = some F) (hpos : 1 ≤ k) (hk : k < F.length)
    (hend : a + k = s.params.memoryEnd) (hcells : CellsAllow s .execute a k) :
    fetch a s = .error (.bounds s.params.memoryEnd 1 s) := by
  have hrest : fetchBytes (F.length - 1) (a + 1) s = .error (.bounds s.params.memoryEnd 1 s) :=
    fetchBytes_past_end hq hv (k := k - 1) (by omega) (by omega) (hcells.mono (by omega) (by omega))
  rw [fetch, fetchFirst_physical hv, fetchByte_quiet hq (hcells.mono (Nat.le_refl a) (by omega)), ok_bind]
  simp only [hF, fetchRest_physical hv, hrest, error_bind]

/-- Settles O16: a fetch stops where phase 1 finds no form, where the word is malformed, and past the last cell. -/
theorem undecodableFetchFaults : Obligations.UndecodableFetchFaults := by
  unfold Obligations.UndecodableFetchFaults
  refine ⟨fun s t a b0 hfirst => ⟨fun hnone => ?invalid, fun F x bs u hF hrest hx hwidth => ?malformed⟩,
    fun s a b0 hp hq hv hcell hb0 => ⟨fun hnone => ?quietInvalid, fun F hF =>
      ⟨fun x hcells hx hwidth => ?quietMalformed, fun k hk hend hcells => ?pastEnd⟩⟩⟩
  case invalid => exact ⟨fetch_invalid hnone hfirst, fetchFirst_pc hfirst⟩
  case malformed =>
    exact ⟨fetch_malformed hF hfirst hrest (Codec.decodeWord_illegal (FormRow.widthLegal_eq_false hx hwidth)),
      (fetchRest_pc hrest).trans (fetchFirst_pc hfirst)⟩
  all_goals subst hb0
  case quietInvalid => exact fetch_physical_invalid hq hv hcell hnone
  case quietMalformed =>
    have hpos := (hp.codec.forms F (Codec.formOf_mem hF)).length_pos
    rw [fetch_physical hq hv hF hpos hcells, Codec.decodeWord_illegal (FormRow.widthLegal_eq_false hx hwidth)]
  case pastEnd =>
    obtain ⟨-, hlast, -⟩ := hcell
    exact fetch_past_end hq hv hF (by omega) hk hend hcells

end Sys2Proof.Machine

namespace Sys2Proof.Machine

/-! ## Fetch under translation (O8, O9)

A quiet translated fetch is followed through its phases with `FilledOn`: the TLB it has filled so far, over the
addresses it has looked up. -/

/-- The addresses of an instruction's bytes after its first are those at offsets `1` to `n - 1`. -/
theorem forall_mem_rest {P : Nat → Prop} {a n : Nat} :
    (∀ x ∈ List.range' (a + 1) (n - 1), P x) ↔ ∀ k, 1 ≤ k → k < n → P (a + k) := by
  simp only [List.mem_range'_1]
  refine ⟨fun h k h1 h2 => h (a + k) (by omega), fun h x hx => ?_⟩
  have := h (x - a) (by omega) (by omega)
  rwa [show a + (x - a) = x by omega] at this

theorem find?_only {p : Nat → Bool} {a : Nat} (h : p a = true) : [a].find? p = some a := by
  rw [List.find?_singleton, if_pos h]

/-- The lowest offset of these at which something holds. -/
theorem find?_rest {p : Nat → Bool} {a n k : Nat} (h1 : 1 ≤ k) (hk : k < n) (hp : p (a + k) = true)
    (hbefore : ∀ j, 1 ≤ j → j < k → p (a + j) = false) :
    (List.range' (a + 1) (n - 1)).find? p = some (a + k) := by
  refine List.find?_range'_eq_some.2 ⟨hp, List.mem_range'_1.2 (by omega), fun x hx hxk => ?_⟩
  have := hbefore (x - a) (by omega) (by omega)
  rw [show a + (x - a) = x by omega] at this
  rw [this]
  rfl

namespace FilledOn
variable {s t : State} {A B : List Nat}

/-- Only which addresses were filled matters. -/
theorem congr (h : FilledOn s t A) (hAB : ∀ x, x ∈ A ↔ x ∈ B) : FilledOn s t B := by
  have hsub : ∀ {P : Nat → Prop}, (∀ x ∈ B, P x) → ∀ x ∈ A, P x := fun hB x hx => hB x ((hAB x).1 hx)
  exact ⟨h.only, h.rising, fun x hx => h.filled x ((hAB x).2 hx), fun x hx => h.others x (hsub hx),
    fun hx => h.same (hsub hx)⟩

theorem priv (h : FilledOn s t A) : t.priv = s.priv := by rw [h.only]; rfl
theorem vmr (h : FilledOn s t A) : t.vmr = s.vmr := by rw [h.only]; rfl

theorem tlbFilled_range {a n : Nat} (h : FilledOn s t (List.range' a n)) : TlbFilled s t a n := by
  refine h.tlbFilled (fun k hk => List.mem_range'_1.2 (by omega)) fun x hx => ?_
  simpa using List.mem_range'.1 hx

end FilledOn

/-- The access check of a list of addresses over the entries a quiet fetch from `s` uses for them. -/
def State.checkAccess (s : State) (l : List Nat) (t : State) : Except Fault State :=
  checkEntries s.priv (l.map fun a => (a, s.entryAt a)) (l.map fun a => (a, s.entryAt a)) t

/-- The byte that a quiet translated fetch reads at a virtual address: its entry can be had, and it is in an executable
cell (40_step_and_fetch.md R152, R153). -/
structure FetchesByte (s : State) (va : Nat) (b : Byte) : Prop where
  readable : EntryReadable s va
  cell     : CellsAllow s .execute (s.physicalAt va) 1
  value    : s.byteAt (s.physicalAt va) = b

section
variable {s t : State} (hI : Inv s) (hq : s.Quiet) (hv : s.vmr ≠ 0)
include hI hq hv

theorem FilledOn.validateAccess_checked {A : List Nat} (h : FilledOn s t A) {l : List Nat}
    (hr : ∀ x ∈ l, EntryReadable s x) :
    ∃ u, FilledOn s u (l ++ A) ∧ validateAccess t.priv l [] t.vmr t = s.checkAccess l u := by
  obtain ⟨u, hu, hcheck⟩ := h.validateAccess_eq hI hq hv l hr
  rw [h.priv, h.vmr]
  exact ⟨u, hu.congr fun x => by simp, hcheck⟩

theorem FilledOn.fetchByte_translated {A : List Nat} (h : FilledOn s t A) {va : Nat} {b : Byte}
    (hb : FetchesByte s va b) :
    ∃ u, fetchAddress va t = .ok (s.physicalAt va, u) ∧ fetchByte u (s.physicalAt va) = .ok (b, u) ∧
      FilledOn s u (va :: A) := by
  obtain ⟨u, haddr, hu⟩ := h.fetchAddress_eq hI hq hv hb.readable
  exact ⟨u, haddr, hb.value ▸ hu.fetchByte_eq hq hb.cell, hu.congr fun x => by simp⟩

theorem FilledOn.fetchBytes_translated {A : List Nat} (h : FilledOn s t A) {bs : List Byte} {va : Nat}
    (hbs : ∀ k b, bs[k]? = some b → FetchesByte s (va + k) b) :
    ∃ u, fetchBytes bs.length va t = .ok (bs, u) ∧ FilledOn s u (List.range' va bs.length ++ A) := by
  induction bs generalizing t A va with
  | nil => exact ⟨t, rfl, h⟩
  | cons b bs ih =>
    obtain ⟨u, haddr, hbyte, hu⟩ := h.fetchByte_translated hI hq hv (va := va) (hbs 0 b rfl)
    obtain ⟨w, hrest, hw⟩ := ih hu (va := va + 1) fun k c hk => by
      rw [Nat.add_assoc, Nat.add_comm 1 k]
      exact hbs (k + 1) c hk
    refine ⟨w, ?_, hw.congr fun x => ?_⟩
    · rw [List.length_cons, fetchBytes, haddr, ok_bind]
      simp only [hbyte, ok_bind, hrest]
      rfl
    · simp [List.range'_succ, or_left_comm]

/-! ### The two phases -/

/-- Phase 1 looks up the page of the first byte. -/
theorem firstPage_checked {a : Nat} (hr : EntryReadable s a) :
    ∃ u, FilledOn s u [a] ∧ validateAccess s.priv [a] [] s.vmr s = s.checkAccess [a] u :=
  (FilledOn.start hI).validateAccess_checked hI hq hv (List.forall_mem_singleton.2 hr)

theorem fetchFirst_translated {a : Nat} {b : Byte} (hp : EntryPermits s.priv (s.entryAt a)) (hb : FetchesByte s a b) :
    ∃ u, fetchFirst a s = .ok (b, u) ∧ FilledOn s u [a] := by
  obtain ⟨u, hu, hcheck⟩ := firstPage_checked hI hq hv hb.readable
  obtain ⟨w, haddr, hbyte, hw⟩ := hu.fetchByte_translated hI hq hv hb
  refine ⟨w, ?_, hw.congr fun x => by simp⟩
  rw [fetchFirst, hcheck, State.checkAccess, checkEntries_ok (List.forall_mem_singleton.2 hp), ok_bind, haddr, ok_bind]
  exact hbyte

/-- Phase 2 checks the pages of the other bytes before it reads any of them. -/
theorem fetchRest_checked {a n : Nat} (h : FilledOn s t [a]) (hn : 1 < n)
    (hr : ∀ k, 1 ≤ k → k < n → EntryReadable s (a + k)) :
    ∃ u, FilledOn s u (List.range' a n) ∧
      fetchRest a n t = s.checkAccess (List.range' (a + 1) (n - 1)) u >>= fetchBytes (n - 1) (a + 1) := by
  obtain ⟨u, hu, hcheck⟩ := h.validateAccess_checked hI hq hv (forall_mem_rest.2 hr)
  refine ⟨u, hu.congr fun x => ?_, by rw [fetchRest, if_neg (Nat.not_le.2 hn), hcheck]⟩
  simp only [List.mem_append, List.mem_range'_1, List.mem_singleton]
  omega

theorem fetchRest_translated {a : Nat} {bs : List Byte} (h : FilledOn s t [a])
    (hbs : ∀ k b, bs[k]? = some b → EntryPermits s.priv (s.entryAt (a + 1 + k)) ∧ FetchesByte s (a + 1 + k) b) :
    ∃ u, fetchRest a (bs.length + 1) t = .ok (bs, u) ∧ FilledOn s u (List.range' a (bs.length + 1)) := by
  cases hnil : bs with
  | nil => exact ⟨t, rfl, h⟩
  | cons b tl =>
    rw [← hnil]
    have hpos : 1 < bs.length + 1 := by rw [hnil]; simp
    have hbyte : ∀ k, 1 ≤ k → k < bs.length + 1 →
        EntryPermits s.priv (s.entryAt (a + k)) ∧ EntryReadable s (a + k) := fun k h1 hk => by
      obtain ⟨hp, hb⟩ := hbs (k - 1) _ (List.getElem?_eq_getElem (by omega))
      rw [show a + 1 + (k - 1) = a + k by omega] at hp hb
      exact ⟨hp, hb.readable⟩
    obtain ⟨u, hu, hrest⟩ := fetchRest_checked hI hq hv h hpos fun k h1 hk => (hbyte k h1 hk).2
    obtain ⟨w, hbytes, hw⟩ := hu.fetchBytes_translated hI hq hv (va := a + 1) fun k b hk => (hbs k b hk).2
    refine ⟨w, ?_, hw.congr fun x => ?_⟩
    · rw [hrest, State.checkAccess, checkEntries_ok (forall_mem_rest.2 fun k h1 hk => (hbyte k h1 hk).1), ok_bind]
      exact hbytes
    · simp only [List.mem_append, List.mem_range'_1]
      omega

end

/-! ### The step that runs what it fetched (O8) -/

theorem fetch_decoded {s t u : State} {a : Nat} {b0 : Byte} {bs : List Byte} {F : FormRow} {i : Instr}
    (hfirst : fetchFirst a s = .ok (b0, t)) (hF : s.params.codec.formOf b0 = some F)
    (hrest : fetchRest a F.length t = .ok (bs, u)) (hd : s.params.codec.decodeWord F b0 (beValue (b0 :: bs)) = .ok i) :
    fetch a s = .ok ((i, BitVec.ofNat 32 (a + F.length)), u) := by
  simp only [fetch, hfirst, ok_bind, hF, hrest, hd]

/-- Settles O8: both phases pass their checks and read the bytes that decode to the instruction. -/
theorem translatedStepRunsDecodedInstruction : Obligations.TranslatedStepRunsDecodedInstruction := by
  unfold Obligations.TranslatedStepRunsDecodedInstruction
  rintro s n i bs hI hq hv rfl hentry hcell hdec
  have hc := hI.params.codec
  obtain ⟨b0, tl, F, rfl, hF, hl, hd⟩ := Codec.decode_all hdec
  have hbyte : ∀ k b, (b0 :: tl)[k]? = some b →
      EntryPermits s.priv (s.entryAt (s.pc.toNat + k)) ∧ FetchesByte s (s.pc.toNat + k) b := fun k b hk => by
    obtain ⟨hlt, -⟩ := List.getElem?_eq_some_iff.1 hk
    obtain ⟨hr, hp⟩ := hentry k hlt
    obtain ⟨hcells, hvalue⟩ := hcell k hlt
    exact ⟨hp, hr, hcells, Option.some.inj (hvalue.symm.trans hk)⟩
  obtain ⟨hp0, hb0⟩ := hbyte 0 b0 rfl
  obtain ⟨t, hfirst, ht⟩ := fetchFirst_translated hI hq hv (a := s.pc.toNat) hp0 hb0
  obtain ⟨u, hrest, hu⟩ := fetchRest_translated hI hq hv ht (bs := tl) fun k b hk => by
    rw [Nat.add_assoc, Nat.add_comm 1 k]
    exact hbyte (k + 1) b hk
  have hfetch := fetch_decoded hfirst hF (by rw [hl]; exact hrest) hd
  refine ⟨u, hu.tlbFilled_range, fun hheld => hu.same fun x hx => ?_, ?_⟩
  · obtain ⟨k, hk, rfl⟩ := List.mem_range'.1 hx
    rw [Nat.one_mul]
    exact hheld k hk
  · rw [step_of_fetch hfetch, fetch_next hc hfetch]

/-! ### The step that an access check stops (O9) -/

section
variable {s t : State} {r : Fault}

theorem step_fetchFirst_error (h : fetchFirst s.pc.toNat s = .error r) : step s = .fault r :=
  step_fetch_error (by rw [fetch, h, error_bind])

theorem step_fetchRest_error {b0 : Byte} {F : FormRow} (hfirst : fetchFirst s.pc.toNat s = .ok (b0, t))
    (hF : s.params.codec.formOf b0 = some F) (hrest : fetchRest s.pc.toNat F.length t = .error r) : step s = .fault r :=
  step_fetch_error (by simp only [fetch, hfirst, ok_bind, hF, hrest, error_bind])

variable (hI : Inv s) (hq : s.Quiet) (hv : s.vmr ≠ 0)
include hq hv

/-- An entry that cannot be had stops phase 1 with the fault of its read (20_memory.md R76). -/
theorem step_entry_unreadable (hr : ¬EntryReadable s s.pc.toNat) :
    ∃ r, step s = .fault r ∧ AccessFault .read s (tableEntryAddress s.vmr s.pc.toNat) 2 r := by
  have hva : s.pc.toNat < 2 ^ 32 := s.pc.isLt
  have hmiss : s.tlbLookup s.pc.toNat = none :=
    Option.not_isSome_iff_eq_none.1 fun hheld => hr ⟨hva, .inl hheld⟩
  obtain ⟨r, hentry, hfault⟩ := tableEntry_unreadable hq hva hmiss fun hacc => hr ⟨hva, .inr hacc⟩
  refine ⟨r, step_fetchFirst_error ?_, hfault⟩
  have hentries : tableEntries s.vmr [s.pc.toNat] s = .error r := by rw [tableEntries, hentry, error_bind]
  rw [fetchFirst, validateAccess_unreadable hv (by simpa using hentries), error_bind]

include hI

/-- What the check of the first page raises stops the step, with that page's entry in the TLB. -/
theorem step_stopped_first (hr : EntryReadable s s.pc.toNat) {fault : State → Fault}
    (hcheck : ∀ t, s.checkAccess [s.pc.toNat] t = .error (fault t)) :
    ∃ t, TlbFilled s t s.pc.toNat 1 ∧ step s = .fault (fault t) := by
  obtain ⟨u, hu, hfirst⟩ := firstPage_checked hI hq hv hr
  exact ⟨u, FilledOn.tlbFilled_range hu, step_fetchFirst_error (by rw [fetchFirst, hfirst, hcheck, error_bind])⟩

/-- What the check of the other pages raises stops the step, with the entries of all pages in the TLB. -/
theorem step_stopped_rest {b0 : Byte} {F : FormRow} (hp : EntryPermits s.priv (s.entryAt s.pc.toNat))
    (hb : FetchesByte s s.pc.toNat b0) (hF : s.params.codec.formOf b0 = some F) (hl : 1 < F.length)
    (hr : ∀ k < F.length, EntryReadable s (s.pc.toNat + k)) {fault : State → Fault}
    (hcheck : ∀ t, s.checkAccess (List.range' (s.pc.toNat + 1) (F.length - 1)) t = .error (fault t)) :
    ∃ t, TlbFilled s t s.pc.toNat F.length ∧ step s = .fault (fault t) := by
  obtain ⟨t, hfirst, ht⟩ := fetchFirst_translated hI hq hv hp hb
  obtain ⟨u, hu, hrest⟩ := fetchRest_checked hI hq hv ht hl fun k _ hk => hr k hk
  exact ⟨u, hu.tlbFilled_range, step_fetchRest_error hfirst hF (by rw [hrest, hcheck, error_bind])⟩

end

/-- Settles O9: each phase makes its check before it reads, and the check makes its three passes in order. -/
theorem translatedStepMakesAccessCheck : Obligations.TranslatedStepMakesAccessCheck := by
  unfold Obligations.TranslatedStepMakesAccessCheck
  intro s hI hq hv a e stops
  refine ⟨fun hr => ?first, step_entry_unreadable hq hv, fun F hp hcell hF hr k h1 hk => ?rest⟩
  case first =>
    refine ⟨fun hE => ?_, fun hE hA => ?_, fun hE hA hP hpriv => ?_⟩ <;>
      refine step_stopped_first hI hq hv hr fun t => ?_
    · exact checkEntries_noExecute (find?_only ((Bool.not_eq_true' _).mpr hE))
    · exact checkEntries_pageNotAvailable (e := s.entryAt) (List.forall_mem_singleton.2 hE)
        (find?_only ((Bool.not_eq_true' _).mpr hA))
    · exact checkEntries_accessDenied (e := s.entryAt) (List.forall_mem_singleton.2 hE) (List.forall_mem_singleton.2 hA)
        hpriv (find?_only hP)
  case rest =>
    have hb : FetchesByte s a (s.byteAt (s.physicalAt a)) := ⟨hr 0 (by omega), hcell, rfl⟩
    refine ⟨fun hE hbefore => ?_, fun hE hA hbefore => ?_, fun hEA hpriv hP hbefore => ?_⟩ <;>
      refine step_stopped_rest hI hq hv hp hb hF (by omega) hr fun t => ?_
    · exact checkEntries_noExecute (find?_rest h1 hk ((Bool.not_eq_true' _).mpr hE) fun j h1 hj =>
        (Bool.not_eq_false' _).mpr (hbefore j h1 hj))
    · exact checkEntries_pageNotAvailable (forall_mem_rest.2 hE)
        (find?_rest h1 hk ((Bool.not_eq_true' _).mpr hA) fun j h1 hj =>
          (Bool.not_eq_false' _).mpr (hbefore j h1 hj))
    · exact checkEntries_accessDenied (forall_mem_rest.2 fun j h1 hj => (hEA j h1 hj).1)
        (forall_mem_rest.2 fun j h1 hj => (hEA j h1 hj).2) hpriv (find?_rest h1 hk hP hbefore)

end Sys2Proof.Machine

namespace Sys2Proof.Machine

/-! ## I and FLAGS through an instruction (O55, O57)

An instruction redirects I and commits FLAGS last, once everything that can fault has been done. -/

/-- I and FLAGS as before. -/
structure KeepsStatus (s t : State) : Prop where
  pc    : t.pc = s.pc
  flags : t.flags = s.flags

namespace KeepsStatus
variable {s t u : State} {r : Fault}

theorem trans (h : KeepsStatus s t) (g : KeepsStatus t u) : KeepsStatus s u :=
  ⟨g.pc.trans h.pc, g.flags.trans h.flags⟩

theorem land (s : State) : KeepsStatus s (land s) := ⟨land_pc s, land_flags s⟩

theorem setReg (s : State) (q : Reg) (v : Word) : KeepsStatus s (s.setReg q v) := ⟨rfl, rfl⟩

/-! What each operation answers with. -/

theorem memRead {a n v : Nat} (h : memRead s a n = .ok (v, t)) : KeepsStatus s t := by
  obtain ⟨-, -, -, rfl⟩ := (memRead_ok_iff _ _ _ _ _).1 h
  exact land s

theorem memWrite {a n v : Nat} (h : memWrite s a n v = .ok t) : KeepsStatus s t := by
  obtain ⟨-, -, -, rfl⟩ := (memWrite_ok_iff _ _ _ _ _).1 h
  exact (land s).trans ⟨written_pc _ _ _ _ _, written_flags _ _ _ _ _⟩

theorem push {v : Word} (h : push s v = .ok t) : KeepsStatus s t :=
  (setReg s _ _).trans (memWrite h)

theorem popInto {q : Reg} (h : popInto s q = .ok t) : KeepsStatus s t := by
  obtain ⟨-, u, rfl, rfl⟩ := popInto_ok h
  exact ((land s).trans (setReg _ _ _)).trans (setReg _ _ _)

/-! What each operation leaves where it faults. -/

theorem memRead_fault {a n : Nat} (h : Machine.memRead s a n = .error r) : KeepsStatus s r.left := by
  rw [memRead_error_left h]
  exact land s

theorem memWrite_fault {a n v : Nat} (h : Machine.memWrite s a n v = .error r) : KeepsStatus s r.left := by
  rw [memWrite_error_left h]
  exact land s

theorem push_fault {v : Word} (h : Machine.push s v = .error r) : KeepsStatus s r.left :=
  (setReg s _ _).trans (memWrite_fault h)

theorem popInto_fault {q : Reg} (h : Machine.popInto s q = .error r) : KeepsStatus s r.left := by
  rw [popInto_error_left h]
  exact land s

theorem callTo_fault {v : Word} (h : callTo s v = .error r) : KeepsStatus s r.left := by
  rcases bind_error h with h | ⟨u, -, h⟩
  · exact push_fault h
  · cases h

theorem enterHandler_fault {v : Word} (h : enterHandler false v s = .error r) : KeepsStatus s r.left := by
  rcases bind_error h with h | ⟨_, hs, h⟩
  · cases h
  · cases hs
    rcases bind_error h with h | ⟨⟨x, u⟩, hu, h⟩
    · exact memRead_fault h
    · exact (memRead hu).trans (callTo_fault h)

theorem returnFromInterrupt_fault (h : returnFromInterrupt s = .error r) : KeepsStatus s r.left := by
  rcases bind_error h with h | ⟨u, hu, h⟩
  · exact popInto_fault h
  · rcases bind_error h with h | ⟨w, -, h⟩
    · exact (popInto hu).trans (popInto_fault h)
    · cases h

end KeepsStatus

theorem commit_fault {x : Except Fault (State × FlagBits)} {r : Fault} (h : commit x = .fault r) : x = .error r := by
  cases x with
  | ok p => cases h
  | error e => cases h; rfl

theorem commitZero_fault {x : Except Fault State} {r : Fault} (h : commitZero x = .fault r) : x = .error r := by
  cases x with
  | ok t => cases h
  | error e => cases h; rfl

section
variable {s : State} {r : Fault}

theorem divideOp_fault {o : Operand} {d : Reg} (h : divideOp o d s = .fault r) : KeepsStatus s r.left := by
  have h := commitZero_fault h
  split at h <;> cases h
  exact ⟨rfl, rfl⟩

theorem softwareInt_fault {o : Operand} (h : softwareInt o s = .fault r) : KeepsStatus s r.left := by
  have h := commitZero_fault h
  split at h
  · exact .enterHandler_fault h
  · cases h

/-- An instruction that reads memory first and then cannot fault. -/
theorem commitZero_memRead_fault {a n : Nat} {f : Nat × State → State}
    (h : commitZero (memRead s a n >>= fun p => .ok (f p)) = .fault r) : KeepsStatus s r.left := by
  rcases bind_error (commitZero_fault h) with h | ⟨_, -, h⟩
  · exact .memRead_fault h
  · cases h

theorem conditionalStore_fault {m : FlagBits} {o : Operand} (h : conditionalStore m o s = .fault r) :
    KeepsStatus s r.left := by
  rw [conditionalStore_eq] at h
  rcases bind_error (commit_fault h) with h | ⟨⟨x, u⟩, hu, h⟩
  · exact .memRead_fault h
  · rcases bind_error h with h | ⟨_, -, h⟩
    · split at h
      · exact ((KeepsStatus.memRead hu).trans (.setReg _ _ _)).trans (.memWrite_fault h)
      · cases h
    · cases h

/-- An instruction that faults has neither redirected I nor committed FLAGS. -/
theorem exec_fault {i : Instr} (h : exec i s = .fault r) : KeepsStatus s r.left := by
  cases i
  case divReg | divImm => exact divideOp_fault h
  case callReg | callImm => exact .callTo_fault (commitZero_fault h)
  case pushReg | pushImm => exact .push_fault (commitZero_fault h)
  case popReg => exact .popInto_fault (commitZero_fault h)
  case intReg | intImm => exact softwareInt_fault h
  case sfstorReg | sfstorImm => exact conditionalStore_fault h
  case memrRegReg | memrImmReg | ret => exact commitZero_memRead_fault h
  case memwRegReg | memwImmReg | memwRegImm | memwImmImm => exact .memWrite_fault (commitZero_fault h)
  case hiret => exact .returnFromInterrupt_fault (commit_fault h)
  all_goals cases h

end

/-! ### What a completing instruction commits (O55) -/

section
variable {s t : State}

theorem commitZero_flags {x : Except Fault State} (h : commitZero x = .next t) : t.flags = 0 := by
  obtain ⟨u, -, rfl⟩ := commitZero_next h
  rfl

theorem compareOp_flags {o : Operand} {d : Reg} (h : compareOp o d s = .next t) :
    t.flags = codeOf (o.value s).toNat (s.reg d).toNat := by
  cases h
  exact compareCode_eq_codeOf _ _

theorem codeOf_cases (v m : Nat) : codeOf v m = 0b100 ∨ codeOf v m = 0b010 ∨ codeOf v m = 0b001 := by
  unfold codeOf
  split
  · exact .inl rfl
  · split
    · exact .inr (.inl rfl)
    · exact .inr (.inr rfl)

theorem conditionalStore_flags {m : FlagBits} {o : Operand} (h : conditionalStore m o s = .next t) :
    t.flags = 0b100 ∨ t.flags = 0b010 ∨ t.flags = 0b001 := by
  rw [conditionalStore_eq] at h
  obtain ⟨u, f, hu, rfl⟩ := commit_next h
  obtain ⟨⟨x, w⟩, -, hu⟩ := bind_ok hu
  obtain ⟨y, -, hu⟩ := bind_ok hu
  cases hu
  rw [State.setFlags_flags, compareCode_eq_codeOf]
  exact codeOf_cases _ _

/-- A quiet pop into A reads the word at S and lowers S by 4 (42_control.md R213). -/
theorem popInto_A_quiet (hq : s.Quiet) (h : popInto s .A = .ok t) :
    (t.reg .A).toNat = s.valueAt (s.reg .S).toNat 4 ∧ t.reg .S = s.reg .S - 4 := by
  obtain ⟨-, u, rfl, rfl⟩ := popInto_ok h
  rw [land_quiet hq]
  exact ⟨valueAt4_toNat _ _, rfl⟩

/-- HIRET returns the low bits of the second word it pops (43_system.md R233). -/
theorem execHiret_flags (hq : s.Quiet) (h : execHiret s = .next t) :
    t.flags.toNat = s.valueAt (s.reg .S - 4).toNat 4 % 8 := by
  obtain ⟨u, f, hu, rfl⟩ := commit_next h
  obtain ⟨x, hx, hu⟩ := bind_ok hu
  obtain ⟨y, hy, hu⟩ := bind_ok hu
  cases hu
  have hbus := popInto_sameBus hq hx
  obtain ⟨-, hS⟩ := popInto_A_quiet hq hx
  obtain ⟨hA, -⟩ := popInto_A_quiet (hbus.agenda.trans hq) hy
  rw [State.setFlags_flags, BitVec.toNat_setWidth, hA, hS, valueAt_congr hbus.params hbus.mem hbus.devices]

end

/-- Settles O55: an instruction's rule returns what is committed, and a fault comes before the commit. -/
theorem flagsAreCommitted : Obligations.FlagsAreCommitted := by
  unfold Obligations.FlagsAreCommitted
  refine fun i s => ⟨fun t h => ?next, fun r h => (exec_fault h).flags⟩
  case next =>
    cases i
    case cmpReg r d => exact compareOp_flags (o := .reg r) h
    case cmpImm v d => exact compareOp_flags (o := .imm v) h
    case sfstorReg | sfstorImm => exact conditionalStore_flags h
    case hiret => exact fun hq => execHiret_flags hq h
    case divReg | divImm | callReg | callImm | pushReg | pushImm | popReg | intReg | intImm | memrRegReg | memrImmReg
        | memwRegReg | memwImmReg | memwRegImm | memwImmImm | ret =>
      exact commitZero_flags h
    all_goals cases h; rfl

/-! ### Which instructions redirect I (O57) -/

section
variable {s t : State}

/-- The commit of FLAGS leaves I where an instruction's rule left it. -/
theorem commitZero_pc {x : Except Fault State} (h : commitZero x = .next t) (hx : ∀ u, x = .ok u → u.pc = s.pc) :
    t.pc = s.pc := by
  obtain ⟨u, hu, rfl⟩ := commitZero_next h
  exact hx u hu

theorem divideOp_pc {o : Operand} {d : Reg} (h : divideOp o d s = .next t) : t.pc = s.pc :=
  commitZero_pc h fun u hu => by split at hu <;> cases hu; rfl

theorem loadOp_pc {w : BitVec 4} {o : Operand} {d : Reg} (h : loadOp w o d s = .next t) : t.pc = s.pc :=
  commitZero_pc h fun u hu => by
    obtain ⟨⟨v, r⟩, hr, hu⟩ := bind_ok hu
    cases hu
    exact (KeepsStatus.memRead hr).pc

theorem conditionalStore_pc {m : FlagBits} {o : Operand} (h : conditionalStore m o s = .next t) : t.pc = s.pc := by
  rw [conditionalStore_eq] at h
  obtain ⟨u, f, hu, rfl⟩ := commit_next h
  obtain ⟨⟨v, r⟩, hr, hu⟩ := bind_ok hu
  obtain ⟨w, hw, hu⟩ := bind_ok hu
  cases hu
  refine Eq.trans ?_ (KeepsStatus.memRead hr).pc
  split at hw
  · exact (KeepsStatus.memWrite hw).pc
  · cases hw; rfl

/-- A JMP or JMPR that leaves the advanced I behind meets its condition (42_control.md R214 to R216). -/
theorem condTrue_of_jump {m : FlagBits} {v : Word}
    (h : commitZero (.ok (if condHolds m s.flags then s.setPc v else s)) = .next t) (hpc : t.pc ≠ s.pc) :
    CondTrue m s.flags := by
  refine (condHolds_iff m s.flags).1 ?_
  by_contra hc
  rw [if_neg hc] at h
  cases h
  exact hpc rfl

/-- An INT that is not taken has no effect (43_system.md R231). -/
theorem softwareInt_taken {o : Operand} (h : softwareInt o s = .next t) (hpc : t.pc ≠ s.pc) : s.ie = true := by
  by_contra hie
  rw [softwareInt, if_neg hie] at h
  cases h
  exact hpc rfl

end

/-- Settles O57: each instruction that may not redirect I leaves it; the others redirect it where they say. -/
theorem onlyControlTransfersMoveI : Obligations.OnlyControlTransfersMoveI := by
  unfold Obligations.OnlyControlTransfersMoveI
  intro i s t h hpc
  cases i
  case callReg | callImm | ret | hiret => trivial
  case jmpReg | jmpImm | jmprReg | jmprImm => exact condTrue_of_jump h hpc
  case intReg | intImm => exact softwareInt_taken h hpc
  all_goals refine hpc ?_
  case divReg | divImm => exact divideOp_pc h
  case pushReg | pushImm => exact commitZero_pc h fun _ hu => (KeepsStatus.push hu).pc
  case popReg => exact commitZero_pc h fun _ hu => (KeepsStatus.popInto hu).pc
  case sfstorReg | sfstorImm => exact conditionalStore_pc h
  case memrRegReg | memrImmReg => exact loadOp_pc h
  case memwRegReg | memwImmReg | memwRegImm | memwImmImm =>
    exact commitZero_pc h fun _ hu => (KeepsStatus.memWrite hu).pc
  all_goals cases h; rfl

end Sys2Proof.Machine

namespace Sys2Proof.Machine

/-! ## The data-processing instructions (41_alu.md R181 to R192; O23 to O30) -/

/-! ### The two forms of an instruction -/

section
variable {i : Instr} {s : State} {d : Reg} {v : Word} {regForm : Reg → Instr} {immForm : Instr}

/-- The register form and the immediate form run one operation on an operand of the same value (41_alu.md R180). -/
theorem exec_form {op : Operand → Host.Outcome State Fault Refusal}
    (h : (∃ r, i = regForm r ∧ v = s.reg r) ∨ i = immForm) (hreg : ∀ r, exec (regForm r) s = op (.reg r))
    (himm : exec immForm s = op (.imm v)) : ∃ o : Operand, exec i s = op o ∧ o.value s = v := by
  rcases h with ⟨r, rfl, rfl⟩ | rfl
  · exact ⟨.reg r, hreg r, rfl⟩
  · exact ⟨.imm v, himm, rfl⟩

/-! ### One destination register -/

theorem writesOnly_setReg (s : State) (d : Reg) (v : Word) : WritesOnly s ((s.setReg d v).setFlags 0) d v where
  result := by rw [State.setFlags_reg, State.reg_setReg_same]
  regs := ((Frame.setReg (List.mem_singleton.2 rfl) s v).congr rfl rfl).regs
  flags := rfl
  pc := rfl
  control := by constructor <;> rfl
  shared := (((SameBus.refl s).setReg d v).setFlags 0).sameShared

theorem dataOp_writesOnly (f : Word → Word → Word) (o : Operand) (d : Reg) (s : State) :
    ∃ t, dataOp f o d s = .next t ∧ WritesOnly s t d (f (s.reg d) (o.value s)) :=
  ⟨_, rfl, writesOnly_setReg s d _⟩

/-- An instruction whose two forms are `dataOp f` completes and writes `f` of the destination and the source. -/
theorem exec_writesOnly {f : Word → Word → Word} (h : (∃ r, i = regForm r ∧ v = s.reg r) ∨ i = immForm)
    (hreg : ∀ r, exec (regForm r) s = dataOp f (.reg r) d s) (himm : exec immForm s = dataOp f (.imm v) d s) :
    ∃ t, exec i s = .next t ∧ WritesOnly s t d (f (s.reg d) v) := by
  obtain ⟨o, he, rfl⟩ := exec_form (op := fun o => dataOp f o d s) h hreg himm
  rw [he]
  exact dataOp_writesOnly f o d s

end

/-! ### The results -/

theorem toNat_sub_word (x y : Word) : ((x - y).toNat : Int) = ((x.toNat : Int) - y.toNat) % 2 ^ 32 := by
  rw [BitVec.toNat_sub]
  omega

/-- The count is not masked: a count of 32 or more leaves a multiple of 2^32 (41_alu.md R187). -/
theorem shiftLeft_toNat (x c : Word) : (shiftLeft x c).toNat = x.toNat * 2 ^ c.toNat % 2 ^ 32 := by
  unfold shiftLeft
  split
  · next h => exact (Nat.mod_eq_zero_of_dvd (Dvd.dvd.mul_left (pow_dvd_pow 2 h) _)).symm
  · rw [BitVec.toNat_shiftLeft, Nat.shiftLeft_eq]

/-- The count is not masked: 2 to a count of 32 or more is above every word (41_alu.md R188). -/
theorem shiftRight_toNat (x c : Word) : (shiftRight x c).toNat = x.toNat / 2 ^ c.toNat := by
  unfold shiftRight
  split
  · next h => exact (Nat.div_eq_of_lt (x.isLt.trans_le (Nat.pow_le_pow_right two_pos h))).symm
  · rw [BitVec.toNat_ushiftRight, Nat.shiftRight_eq_div_pow]

theorem getLsbD_xor_ones (x : Word) {k : Nat} (hk : k < 32) : (x ^^^ 0xFFFFFFFF).getLsbD k = !x.getLsbD k := by
  have hones : (0xFFFFFFFF : Word) = BitVec.allOnes 32 := rfl
  rw [hones, BitVec.xor_allOnes, BitVec.getLsbD_not, decide_eq_true hk, Bool.true_and]

/-- The literal of MUL has no bit below 32, so nothing is left of a word under it (41_alu.md R191). -/
theorem mul_high_literal (n : Nat) : (0xFFFFFFFF00000000 &&& n) % 2 ^ 32 = 0 := by
  rw [Nat.and_mod_two_pow]
  exact Nat.zero_and _

/-! ### A result in A and one in B (MUL and DIV) -/

/-- The frame and the results of an instruction that writes A and B and clears FLAGS: `t` is `s` with A holding `x` and
B holding `y`. -/
structure WritesAB (s t : State) (x y : Word) : Prop where
  a       : t.reg .A = x
  b       : t.reg .B = y
  regs    : RegsExcept s t [.A, .B]
  flags   : t.flags = 0
  pc      : t.pc = s.pc
  control : SameControl s t
  shared  : SameShared s t

theorem writesAB_setReg (s : State) (x y : Word) : WritesAB s (((s.setReg .A x).setReg .B y).setFlags 0) x y where
  a := by rw [State.setFlags_reg, State.reg_setReg_ne _ _ (by decide), State.reg_setReg_same]
  b := by rw [State.setFlags_reg, State.reg_setReg_same]
  regs := (setReg_A_B_frame s x y).regs
  flags := rfl
  pc := rfl
  control := by constructor <;> rfl
  shared := ((((SameBus.refl s).setReg .A x).setReg .B y).setFlags 0).sameShared

theorem multiplyOp_writesAB (o : Operand) (d : Reg) (s : State) :
    ∃ t, multiplyOp o d s = .next t ∧
      WritesAB s t (o.value s * s.reg d) (BitVec.ofNat 32 (0xFFFFFFFF00000000 &&& (s.reg d).toNat)) :=
  ⟨_, rfl, writesAB_setReg s _ _⟩

theorem divideOp_zero {s : State} {d : Reg} (o : Operand) (h : s.reg d = 0) :
    divideOp o d s = .fault (.arithmetic s) := by
  simp only [divideOp, if_pos h, commitZero]

theorem divideOp_writesAB {s : State} {d : Reg} (o : Operand) (h : s.reg d ≠ 0) :
    ∃ t, divideOp o d s = .next t ∧ WritesAB s t (o.value s / s.reg d) (o.value s % s.reg d) := by
  simp only [divideOp, if_neg h, commitZero]
  exact ⟨_, rfl, writesAB_setReg s _ _⟩

/-! ### The obligations -/

/-- Settles O30: the divisor is tested before any write; otherwise A and B hold the quotient and the remainder. -/
theorem divDividesSourceByDestination : Obligations.DivDividesSourceByDestination := by
  unfold Obligations.DivDividesSourceByDestination
  intro s i d v h
  obtain ⟨o, he, rfl⟩ := exec_form (op := fun o => divideOp o d s) h (fun _ => rfl) rfl
  rw [he]
  refine ⟨divideOp_zero o, fun hd => ?_⟩
  obtain ⟨t, ht, hw⟩ := divideOp_writesAB o hd
  exact ⟨t, ht, by rw [hw.a, BitVec.toNat_udiv], by rw [hw.b, BitVec.toNat_umod], hw.regs, hw.flags, hw.pc,
    hw.control, hw.shared⟩

/-- Settles O23: MOV's result is the source, whatever the destination held. -/
theorem movCopiesSource : Obligations.MovCopiesSource := by
  unfold Obligations.MovCopiesSource
  intro s i d v h
  exact exec_writesOnly (f := fun _ src => src) h (fun _ => rfl) rfl

/-- Settles O24: addition and subtraction of words are those of integers modulo 2^32. -/
theorem addAndSubWrapModulo32 : Obligations.AddAndSubWrapModulo32 := by
  unfold Obligations.AddAndSubWrapModulo32
  refine fun s d v => ⟨fun i h => ?add, fun i h => ?sub⟩
  case add =>
    obtain ⟨t, ht, hw⟩ := exec_writesOnly (f := fun dst src => dst + src) h (fun _ => rfl) rfl
    exact ⟨t, _, ht, hw, BitVec.toNat_add _ _⟩
  case sub =>
    obtain ⟨t, ht, hw⟩ := exec_writesOnly (f := fun dst src => dst - src) h (fun _ => rfl) rfl
    exact ⟨t, _, ht, hw, toNat_sub_word _ _⟩

/-- Settles O25: each operation on words is the one on bits, at every position. -/
theorem logicalOperationsAreBitwise : Obligations.LogicalOperationsAreBitwise := by
  unfold Obligations.LogicalOperationsAreBitwise
  rintro s i d v f (⟨h, rfl⟩ | ⟨h, rfl⟩ | ⟨h, rfl⟩)
  · obtain ⟨t, ht, hw⟩ := exec_writesOnly (f := fun dst src => dst &&& src) h (fun _ => rfl) rfl
    exact ⟨t, _, ht, hw, fun k _ => BitVec.getLsbD_and⟩
  · obtain ⟨t, ht, hw⟩ := exec_writesOnly (f := fun dst src => dst ||| src) h (fun _ => rfl) rfl
    exact ⟨t, _, ht, hw, fun k _ => BitVec.getLsbD_or⟩
  · obtain ⟨t, ht, hw⟩ := exec_writesOnly (f := fun dst src => dst ^^^ src) h (fun _ => rfl) rfl
    exact ⟨t, _, ht, hw, fun k _ => BitVec.getLsbD_xor⟩

/-- Settles O26: a count of 32 or more is its own case of both shifts. -/
theorem shiftCountsAreNotMasked : Obligations.ShiftCountsAreNotMasked := by
  unfold Obligations.ShiftCountsAreNotMasked
  refine fun s d v => ⟨fun i h => ?shl, fun i h => ?shr⟩
  case shl =>
    obtain ⟨t, ht, hw⟩ := exec_writesOnly (f := shiftLeft) h (fun _ => rfl) rfl
    exact ⟨t, _, ht, hw, shiftLeft_toNat _ _, fun hv => if_pos hv⟩
  case shr =>
    obtain ⟨t, ht, hw⟩ := exec_writesOnly (f := shiftRight) h (fun _ => rfl) rfl
    exact ⟨t, _, ht, hw, shiftRight_toNat _ _, fun hv => if_pos hv⟩

/-- Settles O27: NOT is an exclusive or with ones in every bit. -/
theorem notInvertsEveryBit : Obligations.NotInvertsEveryBit := by
  unfold Obligations.NotInvertsEveryBit
  intro s r
  have hnot : exec (.notReg r) s = dataOp (fun dst _ => dst ^^^ 0xFFFFFFFF) (.reg r) r s := rfl
  obtain ⟨t, ht, hw⟩ := dataOp_writesOnly (fun dst _ => dst ^^^ 0xFFFFFFFF) (.reg r) r s
  exact ⟨t, _, hnot.trans ht, hw, fun k hk => getLsbD_xor_ones _ hk⟩

/-- Settles O28: the code CMP commits, by the sign of the exact difference. -/
theorem cmpSetsExactlyOneFlag : Obligations.CmpSetsExactlyOneFlag := by
  unfold Obligations.CmpSetsExactlyOneFlag
  intro s i d v h
  obtain ⟨o, he, rfl⟩ := exec_form (op := fun o => compareOp o d s) h (fun _ => rfl) rfl
  refine ⟨compareCode (o.value s) (s.reg d), he, fun hz => if_pos hz, fun hl => ?lower, fun hh => ?higher⟩
  case lower => exact (if_neg hl.ne).trans (if_pos hl)
  case higher => exact (if_neg hh.ne').trans (if_neg hh.le.not_gt)

/-- Settles O29: the product wraps, and the literal of B leaves nothing of a word. -/
theorem mulWritesLowProductAndZero : Obligations.MulWritesLowProductAndZero := by
  unfold Obligations.MulWritesLowProductAndZero
  intro s i d v h
  obtain ⟨o, he, rfl⟩ := exec_form (op := fun o => multiplyOp o d s) h (fun _ => rfl) rfl
  obtain ⟨t, ht, hw⟩ := multiplyOp_writesAB o d s
  have hb : (t.reg .B).toNat = (0xFFFFFFFF00000000 &&& (s.reg d).toNat) % 2 ^ 32 := by rw [hw.b, BitVec.toNat_ofNat]
  have hb0 : t.reg .B = 0 := BitVec.eq_of_toNat_eq (hb.trans (mul_high_literal _))
  exact ⟨t, he.trans ht, by rw [hw.a, BitVec.toNat_mul], hb, hb0, hw.regs, hw.flags, hw.pc, hw.control, hw.shared⟩

end Sys2Proof.Machine

namespace Sys2Proof.Machine

/-! ## The stack and control-transfer instructions (42_control.md R210 to R216; O31 to O37) -/

/-! ### Pushing -/

theorem SameControl.trans {s t u : State} (h : SameControl s t) (g : SameControl t u) : SameControl s u :=
  ⟨g.ie.trans h.ie, g.pend.trans h.pend, g.ivr.trans h.ivr, g.vmr.trans h.vmr, g.priv.trans h.priv,
    g.params.trans h.params, g.agenda.trans h.agenda⟩

/-- What a push of `v` leaves, whatever I and FLAGS become (10_state.md R24); the word pushed can be read back from the
top of the stack where that could be read before. -/
structure Pushed (s t : State) (v : Word) : Prop where
  stack    : t.reg .S = s.reg .S + 4
  regs     : RegsExcept s t [.S]
  control  : SameControl s t
  stored   : Stored s.params.unitTag s t (s.reg .S + 4).toNat 4 v.toNat
  top      : t.valueAt (s.reg .S + 4).toNat 4 = v.toNat
  readable : Accessible s .read (s.reg .S + 4).toNat 4 → Accessible t .read (s.reg .S + 4).toNat 4

namespace Pushed
variable {s t u : State} {v : Word}

/-- A change of I and FLAGS alone leaves it so. -/
theorem andThen (h : Pushed s t v) (hregs : u.regs = t.regs) (hcontrol : SameControl t u) (hbus : SameBus t u) :
    Pushed s u v where
  stack := by rw [State.reg, hregs]; exact h.stack
  regs q hq := by rw [State.reg, hregs]; exact h.regs q hq
  control := h.control.trans hcontrol
  stored := (SameBus.refl s).stored h.stored hbus
  top := (valueAt_congr hbus.params hbus.mem hbus.devices _ _).trans h.top
  readable hs := (accessible_congr hbus.params hbus.perms hbus.devices _ _ _).2 (h.readable hs)

theorem setPc (h : Pushed s t v) (w : Word) : Pushed s (t.setPc w) v :=
  h.andThen rfl (by constructor <;> rfl) ((SameBus.refl t).setPc w)

theorem setFlags (h : Pushed s t v) (f : FlagBits) : Pushed s (t.setFlags f) v :=
  h.andThen rfl (by constructor <;> rfl) ((SameBus.refl t).setFlags f)

/-- The word pushed, once it is read back. -/
theorem eq_of_top (h : Pushed s t v) {x : Word} (hx : x.toNat = t.valueAt (t.reg .S).toNat 4) : x = v :=
  BitVec.eq_of_toNat_eq (by rw [hx, h.stack, h.top])

theorem readable_top (h : Pushed s t v) (hs : Accessible s .read (s.reg .S + 4).toNat 4) :
    Accessible t .read (t.reg .S).toNat 4 := by
  rw [h.stack]
  exact h.readable hs

theorem stack_sub (h : Pushed s t v) : t.reg .S - 4 = s.reg .S := by
  rw [h.stack, BitVec.add_sub_cancel]

end Pushed

section
variable {s : State} (hq : s.Quiet) (v : Word)
include hq

theorem push_quiet_pushed (h : Accessible s .write (s.reg .S + 4).toNat 4) :
    ∃ t, push s v = .ok t ∧ t.pc = s.pc ∧ Pushed s t v := by
  have hacc : Accessible (s.setReg .S (s.reg .S + 4)) .write (s.reg .S + 4).toNat 4 :=
    (accessible_congr rfl rfl rfl _ _ _).2 h
  have hpush := push_quiet hq v h
  refine ⟨_, hpush, written_pc _ _ _ _ _, ?_⟩
  constructor
  case stack => rw [written_reg, State.reg_setReg_same]
  case regs => exact (Frame.push hpush).regs
  case control => constructor <;> simp
  case stored => exact ((SameBus.refl s).setReg _ _).stored (written_stored hacc) (.refl _)
  case top => rw [valueAt_written hacc]; exact Nat.mod_eq_of_lt v.isLt
  case readable => exact fun hs => accessible_written.2 ((accessible_congr rfl rfl rfl _ _ _).2 hs)

/-- A push that faults has incremented S and changed nothing else (42_control.md R210, R212). -/
theorem push_quiet_fault (h : ¬Accessible s .write (s.reg .S + 4).toNat 4) :
    ∃ r, push s v = .error r ∧ AccessFault .write (s.setReg .S (s.reg .S + 4)) (s.reg .S + 4).toNat 4 r := by
  have hacc : ¬Accessible (s.setReg .S (s.reg .S + 4)) .write (s.reg .S + 4).toNat 4 :=
    mt (accessible_congr rfl rfl rfl _ _ _).1 h
  have hquiet : (s.setReg .S (s.reg .S + 4)).Quiet := hq
  obtain ⟨r, hr, hf⟩ := busWrite_not_accessible s.params.unitTag (by omega) (word_fits v) hacc
  refine ⟨r, ?_, hf⟩
  rw [push, State.reg_setReg_same, memWrite, land_quiet hquiet]
  exact hr

end

section
variable {s : State} (hq : s.Quiet) (o : Operand)
include hq

theorem pushOp_pushed (h : Accessible s .write (s.reg .S + 4).toNat 4) :
    ∃ t, pushOp o s = .next t ∧ t.pc = s.pc ∧ t.flags = 0 ∧ Pushed s t (o.value s) := by
  obtain ⟨u, hu, hpc, hp⟩ := push_quiet_pushed hq (o.value s) h
  exact ⟨u.setFlags 0, by rw [pushOp, hu]; rfl, hpc, rfl, hp.setFlags 0⟩

theorem callOp_pushed (h : Accessible s .write (s.reg .S + 4).toNat 4) :
    ∃ t, callOp o s = .next t ∧ t.pc = o.value s ∧ t.flags = 0 ∧ Pushed s t s.pc := by
  obtain ⟨u, hu, -, hp⟩ := push_quiet_pushed hq s.pc h
  exact ⟨(u.setPc (o.value s)).setFlags 0, by rw [callOp, callTo, hu]; rfl, rfl, rfl, (hp.setPc _).setFlags 0⟩

theorem pushOp_fault (h : ¬Accessible s .write (s.reg .S + 4).toNat 4) :
    ∃ r, pushOp o s = .fault r ∧ AccessFault .write (s.setReg .S (s.reg .S + 4)) (s.reg .S + 4).toNat 4 r := by
  obtain ⟨r, hr, hf⟩ := push_quiet_fault hq (o.value s) h
  exact ⟨r, by rw [pushOp, hr]; rfl, hf⟩

theorem callOp_fault (h : ¬Accessible s .write (s.reg .S + 4).toNat 4) :
    ∃ r, callOp o s = .fault r ∧ AccessFault .write (s.setReg .S (s.reg .S + 4)) (s.reg .S + 4).toNat 4 r := by
  obtain ⟨r, hr, hf⟩ := push_quiet_fault hq s.pc h
  exact ⟨r, by rw [callOp, callTo, hr]; rfl, hf⟩

end

/-- Settles O31: CALL pushes I, and its target is an operand value read from the state before. -/
theorem callPushesReturnAddress : Obligations.CallPushesReturnAddress := by
  unfold Obligations.CallPushesReturnAddress
  intro s i v hq h
  obtain ⟨o, he, rfl⟩ := exec_form (op := fun o => callOp o s) h (fun _ => rfl) rfl
  rw [he]
  refine ⟨fun hacc => ?_, callOp_fault hq o⟩
  obtain ⟨t, ht, hpc, hflags, hp⟩ := callOp_pushed hq o hacc
  exact ⟨t, ht, hpc, hp.stack, hp.regs, hflags, hp.control, hp.stored⟩

/-- Settles O33: PUSH pushes an operand value read from the state before. -/
theorem pushStoresOperand : Obligations.PushStoresOperand := by
  unfold Obligations.PushStoresOperand
  intro s i v hq h
  obtain ⟨o, he, rfl⟩ := exec_form (op := fun o => pushOp o s) h (fun _ => rfl) rfl
  rw [he]
  refine ⟨fun hacc => ?_, pushOp_fault hq o⟩
  obtain ⟨t, ht, hpc, hflags, hp⟩ := pushOp_pushed hq o hacc
  exact ⟨t, ht, hpc, hp.stack, hp.regs, hflags, hp.control, hp.stored⟩

/-! ### Popping -/

section
variable {s : State} (hq : s.Quiet)
include hq

theorem execRet_quiet (h : Accessible s .read (s.reg .S).toNat 4) :
    execRet s = .next (((s.setReg .S (s.reg .S - 4)).setPc
      (BitVec.ofNat 32 (s.valueAt (s.reg .S).toNat 4))).setFlags 0) := by
  rw [execRet, memRead_quiet hq (by omega) h]
  rfl

theorem execPopReg_quiet (r : Reg) (h : Accessible s .read (s.reg .S).toNat 4) :
    ∃ u, u = s.setReg r (BitVec.ofNat 32 (s.valueAt (s.reg .S).toNat 4)) ∧
      execPopReg r s = .next ((u.setReg .S (u.reg .S - 4)).setFlags 0) :=
  ⟨_, rfl, by rw [execPopReg, popInto_quiet hq r h]; rfl⟩

end

/-- Settles O32: RET is one read, after which nothing can fault. -/
theorem retPopsReturnAddress : Obligations.RetPopsReturnAddress := by
  unfold Obligations.RetPopsReturnAddress
  refine fun s hq => ⟨fun h => ?reads, fun h => ?fault⟩
  case reads =>
    refine ⟨_, execRet_quiet hq h, valueAt4_toNat _ _, ?stack, ?regs, rfl, by constructor <;> rfl, ?shared⟩
    case stack => rw [State.setFlags_reg, State.setPc_reg, State.reg_setReg_same]
    case regs => exact ((Frame.setReg (List.mem_singleton.2 rfl) s _).congr rfl rfl).regs
    case shared => exact ((((SameBus.refl s).setReg _ _).setPc _).setFlags _).sameShared
  case fault =>
    obtain ⟨r, hr, hf⟩ := memRead_quiet_fault hq (by omega) h
    exact ⟨r, by rw [exec, execRet, hr]; rfl, hf⟩

/-- Settles O34: S is lowered from what it holds after the register is written, so for S itself from the word read. -/
theorem popLoadsThenDecrements : Obligations.PopLoadsThenDecrements := by
  unfold Obligations.PopLoadsThenDecrements
  refine fun s r hq => ⟨fun h => ?reads, fun h => ?fault⟩
  case reads =>
    obtain ⟨u, rfl, hu⟩ := execPopReg_quiet hq r h
    refine ⟨_, hu, fun hr => ⟨?loaded, ?lowered⟩, fun hr => ?itself, ?regs, rfl, rfl, by constructor <;> rfl, ?shared⟩
    case loaded => rw [State.setFlags_reg, State.reg_setReg_ne _ _ hr, State.reg_setReg_same, valueAt4_toNat]
    case lowered => rw [State.setFlags_reg, State.reg_setReg_same, State.reg_setReg_ne _ _ (Ne.symm hr)]
    case itself => rw [State.setFlags_reg, State.reg_setReg_same, hr, State.reg_setReg_same]
    case regs => exact (((Frame.setReg (by simp) s _).trans (.setReg (by simp) _ _)).congr rfl rfl).regs
    case shared => exact ((((SameBus.refl s).setReg _ _).setReg _ _).setFlags _).sameShared
  case fault =>
    obtain ⟨e, he, hf⟩ := memRead_quiet_fault hq (by omega) h
    exact ⟨e, by rw [exec, execPopReg, popInto, he]; rfl, hf⟩

/-! ### Pushing and popping -/

section
variable {s t u : State} {v : Word}

/-- A push undone by lowering S alone. -/
theorem Pushed.regs_restored (h : Pushed s t v) (hS : u.reg .S = t.reg .S - 4) (hregs : RegsExcept t u [.S]) (q : Reg) :
    u.reg q = s.reg q := by
  by_cases hq : q = .S
  · rw [hq, hS, h.stack_sub]
  · have hmem : q ∉ [Reg.S] := by simpa using hq
    rw [hregs q hmem, h.regs q hmem]

/-- A push of a register other than S, popped into that register. -/
theorem Pushed.regs_popped {r : Reg} (h : Pushed s t (s.reg r)) (hr : (u.reg r).toNat = t.valueAt (t.reg .S).toNat 4)
    (hS : u.reg .S = t.reg .S - 4) (hregs : RegsExcept t u [r, .S]) (hrS : r ≠ .S) (q : Reg) : u.reg q = s.reg q := by
  refine h.regs_restored hS (fun q hq => ?_) q
  by_cases hqr : q = r
  · rw [hqr, h.eq_of_top hr, h.regs r (by simpa using hrS)]
  · exact hregs q (by simpa [hqr] using hq)

end

/-- Settles O35: what a push stores is the word the pop reads; for S itself the word is the old S. -/
theorem stackRoundTrips : Obligations.StackRoundTrips := by
  unfold Obligations.StackRoundTrips
  refine fun s p hq hw hr => ⟨fun i hi => ?call, fun r => ?push⟩
  case call =>
    obtain ⟨o, he⟩ : ∃ o, exec i s = callOp o s := by
      rcases hi with ⟨r, rfl⟩ | ⟨v, rfl⟩
      · exact ⟨.reg r, rfl⟩
      · exact ⟨.imm v, rfl⟩
    obtain ⟨t, ht, -, -, hp⟩ := callOp_pushed hq o hw
    have hp := hp.setPc p
    obtain ⟨u, hu, hpc, hS, hregs, -⟩ := (retPopsReturnAddress _ (hp.control.agenda.trans hq)).1 (hp.readable_top hr)
    exact ⟨t, u, he.trans ht, hu, hp.eq_of_top hpc, hp.regs_restored hS hregs⟩
  case push =>
    obtain ⟨t, ht, -, -, hp⟩ := pushOp_pushed hq (.reg r) hw
    have hp := hp.setPc p
    obtain ⟨u, hu, hother, hself, hregs, hpc, -⟩ :=
      (popLoadsThenDecrements _ r (hp.control.agenda.trans hq)).1 (hp.readable_top hr)
    refine ⟨t, u, ht, hu, hpc, fun hne => ?other, fun heq => ⟨?self, ?rest⟩⟩
    case other =>
      obtain ⟨hload, hS⟩ := hother hne
      exact hp.regs_popped hload hS hregs hne
    case self =>
      rw [hself heq, hp.eq_of_top (valueAt4_toNat _ _)]
      exact congrArg (s.reg · - 4) heq
    case rest =>
      intro q hq
      rw [hregs q (by simpa [heq] using hq), hp.regs q hq]

/-! ### Jumping -/

/-- The frame and the results of a jump to `v` under the condition of `m`: I alone may change, and FLAGS is cleared. -/
structure Jumped (s t : State) (m : FlagBits) (v : Word) : Prop where
  taken    : CondTrue m s.flags → t.pc = v
  notTaken : ¬CondTrue m s.flags → t.pc = s.pc
  flags    : t.flags = 0
  regs     : RegsExcept s t []
  control  : SameControl s t
  shared   : SameShared s t

theorem commitZero_jumped (s : State) (m : FlagBits) (v : Word) :
    ∃ t, commitZero (.ok (if condHolds m s.flags then s.setPc v else s)) = .next t ∧ Jumped s t m v := by
  have hstate : (if condHolds m s.flags then s.setPc v else s) = s.setPc (if condHolds m s.flags then v else s.pc) := by
    split <;> rfl
  rw [hstate]
  refine ⟨_, rfl, ?_⟩
  constructor
  case taken => exact fun h => if_pos ((condHolds_iff m s.flags).2 h)
  case notTaken => exact fun h => if_neg (mt (condHolds_iff m s.flags).1 h)
  case flags => rfl
  case regs => exact fun _ _ => rfl
  case control => constructor <;> rfl
  case shared => exact (((SameBus.refl s).setPc _).setFlags _).sameShared

/-- A word in two's complement (00_scope.md R9). -/
theorem toInt_word (v : Word) : v.toInt = if v.toNat < 2 ^ 31 then (v.toNat : Int) else v.toNat - 2 ^ 32 := by
  rw [BitVec.toInt_eq_toNat_cond]
  split <;> split <;> omega

theorem toNat_ofInt_word (x : Int) : ((BitVec.ofInt 32 x).toNat : Int) = x % 2 ^ 32 := by
  rw [BitVec.toNat_ofInt]
  omega

/-- Settles O36: the target is the operand. -/
theorem jmpIsConditionalAbsolute : Obligations.JmpIsConditionalAbsolute := by
  unfold Obligations.JmpIsConditionalAbsolute
  intro s i m v h
  obtain ⟨o, he, rfl⟩ := exec_form (op := fun o => jumpOp m o s) h (fun _ => rfl) rfl
  obtain ⟨t, ht, hj⟩ := commitZero_jumped s m (o.value s)
  exact ⟨t, he.trans ht, hj.taken, hj.notTaken, hj.flags, hj.regs, hj.control, hj.shared⟩

/-- Settles O37: the target is the advanced I plus the operand in two's complement, wrapped to a word. -/
theorem jmprIsConditionalRelative : Obligations.JmprIsConditionalRelative := by
  unfold Obligations.JmprIsConditionalRelative
  intro s i m v h
  obtain ⟨o, he, rfl⟩ := exec_form (op := fun o => jumpRelativeOp m o s) h (fun _ => rfl) rfl
  obtain ⟨t, ht, hj⟩ := commitZero_jumped s m (BitVec.ofInt 32 ((s.pc.toNat : Int) + o.signedValue s))
  refine ⟨t, he.trans ht, fun hc => ?_, hj.notTaken, hj.flags, hj.regs, hj.control, hj.shared⟩
  rw [hj.taken hc, toNat_ofInt_word, Operand.signedValue, toInt_word]

end Sys2Proof.Machine

namespace Sys2Proof.Machine

/-! ## The interrupt and system instructions (43_system.md R230 to R238; O21, O22, O38, O39) -/

/-! ### Returning from an interrupt -/

/-- The state after a quiet pop into A (42_control.md R213). -/
def State.poppedIntoA (s : State) : State :=
  (s.setReg .A (BitVec.ofNat 32 (s.valueAt (s.reg .S).toNat 4))).setReg .S (s.reg .S - 4)

/-- The first pop writes A and S alone, so the second word can be read after it exactly where it could before. -/
theorem accessible_poppedIntoA {s : State} {k : Access} {a n : Nat} :
    Accessible s.poppedIntoA k a n ↔ Accessible s k a n :=
  accessible_congr rfl rfl rfl k a n

section
variable {s : State} (hq : s.Quiet)
include hq

theorem popInto_A_poppedIntoA (h : Accessible s .read (s.reg .S).toNat 4) : popInto s .A = .ok s.poppedIntoA :=
  popInto_quiet hq .A h

theorem popInto_quiet_fault (r : Reg) (h : ¬Accessible s .read (s.reg .S).toNat 4) :
    ∃ e, popInto s r = .error e ∧ AccessFault .read s (s.reg .S).toNat 4 e := by
  obtain ⟨e, he, hf⟩ := memRead_quiet_fault hq (by omega) h
  exact ⟨e, by rw [popInto, he]; rfl, hf⟩

/-- Two pops through A, after which nothing can fault; A is put back and IE set last (43_system.md R233). -/
theorem execHiret_quiet (h1 : Accessible s .read (s.reg .S).toNat 4)
    (h2 : Accessible s .read (s.reg .S - 4).toNat 4) :
    ∃ f, execHiret s = .next ((((s.poppedIntoA.poppedIntoA.setReg .A (s.reg .A)).setPc
      (BitVec.ofNat 32 (s.valueAt (s.reg .S).toNat 4))).setIe true).setFlags f) := by
  have hq' : s.poppedIntoA.Quiet := hq
  refine ⟨(s.poppedIntoA.poppedIntoA.reg .A).setWidth 3, ?_⟩
  have hfirst := popInto_A_poppedIntoA hq h1
  have hsecond := popInto_A_poppedIntoA hq' (accessible_poppedIntoA.2 h2)
  simp only [execHiret, returnFromInterrupt, hfirst, hsecond, ok_bind]
  rfl

theorem execHiret_first_fault (h : ¬Accessible s .read (s.reg .S).toNat 4) :
    ∃ r, execHiret s = .fault r ∧ AccessFault .read s (s.reg .S).toNat 4 r := by
  obtain ⟨r, hr, hf⟩ := popInto_quiet_fault hq .A h
  exact ⟨r, by rw [execHiret, returnFromInterrupt, hr]; rfl, hf⟩

/-- A fault of the second pop leaves what the first one wrote (43_system.md R233). -/
theorem execHiret_second_fault (h1 : Accessible s .read (s.reg .S).toNat 4)
    (h2 : ¬Accessible s .read (s.reg .S - 4).toNat 4) :
    ∃ r, execHiret s = .fault r ∧ AccessFault .read s.poppedIntoA (s.reg .S - 4).toNat 4 r := by
  have hq' : s.poppedIntoA.Quiet := hq
  obtain ⟨r, hr, hf⟩ := popInto_quiet_fault hq' .A (mt accessible_poppedIntoA.1 h2)
  refine ⟨r, ?_, hf⟩
  simp only [execHiret, returnFromInterrupt, popInto_A_poppedIntoA hq h1, hr, ok_bind, error_bind]
  rfl

end

/-- Settles O21: HIRET is two reads, after which nothing can fault. -/
theorem hiretRestoresSavedState : Obligations.HiretRestoresSavedState := by
  unfold Obligations.HiretRestoresSavedState
  refine fun s hq => ⟨fun ⟨h1, h2⟩ => ?reads, execHiret_first_fault hq, execHiret_second_fault hq⟩
  case reads =>
    obtain ⟨f, ht⟩ := execHiret_quiet hq h1 h2
    have hframe : Frame [.S] s _ := .commit ht fun _ _ => .returnFromInterrupt
    have hbus := execHiret_sameBus hq ht
    refine ⟨_, ht, valueAt4_toNat _ _, execHiret_flags hq ht, rfl, ?stack, hframe.regs, rfl, hframe.ivr, rfl, rfl,
      hbus.agenda, hbus.sameShared⟩
    case stack =>
      show s.reg .S - 4 - 4 = s.reg .S - 8
      exact BitVec.sub_sub _ 4 4

/-! ### Calling a handler -/

section
variable {s t : State} {v : Word}

theorem callTo_quiet_pushed (hq : s.Quiet) (target : Word) (h : Accessible s .write (s.reg .S + 4).toNat 4) :
    ∃ t, callTo s target = .ok t ∧ t.pc = target ∧ Pushed s t s.pc := by
  obtain ⟨u, hu, -, hp⟩ := push_quiet_pushed hq s.pc h
  exact ⟨u.setPc target, by rw [callTo, hu]; rfl, rfl, hp.setPc target⟩

theorem callTo_quiet_fault (hq : s.Quiet) (target : Word) (h : ¬Accessible s .write (s.reg .S + 4).toNat 4) :
    ∃ r, callTo s target = .error r ∧
      AccessFault .write (s.setReg .S (s.reg .S + 4)) (s.reg .S + 4).toNat 4 r := by
  obtain ⟨r, hr, hf⟩ := push_quiet_fault hq s.pc h
  exact ⟨r, by rw [callTo, hr]; rfl, hf⟩

/-- A push changes neither bounds nor permissions nor where devices are. -/
theorem accessible_push (hq : s.Quiet) (h : push s v = .ok t) {k : Access} {a n : Nat} :
    Accessible t k a n ↔ Accessible s k a n := by
  have hquiet : (s.setReg .S (s.reg .S + 4)).Quiet := hq
  obtain ⟨-, rfl⟩ := (push_ok_iff _ _ _).1 h
  rw [land_quiet hquiet]
  exact accessible_written.trans (accessible_congr rfl rfl rfl _ _ _)

/-- A software INT calls the word at its vector (43_system.md R231). -/
theorem enterHandler_software (hq : s.Quiet) (h : Accessible s .read (vectorAddress s v) 4) :
    enterHandler false v s = callTo s (BitVec.ofNat 32 (s.valueAt (vectorAddress s v) 4)) := by
  show (memRead s (vectorAddress s v) 4 >>= fun p => callTo p.2 (BitVec.ofNat 32 p.1)) = _
  rw [memRead_quiet hq (by omega) h, ok_bind]

theorem enterHandler_software_fault (hq : s.Quiet) (h : ¬Accessible s .read (vectorAddress s v) 4) :
    ∃ r, enterHandler false v s = .error r ∧ AccessFault .read s (vectorAddress s v) 4 r := by
  obtain ⟨r, hr, hf⟩ := memRead_quiet_fault hq (by omega) h
  refine ⟨r, ?_, hf⟩
  show (memRead s (vectorAddress s v) 4 >>= fun p => callTo p.2 (BitVec.ofNat 32 p.1)) = _
  rw [hr, error_bind]

/-- A hardware-sourced INT is a push of FLAGS followed by a software one (43_system.md R231). -/
theorem enterHandler_hardware (v : Word) (s : State) :
    enterHandler true v s = (push s (s.flags.zeroExtend 32) >>= enterHandler false v) := rfl

end

section
variable {s : State} (o : Operand)

theorem softwareInt_disabled (hie : s.ie = false) : softwareInt o s = .next (s.setFlags 0) := by
  rw [softwareInt, hie]; rfl

variable (hq : s.Quiet) (hie : s.ie = true)
include hq hie

/-- A software INT that is taken is a CALL of the handler (43_system.md R231, R232). -/
theorem softwareInt_eq_callOp (h : Accessible s .read (vectorAddress s (o.value s)) 4) :
    softwareInt o s = callOp (.imm (BitVec.ofNat 32 (s.valueAt (vectorAddress s (o.value s)) 4))) s := by
  rw [softwareInt, if_pos hie, enterHandler_software hq h]
  rfl

theorem softwareInt_table_fault (h : ¬Accessible s .read (vectorAddress s (o.value s)) 4) :
    ∃ r, softwareInt o s = .fault r ∧ AccessFault .read s (vectorAddress s (o.value s)) 4 r := by
  obtain ⟨r, hr, hf⟩ := enterHandler_software_fault hq h
  exact ⟨r, by rw [softwareInt, if_pos hie, hr]; rfl, hf⟩

end

/-- The first push of a hardware-sourced INT, in a state `m`: FLAGS is on the stack, and the vector and the second push
are what they were before it. -/
structure FlagsPushed (s m : State) (v : Word) : Prop where
  enter      : enterHandler true v s = enterHandler false v m
  quiet      : m.Quiet
  pushed     : Pushed s m (s.flags.zeroExtend 32)
  stored     : Stored s.params.unitTag s m (s.reg .S + 4).toNat 4 s.flags.toNat
  pc         : m.pc = s.pc
  vector     : vectorAddress m v = s.ivr.toNat + 4 * v.toNat
  secondPush : m.reg .S + 4 = s.reg .S + 8
  accessible : ∀ k a n, Accessible m k a n ↔ Accessible s k a n

section
variable {s m : State} {v : Word}

theorem flags_zeroExtend_toNat (f : FlagBits) : (f.zeroExtend 32).toNat = f.toNat :=
  BitVec.toNat_setWidth_of_le (by omega)

theorem exists_flagsPushed (hq : s.Quiet) (v : Word) (h : Accessible s .write (s.reg .S + 4).toNat 4) :
    ∃ m, FlagsPushed s m v := by
  obtain ⟨m, hm, hpc, hp⟩ := push_quiet_pushed hq (s.flags.zeroExtend 32) h
  refine ⟨m, ?_⟩
  constructor
  case enter => rw [enterHandler_hardware, hm, ok_bind]
  case quiet => exact hp.control.agenda.trans hq
  case pushed => exact hp
  case stored => exact flags_zeroExtend_toNat s.flags ▸ hp.stored
  case pc => exact hpc
  case vector => rw [vectorAddress, hp.control.ivr]
  case secondPush => rw [hp.stack]; exact BitVec.add_assoc _ 4 4
  case accessible => exact fun _ _ _ => accessible_push hq hm

theorem enterHandler_hardware_fault (hq : s.Quiet) (v : Word) (h : ¬Accessible s .write (s.reg .S + 4).toNat 4) :
    ∃ r, enterHandler true v s = .error r ∧
      AccessFault .write (s.setReg .S (s.reg .S + 4)) (s.reg .S + 4).toNat 4 r := by
  obtain ⟨r, hr, hf⟩ := push_quiet_fault hq (s.flags.zeroExtend 32) h
  exact ⟨r, by rw [enterHandler_hardware, hr, error_bind], hf⟩

/-- Where the vector can be read, the handler is called on top of the pushed FLAGS. -/
theorem FlagsPushed.enter_eq_callTo (hm : FlagsPushed s m v)
    (h : Accessible s .read (s.ivr.toNat + 4 * v.toNat) 4) :
    enterHandler true v s = callTo m (BitVec.ofNat 32 (m.valueAt (s.ivr.toNat + 4 * v.toNat) 4)) := by
  rw [hm.enter, enterHandler_software hm.quiet (by rw [hm.vector]; exact (hm.accessible _ _ _).2 h), hm.vector]

theorem FlagsPushed.vector_fault (hm : FlagsPushed s m v)
    (h : ¬Accessible s .read (s.ivr.toNat + 4 * v.toNat) 4) :
    ∃ r, enterHandler true v s = .error r ∧ AccessFault .read m (s.ivr.toNat + 4 * v.toNat) 4 r := by
  rw [hm.enter, ← hm.vector]
  exact enterHandler_software_fault hm.quiet (by rw [hm.vector]; exact mt (hm.accessible _ _ _).1 h)

theorem FlagsPushed.called (hm : FlagsPushed s m v)
    (hv : Accessible s .read (s.ivr.toNat + 4 * v.toNat) 4) (hw : Accessible s .write (s.reg .S + 8).toNat 4) :
    ∃ t, enterHandler true v s = .ok t ∧ Stored s.params.unitTag m t (s.reg .S + 8).toNat 4 s.pc.toNat ∧
      t.pc.toNat = m.valueAt (s.ivr.toNat + 4 * v.toNat) 4 ∧ t.reg .S = s.reg .S + 8 ∧ RegsExcept s t [.S] ∧
      SameControl s t := by
  rw [hm.enter_eq_callTo hv]
  obtain ⟨t, ht, hpc, hp⟩ := callTo_quiet_pushed hm.quiet (BitVec.ofNat 32 (m.valueAt (s.ivr.toNat + 4 * v.toNat) 4))
    ((hm.accessible _ _ _).2 (hm.secondPush ▸ hw))
  refine ⟨t, ht, ?stored, ?pc, hp.stack.trans hm.secondPush, ?regs, hm.pushed.control.trans hp.control⟩
  case stored =>
    have hstored := hp.stored
    rwa [hm.secondPush, hm.pc, hm.pushed.control.params] at hstored
  case pc => rw [hpc, valueAt4_toNat]
  case regs => exact fun q hq => (hp.regs q hq).trans (hm.pushed.regs q hq)

/-- A fault of the second push leaves S raised twice (43_system.md R231). -/
theorem FlagsPushed.secondPush_fault (hm : FlagsPushed s m v)
    (hv : Accessible s .read (s.ivr.toNat + 4 * v.toNat) 4) (hw : ¬Accessible s .write (s.reg .S + 8).toNat 4) :
    ∃ r, enterHandler true v s = .error r ∧
      AccessFault .write (m.setReg .S (s.reg .S + 8)) (s.reg .S + 8).toNat 4 r := by
  rw [hm.enter_eq_callTo hv, ← hm.secondPush]
  exact callTo_quiet_fault hm.quiet _ (by rw [hm.secondPush]; exact mt (hm.accessible _ _ _).1 hw)

end

/-- Settles O22: a software INT is a CALL of the word at its vector; a hardware-sourced one is a push of FLAGS, then the
same. -/
theorem intCallsHandler : Obligations.IntCallsHandler := by
  unfold Obligations.IntCallsHandler
  refine fun s v hq => ⟨fun i hi => ?software, fun hpush hvec hpush' => ?called, enterHandler_hardware_fault hq v,
    fun hpush hvec => ?vectorFault, fun hpush hvec hpush' => ?pushFault⟩
  case software =>
    obtain ⟨o, he, rfl⟩ := exec_form (op := fun o => softwareInt o s) hi (fun _ => rfl) rfl
    rw [he]
    refine ⟨softwareInt_disabled o, fun hie hvec hpush => ?taken, softwareInt_table_fault o hq,
      fun hie hvec hpush => ?stackFault⟩
    case taken =>
      rw [softwareInt_eq_callOp o hq hie hvec]
      obtain ⟨t, ht, hpc, hflags, hp⟩ := callOp_pushed hq _ hpush
      exact ⟨t, ht, hpc ▸ valueAt4_toNat _ _, hp.stack, hp.regs, hflags, hp.control, hp.stored⟩
    case stackFault =>
      rw [softwareInt_eq_callOp o hq hie hvec]
      exact callOp_fault hq _ hpush
  case called =>
    obtain ⟨m, hm⟩ := exists_flagsPushed hq v hpush
    obtain ⟨t, ht, hstored, hrest⟩ := hm.called hvec hpush'
    exact ⟨m, t, ht, hm.stored, hstored, hrest⟩
  case vectorFault =>
    obtain ⟨m, hm⟩ := exists_flagsPushed hq v hpush
    obtain ⟨r, hr, hf⟩ := hm.vector_fault hvec
    exact ⟨m, r, hr, hm.stored, hm.pushed.stack, hf⟩
  case pushFault =>
    obtain ⟨m, hm⟩ := exists_flagsPushed hq v hpush
    obtain ⟨r, hr, hf⟩ := hm.secondPush_fault hvec hpush'
    exact ⟨m.setReg .S (s.reg .S + 8), r, hr, (SameBus.refl s).stored hm.stored ((SameBus.refl m).setReg _ _),
      State.reg_setReg_same _ _ _, hf⟩

/-! ### The conditional store -/

theorem State.setReg_restore (s : State) (r : Reg) (v : Word) : (s.setReg r v).setReg r (s.reg r) = s := by
  simp only [State.setReg, State.reg, Regs.put_put, Regs.put_get]

theorem memWrite_quiet_fault {s : State} (hq : s.Quiet) {a n v : Nat} (hn : 1 ≤ n ∧ n ≤ 4) (hv : v < 2 ^ (8 * n))
    (h : ¬Accessible s .write a n) : ∃ r, memWrite s a n v = .error r ∧ AccessFault .write s a n r := by
  rw [memWrite, land_quiet hq]
  exact busWrite_not_accessible s.params.unitTag hn hv h

/-- The comparison SFSTOR makes (43_system.md R236). -/
def sfstorCode (o : Operand) (s : State) : FlagBits := codeOf (o.value s).toNat (s.valueAt (s.reg .A).toNat 4)

/-- The state after SFSTOR's read. -/
def State.loadedIntoA (s : State) : State := s.setReg .A (BitVec.ofNat 32 (s.valueAt (s.reg .A).toNat 4))

section
variable {s : State} (m : FlagBits) (o : Operand)

theorem accessible_loadedIntoA {k : Access} {a n : Nat} : Accessible s.loadedIntoA k a n ↔ Accessible s k a n :=
  accessible_congr rfl rfl rfl k a n

variable (hq : s.Quiet)
include hq

theorem conditionalStore_read_fault (h : ¬Accessible s .read (s.reg .A).toNat 4) :
    ∃ r, conditionalStore m o s = .fault r ∧ AccessFault .read s (s.reg .A).toNat 4 r := by
  obtain ⟨r, hr, hf⟩ := memRead_quiet_fault hq (by omega) h
  exact ⟨r, by rw [conditionalStore_eq, hr]; rfl, hf⟩

variable (h : Accessible s .read (s.reg .A).toNat 4)
include h

/-- Where the word can be read, SFSTOR is the store that the condition allows, and the restoring of A. -/
theorem conditionalStore_read : conditionalStore m o s = commit (
    (if condHolds m (sfstorCode o s) then memWrite s.loadedIntoA (s.reg .A).toNat 4 (o.value s).toNat
      else .ok s.loadedIntoA) >>= fun t => .ok (t.setReg .A (s.reg .A), sfstorCode o s)) := by
  rw [conditionalStore_eq, memRead_quiet hq (by omega) h, ok_bind, compareCode_eq_codeOf, valueAt4_toNat]
  rfl

theorem conditionalStore_notTaken (hc : ¬CondTrue m (sfstorCode o s)) :
    conditionalStore m o s = .next (s.setFlags (sfstorCode o s)) := by
  rw [conditionalStore_read m o hq h, if_neg (mt (condHolds_iff _ _).1 hc), ok_bind, State.loadedIntoA,
    State.setReg_restore]
  rfl

theorem conditionalStore_taken (hc : CondTrue m (sfstorCode o s)) (hw : Accessible s .write (s.reg .A).toNat 4) :
    conditionalStore m o s = .next (((written s.loadedIntoA (s.reg .A).toNat 4 (o.value s).toNat
      s.params.unitTag).setReg .A (s.reg .A)).setFlags (sfstorCode o s)) := by
  have hquiet : s.loadedIntoA.Quiet := hq
  rw [conditionalStore_read m o hq h, if_pos ((condHolds_iff _ _).2 hc),
    memWrite_quiet hquiet (by omega) (word_fits _) (accessible_loadedIntoA.2 hw)]
  rfl

/-- A store that faults leaves the word read in A (43_system.md R236). -/
theorem conditionalStore_write_fault (hc : CondTrue m (sfstorCode o s))
    (hw : ¬Accessible s .write (s.reg .A).toNat 4) :
    ∃ r, conditionalStore m o s = .fault r ∧ AccessFault .write s.loadedIntoA (s.reg .A).toNat 4 r := by
  have hquiet : s.loadedIntoA.Quiet := hq
  obtain ⟨r, hr, hf⟩ := memWrite_quiet_fault hquiet (by omega) (word_fits (o.value s))
    (mt accessible_loadedIntoA.1 hw)
  exact ⟨r, by rw [conditionalStore_read m o hq h, if_pos ((condHolds_iff _ _).2 hc), hr]; rfl, hf⟩

end

/-- Settles O39: a read, a store if the condition holds of the comparison just made, and the restoring of A. -/
theorem sfstorStoresOnFreshComparison : Obligations.SfstorStoresOnFreshComparison := by
  unfold Obligations.SfstorStoresOnFreshComparison
  intro s i m v hq hi
  obtain ⟨o, he, rfl⟩ := exec_form (op := fun o => conditionalStore m o s) hi (fun _ => rfl) rfl
  rw [he]
  refine ⟨conditionalStore_notTaken m o hq, fun h hc hw => ?stores, conditionalStore_read_fault m o hq,
    conditionalStore_write_fault m o hq⟩
  case stores =>
    have ht := conditionalStore_taken m o hq h hc hw
    refine ⟨_, ht, rfl, (conditionalStore_frame ht).regs, conditionalStore_pc ht, ?control, ?stored⟩
    case control => constructor <;> simp [State.loadedIntoA]
    case stored =>
      have hload : SameBus s s.loadedIntoA := (SameBus.refl s).setReg _ _
      exact hload.stored (written_stored (accessible_loadedIntoA.2 hw)) (((SameBus.refl _).setReg _ _).setFlags _)

/-! ### One effect -/

/-- Settles O38: each of the four rules is the state change of its one effect, and its arm of `exec` commits a zero. -/
theorem systemInstructionsHaveOneEffect : Obligations.SystemInstructionsHaveOneEffect := by
  unfold Obligations.SystemInstructionsHaveOneEffect
  exact fun s r => ⟨rfl, rfl, rfl, rfl⟩

end Sys2Proof.Machine

namespace Sys2Proof.Machine

/-! ## The memory-access instructions (44_memory_access.md R260, R261; O40, O41) -/

/-! ### MEMR -/

theorem valueAt_lt_two_pow (s : State) (a n : Nat) : s.valueAt a n < 2 ^ (8 * n) := by
  rw [Nat.pow_mul]
  exact valueAt_lt s a n

/-- A value of a legal width is not changed by the extension to a word. -/
theorem toNat_valueAt {n : Nat} (hn : n ≤ 4) (s : State) (a : Nat) :
    (BitVec.ofNat 32 (s.valueAt a n)).toNat = s.valueAt a n :=
  Nat.mod_eq_of_lt ((valueAt_lt_two_pow s a n).trans_le (Nat.pow_le_pow_right two_pos (Nat.mul_le_mul_left 8 hn)))

section
variable {s : State} (hq : s.Quiet) {w : BitVec 4} (hw : 1 ≤ w.toNat ∧ w.toNat ≤ 4) (addr : Operand) (d : Reg)
include hq hw

theorem loadOp_quiet (h : Accessible s .read (addr.value s).toNat w.toNat) :
    loadOp w addr d s = .next ((s.setReg d (BitVec.ofNat 32 (s.valueAt (addr.value s).toNat w.toNat))).setFlags 0) := by
  rw [loadOp, memRead_quiet hq hw h]
  rfl

theorem loadOp_quiet_fault (h : ¬Accessible s .read (addr.value s).toNat w.toNat) :
    ∃ r, loadOp w addr d s = .fault r ∧ AccessFault .read s (addr.value s).toNat w.toNat r := by
  obtain ⟨r, hr, hf⟩ := memRead_quiet_fault hq hw h
  exact ⟨r, by rw [loadOp, hr]; rfl, hf⟩

end

/-- Settles O40: MEMR is one read, and the word it writes is the value read, which fits in the width. -/
theorem memrLoadsZeroExtended : Obligations.MemrLoadsZeroExtended := by
  unfold Obligations.MemrLoadsZeroExtended
  intro s i w d v hq hw1 hw4 hi
  obtain ⟨addr, he, rfl⟩ := exec_form (op := fun o => loadOp w o d s) hi (fun _ => rfl) rfl
  rw [he]
  refine ⟨fun h => ?loads, loadOp_quiet_fault hq ⟨hw1, hw4⟩ addr d⟩
  case loads =>
    have hx := toNat_valueAt hw4 s (addr.value s).toNat
    exact ⟨_, _, loadOp_quiet hq ⟨hw1, hw4⟩ addr d h, writesOnly_setReg s d _, hx, hx.trans_lt (valueAt_lt_two_pow ..)⟩

/-! ### MEMW -/

/-- A value that does not fit is found before the address is looked at (20_memory.md R81, R82). -/
theorem memWrite_quiet_overflow {s : State} (hq : s.Quiet) {n v : Nat} (a : Nat) (hv : 2 ^ (8 * n) ≤ v) :
    memWrite s a n v = .error (.overflow v n s) := by
  rw [memWrite, land_quiet hq, busWrite, if_pos (.inr hv)]

/-- The four forms of MEMW run one operation, on a value and an address that are each a register or an immediate
(44_memory_access.md R261). -/
theorem exec_memw_form {i : Instr} {s : State} {w : BitVec 4} {v a : Word}
    (h : (∃ r d, i = .memwRegReg w r d ∧ v = s.reg r ∧ a = s.reg d) ∨ (∃ d, i = .memwImmReg w v d ∧ a = s.reg d) ∨
      (∃ r, i = .memwRegImm w r a ∧ v = s.reg r) ∨ i = .memwImmImm w v a) :
    ∃ val addr : Operand, exec i s = storeOp w val addr s ∧ val.value s = v ∧ addr.value s = a := by
  rcases h with ⟨r, d, rfl, rfl, rfl⟩ | ⟨d, rfl, rfl⟩ | ⟨r, rfl, rfl⟩ | rfl
  · exact ⟨.reg r, .reg d, rfl, rfl, rfl⟩
  · exact ⟨.imm v, .reg d, rfl, rfl, rfl⟩
  · exact ⟨.reg r, .imm a, rfl, rfl, rfl⟩
  · exact ⟨.imm v, .imm a, rfl, rfl, rfl⟩

section
variable {s : State} (hq : s.Quiet) {w : BitVec 4} (val addr : Operand)
include hq

theorem storeOp_overflow (hv : 2 ^ (8 * w.toNat) ≤ (val.value s).toNat) :
    storeOp w val addr s = .fault (.overflow (val.value s).toNat w.toNat s) := by
  rw [storeOp, memWrite_quiet_overflow hq _ hv]
  rfl

variable (hw : 1 ≤ w.toNat ∧ w.toNat ≤ 4) (hv : (val.value s).toNat < 2 ^ (8 * w.toNat))
include hw hv

theorem storeOp_quiet (h : Accessible s .write (addr.value s).toNat w.toNat) :
    storeOp w val addr s = .next
      ((written s (addr.value s).toNat w.toNat (val.value s).toNat s.params.unitTag).setFlags 0) := by
  rw [storeOp, memWrite_quiet hq hw hv h]
  rfl

theorem storeOp_quiet_fault (h : ¬Accessible s .write (addr.value s).toNat w.toNat) :
    ∃ r, storeOp w val addr s = .fault r ∧ AccessFault .write s (addr.value s).toNat w.toNat r := by
  obtain ⟨r, hr, hf⟩ := memWrite_quiet_fault hq hw hv h
  exact ⟨r, by rw [storeOp, hr]; rfl, hf⟩

end

/-- Settles O41: MEMW is one write, which tests the value against the width before it makes any access. -/
theorem memwStoresValueThatFits : Obligations.MemwStoresValueThatFits := by
  unfold Obligations.MemwStoresValueThatFits
  intro s i w v a hq hw1 hw4 hi
  obtain ⟨val, addr, he, rfl, rfl⟩ := exec_memw_form hi
  rw [he]
  refine ⟨storeOp_overflow hq val addr, fun hv h => ?stores, storeOp_quiet_fault hq val addr ⟨hw1, hw4⟩⟩
  case stores =>
    have hunit := written_sameUnit s (addr.value s).toNat w.toNat (val.value s).toNat s.params.unitTag
    have hnext := storeOp_quiet hq val addr ⟨hw1, hw4⟩ hv h
    refine ⟨_, hnext, fun q _ => hunit.regs q, rfl, hunit.pc, ?control, ?stored⟩
    case control => constructor <;> simp
    case stored => exact (SameBus.refl s).stored (written_stored h) ((SameBus.refl _).setFlags 0)

end Sys2Proof.Machine

namespace Sys2Proof.Machine

/-! ## The codes of faults (60_exceptions.md R301; O14) -/

/-- An operation that answers or faults with one of the codes of a list. -/
def FaultsIn (codes : List Nat) {α : Type} : Except Fault α → Prop
  | .ok _ => True
  | .error r => r.code ∈ codes

/-- The codes of a fetch (60_exceptions.md R301). -/
abbrev fetchCodes : List Nat := [1, 2, 3, 4, 5, 6, 7]

/-- The codes of an instruction (60_exceptions.md R301). -/
abbrev execCodes : List Nat := [3, 4, 8, 9]

namespace FaultsIn
variable {codes : List Nat} {α β : Type}

@[simp] theorem error_iff (r : Fault) : FaultsIn codes (.error r : Except Fault α) ↔ r.code ∈ codes := Iff.rfl

@[simp] theorem ok (a : α) : FaultsIn codes (.ok a) := trivial

theorem bind {x : Except Fault α} {f : α → Except Fault β} (h : FaultsIn codes x) (g : ∀ a, FaultsIn codes (f a)) :
    FaultsIn codes (x >>= f) := by
  cases x with
  | ok a => exact g a
  | error r => exact h

theorem mono {codes' : List Nat} {x : Except Fault α} (h : FaultsIn codes x) (hsub : codes ⊆ codes') :
    FaultsIn codes' x := by
  cases x with
  | ok a => trivial
  | error r => exact hsub h

theorem commit {x : Except Fault (State × FlagBits)} {r : Fault} (hx : FaultsIn codes x) (h : commit x = .fault r) :
    r.code ∈ codes := by
  rw [commit_fault h] at hx
  exact hx

theorem commitZero {x : Except Fault State} {r : Fault} (hx : FaultsIn codes x) (h : commitZero x = .fault r) :
    r.code ∈ codes := by
  rw [commitZero_fault h] at hx
  exact hx

end FaultsIn

/-! ### One read, one write -/

theorem memRead_faultsIn (s : State) (a n : Nat) : FaultsIn [3, 4] (memRead s a n) := by
  cases h : memRead s a n with
  | ok p => trivial
  | error r => rcases memRead_error h with rfl | ⟨p, rfl, -⟩ <;> simp [Fault.code]

theorem memWrite_faultsIn (s : State) (a n v : Nat) : FaultsIn [3, 4, 8] (memWrite s a n v) := by
  cases h : memWrite s a n v with
  | ok t => trivial
  | error r => rcases busWrite_error h with rfl | rfl | ⟨p, rfl, -⟩ <;> simp [Fault.code]

/-! ### Fetch -/

theorem tableEntry_faultsIn (vmr : Word) (va : Nat) (s : State) : FaultsIn [3, 4] (tableEntry vmr va s) := by
  unfold tableEntry
  split
  · simp [Fault.code]
  · dsimp only
    split
    · trivial
    · exact (memRead_faultsIn _ _ _).bind fun _ => .ok _

theorem tableEntries_faultsIn (vmr : Word) (xs : List Nat) (s : State) : FaultsIn [3, 4] (tableEntries vmr xs s) := by
  induction xs generalizing s with
  | nil => trivial
  | cons va rest ih => exact (tableEntry_faultsIn _ _ _).bind fun p => (ih p.2).bind fun _ => .ok _

theorem checkEntries_faultsIn (p : Bool) (xs ys : List (Nat × BitVec 16)) (s : State) :
    FaultsIn [5, 6, 7] (checkEntries p xs ys s) := by
  unfold checkEntries
  split
  · simp [Fault.code]
  · split
    · simp [Fault.code]
    · split <;> simp [Fault.code]

theorem validateAccess_faultsIn (p : Bool) (xs ys : List Nat) (vmr : Word) (s : State) :
    FaultsIn fetchCodes (validateAccess p xs ys vmr s) := by
  unfold validateAccess
  split
  · trivial
  · exact ((tableEntries_faultsIn _ _ _).mono (by decide)).bind fun _ =>
      (checkEntries_faultsIn _ _ _ _).mono (by decide)

theorem fetchAddress_faultsIn (va : Nat) (s : State) : FaultsIn [3, 4] (fetchAddress va s) := by
  unfold fetchAddress
  split
  · trivial
  · exact (tableEntry_faultsIn _ _ _).bind fun _ => .ok _

theorem fetchByte_faultsIn (s : State) (p : Nat) : FaultsIn [3, 4] (fetchByte s p) := by
  unfold fetchByte
  dsimp only
  split
  · simp [Fault.code]
  · split <;> simp [Fault.code]

theorem fetchBytes_faultsIn (n va : Nat) (s : State) : FaultsIn [3, 4] (fetchBytes n va s) := by
  induction n generalizing va s with
  | zero => trivial
  | succ n ih =>
    exact (fetchAddress_faultsIn _ _).bind fun _ => (fetchByte_faultsIn _ _).bind fun q =>
      (ih _ q.2).bind fun _ => .ok _

theorem fetchFirst_faultsIn (a : Nat) (s : State) : FaultsIn fetchCodes (fetchFirst a s) :=
  (validateAccess_faultsIn _ _ _ _ _).bind fun _ =>
    ((fetchAddress_faultsIn _ _).bind fun _ => fetchByte_faultsIn _ _).mono (by decide)

theorem fetchRest_faultsIn (a n : Nat) (s : State) : FaultsIn fetchCodes (fetchRest a n s) := by
  have hbytes : ∀ t, FaultsIn fetchCodes (fetchBytes (n - 1) (a + 1) t) := fun t =>
    (fetchBytes_faultsIn _ _ t).mono (by decide)
  unfold fetchRest
  dsimp only
  split
  · exact hbytes s
  · exact (validateAccess_faultsIn _ _ _ _ _).bind hbytes

theorem fetch_faultsIn (a : Nat) (s : State) : FaultsIn fetchCodes (fetch a s) := by
  refine (fetchFirst_faultsIn a s).bind fun ⟨b0, t⟩ => ?_
  dsimp only
  split
  · simp [Fault.code]
  · refine (fetchRest_faultsIn a _ t).bind fun ⟨bs, u⟩ => ?_
    dsimp only
    split <;> simp [Fault.code]

/-! ### Instructions -/

theorem popInto_faultsIn (s : State) (r : Reg) : FaultsIn [3, 4] (popInto s r) :=
  (memRead_faultsIn _ _ _).bind fun _ => .ok _

theorem callTo_faultsIn (s : State) (v : Word) : FaultsIn [3, 4, 8] (callTo s v) :=
  (memWrite_faultsIn _ _ _ _).bind fun _ => .ok _

theorem enterHandler_software_faultsIn (v : Word) (s : State) : FaultsIn [3, 4, 8] (enterHandler false v s) :=
  ((memRead_faultsIn s (vectorAddress s v) 4).mono (by decide)).bind fun _ => callTo_faultsIn _ _

theorem returnFromInterrupt_faultsIn (s : State) : FaultsIn [3, 4] (returnFromInterrupt s) :=
  (popInto_faultsIn s .A).bind fun _ => (popInto_faultsIn _ .A).bind fun _ => .ok _

section
variable {s : State} {r : Fault}

theorem divideOp_fault_code {o : Operand} {d : Reg} (h : divideOp o d s = .fault r) : r.code = 9 := by
  have h := commitZero_fault h
  split at h <;> cases h
  rfl

theorem softwareInt_fault_code {o : Operand} (h : softwareInt o s = .fault r) : r.code ∈ [3, 4, 8] := by
  refine FaultsIn.commitZero ?_ h
  split
  · exact enterHandler_software_faultsIn _ s
  · trivial

theorem conditionalStore_fault_code {m : FlagBits} {o : Operand} (h : conditionalStore m o s = .fault r) :
    r.code ∈ [3, 4, 8] := by
  rw [conditionalStore_eq] at h
  refine FaultsIn.commit ?_ h
  refine ((memRead_faultsIn _ _ _).mono (by decide)).bind fun p => .bind ?_ fun _ => .ok _
  split
  · exact memWrite_faultsIn _ _ _ _
  · trivial

/-- The codes an instruction can fault with (60_exceptions.md R301). -/
theorem exec_fault_code {i : Instr} (h : exec i s = .fault r) : r.code ∈ execCodes := by
  have store : [3, 4, 8] ⊆ execCodes := by decide
  have load : [3, 4] ⊆ execCodes := by decide
  cases i
  case divReg | divImm => simp [divideOp_fault_code h]
  case callReg | callImm => exact store ((callTo_faultsIn _ _).commitZero h)
  case pushReg | pushImm => exact store ((memWrite_faultsIn _ _ _ _).commitZero h)
  case popReg => exact load ((popInto_faultsIn _ _).commitZero h)
  case intReg | intImm => exact store (softwareInt_fault_code h)
  case sfstorReg | sfstorImm => exact store (conditionalStore_fault_code h)
  case memrRegReg | memrImmReg | ret =>
    refine load (FaultsIn.commitZero ?_ h)
    exact (memRead_faultsIn _ _ _).bind fun _ => .ok _
  case memwRegReg | memwImmReg | memwRegImm | memwImmImm => exact store ((memWrite_faultsIn _ _ _ _).commitZero h)
  case hiret => exact load ((returnFromInterrupt_faultsIn s).commit h)
  all_goals cases h

end

/-- Settles O14: a fetch changes the TLB alone, and an instruction redirects I only once nothing can fault. -/
theorem faultsLeaveInstructionPointer : Obligations.FaultsLeaveInstructionPointer := by
  unfold Obligations.FaultsLeaveInstructionPointer
  refine ⟨fun s r hq hfetch => ?fetch, fun s t i next r hp hfetch hexec => ?exec⟩
  case fetch =>
    have hrel := fetch_rel onlyTlb_closed s.pc.toNat s
    have hcode := fetch_faultsIn s.pc.toNat s
    rw [hfetch] at hrel hcode
    simp only [FaultsIn.error_iff, List.mem_cons, List.not_mem_nil, or_false] at hcode
    exact ⟨step_of_fetch_error hfetch, hrel hq, by omega, by omega⟩
  case exec =>
    have hpc : r.left.pc = next := (exec_fault hexec).pc
    refine ⟨?_, hpc.trans (fetch_next hp.codec hfetch), by simpa using exec_fault_code hexec⟩
    rw [step_of_fetch hfetch, hexec]
    rfl

/-! ## Signals and the interrupt check (O17, O18, O19) -/

theorem signal_accepted_iff (s : State) : (s.ie && s.pend.isNone) = true ↔ s.ie = true ∧ s.pend = none := by
  simp

/-- Settles O17: the port answers the condition under which the slot is filled. -/
theorem signalFillsEmptySlot : Obligations.SignalFillsEmptySlot := by
  unfold Obligations.SignalFillsEmptySlot
  intro s v
  rw [← signal_accepted_iff]
  refine ⟨fun h => ?accepted, fun h => ?refused⟩
  case accepted => rw [signalHardwareInterrupt, State.signal, if_pos h, h]
  case refused => rw [signalHardwareInterrupt, State.signal, if_neg h, Bool.eq_false_iff.2 h]

/-- The check, where no vector is taken, is its landing point (60_exceptions.md R311). -/
theorem interruptCheck_idle {s : State} (h : (land s).pend = none ∨ s.ie = false) :
    interruptCheck s = .ok (land s) := by
  unfold interruptCheck
  dsimp only
  split
  case h_1 v hv =>
    rw [hv] at h
    rw [land_ie, h.resolve_left (by simp)]
    rfl
  case h_2 => rfl

theorem interruptCheck_taken {s : State} {v : Word} (hv : (land s).pend = some v) (hie : s.ie = true) :
    interruptCheck s = takeHardwareInterrupt v (land s) := by
  simp only [interruptCheck, hv, land_ie, hie, if_true]

section
variable {s : State} {v : Word}

/-- An access that is not possible is a `BoundsError` or a `PermissionError`. -/
theorem accessFault_code {kind : Access} {a n : Nat} {r : Fault} (h : AccessFault kind s a n r) :
    r.code = 3 ∨ r.code = 4 := by
  rcases h with ⟨-, -, rfl⟩ | ⟨-, -, k, -, -, -, rfl⟩
  · exact .inl rfl
  · exact .inr rfl

/-- The three accesses of an interrupt entry (60_exceptions.md R311). -/
def EntryPossible (s : State) (v : Word) : Prop :=
  Accessible s .write (s.reg .S + 4).toNat 4 ∧ Accessible s .read (s.ivr.toNat + 4 * v.toNat) 4 ∧
    Accessible s .write (s.reg .S + 8).toNat 4

/-- A hardware-sourced INT faults where one of its accesses is not possible (43_system.md R231). -/
theorem enterHandler_not_possible (hq : s.Quiet) (h : ¬EntryPossible s v) :
    ∃ r, enterHandler true v s = .error r ∧ (r.code = 3 ∨ r.code = 4) := by
  obtain ⟨-, -, hfirst, hvector, hsecond⟩ := intCallsHandler s v hq
  by_cases h1 : Accessible s .write (s.reg .S + 4).toNat 4
  case neg =>
    obtain ⟨r, hr, hf⟩ := hfirst h1
    exact ⟨r, hr, accessFault_code hf⟩
  by_cases h2 : Accessible s .read (s.ivr.toNat + 4 * v.toNat) 4
  case neg =>
    obtain ⟨m, r, hr, -, -, hf⟩ := hvector h1 h2
    exact ⟨r, hr, accessFault_code hf⟩
  obtain ⟨m, r, hr, -, -, hf⟩ := hsecond h1 h2 fun h3 => h ⟨h1, h2, h3⟩
  exact ⟨r, hr, accessFault_code hf⟩

/-- An entry that faults leaves IE as it was given, and the vector pending. -/
theorem enterHandler_fault_keeps {hw : Bool} {r : Fault} {w : Word} (h : enterHandler hw v s = .error r)
    (hp : s.pend = some w) : r.left.ie = s.ie ∧ r.left.pend = some w := by
  have hie := enterHandler_result keepsIe_closed hw v s
  have hpend := enterHandler_result keepsPend_closed hw v s
  rw [h] at hie hpend
  exact ⟨hie, hpend.pending w hp⟩

end

/-- Settles O18: taking an interrupt is a hardware-sourced INT with IE = 0. -/
theorem interruptCheckEntersHandler : Obligations.InterruptCheckEntersHandler := by
  unfold Obligations.InterruptCheckEntersHandler
  refine fun s hq => ⟨fun h => ?idle, fun v hv hie => ?taken⟩
  case idle =>
    have hland := land_quiet hq
    have hcheck := interruptCheck_idle (s := s) (by rwa [hland])
    rwa [hland] at hcheck
  case taken =>
    have hcheck : interruptCheck s = takeHardwareInterrupt v s := by
      have hland := land_quiet hq
      rw [interruptCheck_taken (by rwa [hland]) hie, hland]
    have hquiet : (s.setIe false).Quiet := hq
    obtain ⟨-, hcalled, -⟩ := intCallsHandler (s.setIe false) v hquiet
    refine ⟨fun ⟨h1, h2, h3⟩ => ?enters, fun h => ?faults⟩
    case enters =>
      obtain ⟨m, t, ht, hflags, hpc, hhandler, hS, hregs, hcontrol⟩ := hcalled h1 h2 h3
      refine ⟨m, (t.setFlags 0).setPend none, by rw [hcheck, takeHardwareInterrupt, ht]; rfl, ?flagsStored, ?pcStored,
        hhandler, rfl, hcontrol.ie, rfl, hS, hregs, hcontrol.ivr, hcontrol.vmr, hcontrol.priv, hcontrol.agenda⟩
      case flagsStored => exact ((SameBus.refl s).setIe false).stored hflags (.refl m)
      case pcStored => exact (SameBus.refl m).stored hpc (by constructor <;> rfl)
    case faults =>
      obtain ⟨r, hr, hcode⟩ := enterHandler_not_possible (v := v) hquiet h
      obtain ⟨hleftIe, hleftPend⟩ := enterHandler_fault_keeps hr hv
      exact ⟨r, by rw [hcheck, takeHardwareInterrupt, hr]; rfl, hleftIe, hleftPend, hcode⟩

/-! ### A unit with interrupts disabled -/

theorem PendFilled.eq_of_disabled {s t : State} (h : PendFilled s t) (hie : s.ie = false) : t.pend = s.pend := by
  rcases h with h | ⟨-, hs⟩
  · exact h
  · rw [hie] at hs
    cases hs

/-- IE = 0 stays so, and with it PEND as it is (60_exceptions.md R310). -/
def StaysDisabled (s t : State) : Prop := s.ie = false → t.ie = false ∧ t.pend = s.pend

theorem staysDisabled_closed : ExecClosed StaysDisabled where
  refl _ hie := ⟨hie, rfl⟩
  trans _ _ _ h g hie :=
    have ⟨hie', hp⟩ := h hie
    have ⟨hie'', hp'⟩ := g hie'
    ⟨hie'', hp'.trans hp⟩
  land s hie := ⟨(land_ie s).trans hie, (land_unit s).2.1.eq_of_disabled hie⟩
  write s t a n v h hie := by
    obtain ⟨-, -, -, rfl⟩ := (busWrite_ok_iff _ _ _ _ _ _).1 h
    exact ⟨(written_ie _ _ _ _ _).trans hie, written_pend _ _ _ _ _⟩
  reg _ _ _ hie := ⟨hie, rfl⟩
  pc _ _ hie := ⟨hie, rfl⟩
  flags _ _ hie := ⟨hie, rfl⟩
  ivr _ _ hie := ⟨hie, rfl⟩

/-- PEND as before. -/
def SamePend (s t : State) : Prop := t.pend = s.pend

/-- HIRET writes IE only after its last landing point (43_system.md R233). -/
theorem execHiret_samePend {s : State} (hie : s.ie = false) : OutcomeRel SamePend s (execHiret s) := by
  have hfirst := popInto_result staysDisabled_closed s .A
  unfold execHiret returnFromInterrupt
  dsimp only
  revert hfirst
  cases popInto s .A with
  | error r => exact fun hfirst => (hfirst hie).2
  | ok t =>
    intro hfirst
    obtain ⟨hie', hp⟩ := hfirst hie
    have hsecond := popInto_result staysDisabled_closed t .A
    rw [ok_bind]
    revert hsecond
    cases popInto t .A <;> exact fun hsecond => (hsecond hie').2.trans hp

theorem exec_samePend {s : State} (hie : s.ie = false) (i : Instr) : OutcomeRel SamePend s (exec i s) := by
  by_cases hi : i = .acti ∨ i = .dacti ∨ i = .hiret
  case pos =>
    rcases hi with rfl | rfl | rfl
    · exact (rfl : s.pend = s.pend)
    · exact (rfl : s.pend = s.pend)
    · exact execHiret_samePend hie
  case neg =>
    have hrel := exec_result staysDisabled_closed i (fun h => absurd h hi) s
    revert hrel
    cases exec i s with
    | next t => exact fun hrel => (hrel hie).2
    | fault r => exact fun hrel => (hrel hie).2
    | refused x => exact id

/-- Settles O19: a signal fills the slot only while IE = 1, and every landing point of a fetch or an instruction comes
before the write of IE, if any. -/
theorem signalsReachEnabledUnitOnly : Obligations.SignalsReachEnabledUnitOnly := by
  unfold Obligations.SignalsReachEnabledUnitOnly
  refine ⟨fun s hie => ?check, fun s a hie => ⟨fun x t h => ?answers, fun r h => ?faults⟩,
    fun i s hie => ⟨fun t h => ?next, fun r h => ?fault⟩, fun s v ha hie hp => ?lands⟩
  case check =>
    obtain ⟨hunit, hpend, -⟩ := land_unit s
    exact ⟨land s, interruptCheck_idle (.inr hie), hunit, hpend.eq_of_disabled hie⟩
  case answers | faults =>
    have hrel := fetch_rel keepsUnit_closed a s
    rw [h] at hrel
    exact ⟨hrel.1, hrel.2.eq_of_disabled hie⟩
  case next | fault =>
    have hrel := exec_samePend hie i
    rw [h] at hrel
    exact hrel
  case lands =>
    have hland : land s = (s.setAgenda []).setPend (some v) := by
      rw [land, ha]
      exact if_pos ((signal_accepted_iff _).2 ⟨hie, hp⟩)
    rw [interruptCheck_taken (v := v) (by rw [hland]; rfl) hie, hland]

/-! ## From an interrupt entry back (O20) -/

/-- Cells whose bytes are those of a value hold it (20_memory.md R66). -/
theorem valueAt_of_storedBytes {s : State} {a n v : Nat} (ha : s.params.memoryStart ≤ a)
    (h : ∀ k < n, s.readByte (a + k) = some (storedByte n v k)) : s.valueAt a n = v % 256 ^ n := by
  have hbytes : s.bytesAt a n = beBytes n v := by
    refine List.ext_getElem (by rw [bytesAt_length, beBytes_length]) fun k hk _ => ?_
    rw [bytesAt_length] at hk
    have hk' := h k hk
    rw [readByte_high (by omega)] at hk'
    split at hk'
    · rw [bytesAt_get _ _ _ _ hk, beBytes_get _ _ _ hk]
      exact Option.some.inj hk'
    · cases hk'
  rw [valueAt_high (by omega), hbytes, beValue_beBytes]

section
variable {src : String} {s t : State} {a n v : Nat}

/-- A write changes no permission and no bound. -/
theorem Stored.cellsAllow (h : Stored src s t a n v) {k : Access} {x m : Nat} :
    CellsAllow t k x m ↔ CellsAllow s k x m := by
  simp only [CellsAllow, State.permsAt, h.params, h.perms]

/-- What a write to cells leaves is read back. -/
theorem Stored.valueAt (h : Stored src s t a n v) (ha : s.params.memoryStart ≤ a) : t.valueAt a n = v % 256 ^ n :=
  valueAt_of_storedBytes (by rwa [h.params]) (h.cells ha)

/-- What a write to cells leaves is read back after another write past it. -/
theorem Stored.valueAt_below {m : State} {a' n' v' : Nat} (h : Stored src s m a n v) (g : Stored src m t a' n' v')
    (ha : s.params.memoryStart ≤ a) (hbelow : a + n ≤ a') : t.valueAt a n = v % 256 ^ n := by
  refine valueAt_of_storedBytes (by rwa [g.params, h.params]) fun k hk => ?_
  rw [g.others _ (by omega), h.cells ha k hk]

end

/-- What an interrupt entry leaves on a stack of cells: I on top of the stack, FLAGS below it, both readable
(60_exceptions.md R311, R315). -/
structure Interrupted (s t : State) : Prop where
  stack         : t.reg .S = s.reg .S + 8
  regs          : RegsExcept s t [.S]
  quiet         : t.Quiet
  pend          : t.pend = none
  ivr           : t.ivr = s.ivr
  savedPc       : t.valueAt (t.reg .S).toNat 4 = s.pc.toNat
  savedFlags    : t.valueAt (t.reg .S - 4).toNat 4 = s.flags.toNat
  readablePc    : Accessible t .read (t.reg .S).toNat 4
  readableFlags : Accessible t .read (t.reg .S - 4).toNat 4

section
variable {s t : State} {v : Word}

theorem interruptCheck_interrupted (hp : s.params.Ok) (hq : s.Quiet) (hv : s.pend = some v) (hie : s.ie = true)
    (hw : CellsAllow s .write ((s.reg .S).toNat + 4) 8) (hr : CellsAllow s .read ((s.reg .S).toNat + 4) 8)
    (hvec : Accessible s .read (s.ivr.toNat + 4 * v.toNat) 4) : ∃ t, interruptCheck s = .ok t ∧ Interrupted s t := by
  have hend := hp.end_le
  obtain ⟨hstart, hlast, -⟩ := id hw
  have ha1 : (s.reg .S + 4).toNat = (s.reg .S).toNat + 4 := by bv_omega
  have ha2 : (s.reg .S + 8).toNat = (s.reg .S).toNat + 8 := by bv_omega
  have hw1 : CellsAllow s .write (s.reg .S + 4).toNat 4 := hw.mono (by omega) (by omega)
  have hw2 : CellsAllow s .write (s.reg .S + 8).toNat 4 := hw.mono (by omega) (by omega)
  obtain ⟨-, htaken⟩ := interruptCheckEntersHandler s hq
  obtain ⟨henters, -⟩ := htaken v hv hie
  obtain ⟨m, t, ht, hflags, hpc, -, -, -, hpend, hS, hregs, hivr, -, -, hagenda⟩ :=
    henters ⟨.inl hw1, hvec, .inl hw2⟩
  have hS4 : t.reg .S - 4 = s.reg .S + 4 := by rw [hS]; bv_omega
  have hcells : CellsAllow t .read ((s.reg .S).toNat + 4) 8 := hpc.cellsAllow.2 (hflags.cellsAllow.2 hr)
  refine ⟨t, ht, ?_⟩
  constructor
  case stack => exact hS
  case regs => exact hregs
  case quiet => exact hagenda.trans hq
  case pend => exact hpend
  case ivr => exact hivr
  case savedPc =>
    rw [hS, hpc.valueAt (by rw [hflags.params]; omega)]
    exact Nat.mod_eq_of_lt s.pc.isLt
  case savedFlags =>
    have hlt := s.flags.isLt
    rw [hS4, hflags.valueAt_below hpc (by omega) (by omega)]
    omega
  case readablePc => exact .inl (hcells.mono (by rw [hS]; omega) (by rw [hS]; omega))
  case readableFlags => exact .inl (hcells.mono (by rw [hS4]; omega) (by rw [hS4]; omega))

namespace Interrupted

/-- A handler's own I does not matter. -/
theorem setPc (h : Interrupted s t) (p : Word) : Interrupted s (t.setPc p) :=
  ⟨h.stack, h.regs, h.quiet, h.pend, h.ivr, h.savedPc, h.savedFlags, h.readablePc, h.readableFlags⟩

/-- Lowering S past both saved words undoes what the entry did to the registers. -/
theorem regs_restored {u : State} (h : Interrupted s t) (hS : u.reg .S = t.reg .S - 8) (hregs : RegsExcept t u [.S])
    (q : Reg) : u.reg q = s.reg q := by
  by_cases hq : q = .S
  · rw [hq, hS, h.stack, BitVec.add_sub_cancel]
  · have hmem : q ∉ [Reg.S] := by simpa using hq
    exact (hregs q hmem).trans (h.regs q hmem)

/-- FLAGS fit in the bits HIRET takes from the word it pops. -/
theorem flags_restored {f : FlagBits} (h : Interrupted s t) (hf : f.toNat = t.valueAt (t.reg .S - 4).toNat 4 % 8) :
    f = s.flags :=
  BitVec.eq_of_toNat_eq (by rw [hf, h.savedFlags]; exact Nat.mod_eq_of_lt s.flags.isLt)

end Interrupted

end

/-- Settles O20: the entry leaves I and FLAGS where HIRET pops them from. -/
theorem hiretUndoesInterruptEntry : Obligations.HiretUndoesInterruptEntry := by
  unfold Obligations.HiretUndoesInterruptEntry
  intro s v p hp hq hv hie hw hr hvec
  obtain ⟨t, ht, hentry⟩ := interruptCheck_interrupted hp hq hv hie hw hr hvec
  have hi := hentry.setPc p
  obtain ⟨hreads, -⟩ := hiretRestoresSavedState (t.setPc p) hi.quiet
  obtain ⟨u, hu, hpc, hflags, huie, hS, hregs, hpend, hivr, -⟩ := hreads ⟨hi.readablePc, hi.readableFlags⟩
  exact ⟨t, u, ht, hu, hi.regs_restored hS hregs, BitVec.eq_of_toNat_eq (hpc.trans hi.savedPc),
    hi.flags_restored hflags, huie, hpend.trans hi.pend, hivr.trans hi.ivr⟩

end Sys2Proof.Machine

namespace Sys2Proof.Machine

/-! ## Reset and the set-up ports (O46) -/

theorem Regs.get_zero (r : Reg) : Regs.zero.get r = 0 := by cases r <;> rfl

/-- Reset writes the unit alone (70_reset_and_hazards.md R340). -/
theorem sameShared_resetUnit (i0 : Word) (s : State) : SameShared s (resetUnit i0 s) :=
  sameShared_of_fields rfl rfl rfl rfl rfl rfl

theorem inArray_iff {s : State} {a : Nat} :
    s.inArray a = true ↔ s.params.memoryStart ≤ a ∧ a < s.params.memoryEnd := by
  rw [State.inArray, decide_eq_true_eq]

theorem setupCore_inArray {s : State} {i0 : Nat} (h : s.inArray i0 = true) :
    setupCore i0 s = .ok (s.setPc (BitVec.ofNat 32 i0)) := if_pos h

theorem setupCore_not_inArray {s : State} {i0 : Nat} (h : ¬s.inArray i0 = true) :
    setupCore i0 s = .error (.init (.address i0) s) := if_neg h

/-- An address of the MemoryArray fits in I, because the array ends at or below 2^32 (00_scope.md R8). -/
theorem toNat_ofNat_of_inArray {s : State} (hp : s.params.Ok) {a : Nat} (h : s.inArray a = true) :
    (BitVec.ofNat 32 a).toNat = a := by
  have hlt : a < 2 ^ 32 := Nat.lt_of_lt_of_le (inArray_iff.1 h).2 hp.end_le
  rw [BitVec.toNat_ofNat, Nat.mod_eq_of_lt hlt]

/-- Settles O46: reset zeroes every register and keeps what is shared, and `setupCore` sets I exactly when its argument is
in the MemoryArray. -/
theorem resetAndSetupPorts : Obligations.ResetAndSetupPorts := by
  unfold Obligations.ResetAndSetupPorts
  refine fun s => ⟨fun i0 => ?reset, fun i0 hp hin => ?inside, fun i0 hout => ?outside, fun v => ?vmr, fun b => ?priv⟩
  case reset => exact ⟨Regs.get_zero, rfl, rfl, rfl, rfl, rfl, rfl, rfl, sameShared_resetUnit i0 s, rfl, rfl⟩
  case inside =>
    have ha : s.inArray i0 = true := inArray_iff.2 hin
    exact ⟨_, setupCore_inArray ha, toNat_ofNat_of_inArray hp ha, rfl⟩
  case outside => exact setupCore_not_inArray (mt inArray_iff.1 hout)
  case vmr => exact ⟨s.setVmr_vmr v, rfl, s.setVmr_tlb v⟩
  case priv => exact ⟨s.setPriv_priv b, rfl, s.setPriv_tlb b⟩

end Sys2Proof.Machine

namespace Sys2Proof

/-! ## The example word of each form (O6) -/

/-- Under the reference codec, the byte string of R124 of a well-formed instruction decodes to it (30_encoding.md R117). -/
theorem decode_encode {i : Instr} (hw : WellFormed i = true) (rest : List Byte) :
    decode (encode i ++ rest) = .ok (i, rest) := by
  obtain ⟨bs, _, hbs, hdecode, -⟩ := reference_ok.decode_encode hw rest
  obtain rfl : encode i = bs := Option.some.inj ((reference_encode i).symm.trans hbs)
  exact hdecode

theorem decode_of_encode_eq {i : Instr} {bs : List Byte} (hw : WellFormed i = true) (he : encode i = bs) :
    decode bs = .ok (i, []) := by
  subst he
  simpa only [List.append_nil] using decode_encode hw []

/-- Settles O6: each word is the byte string of R124 of its instruction, whose width, where it has one, is legal. -/
theorem sampleWordsDecode : Obligations.SampleWordsDecode := by
  unfold Obligations.SampleWordsDecode
  refine ⟨?ins, ?insRegReg, ?insImmReg, ?insReg, ?insImm, ?insFlagReg, ?insFlagImm, ?insWidthRegReg, ?insWidthImmReg,
    ?insWidthRegImm, ?insWidthImmImm⟩
  case ins | insRegReg | insImmReg | insReg | insImm | insFlagReg | insFlagImm => exact decode_of_encode_eq rfl rfl
  case insWidthRegReg | insWidthRegImm | insWidthImmImm => exact decode_of_encode_eq (show WidthOk 4 = true from rfl) rfl
  case insWidthImmReg => exact decode_of_encode_eq (show WidthOk 2 = true from rfl) rfl

end Sys2Proof
